-- ==== Sys2Proof/Word.lean ====
section
/-! DEFINITION. The words that travel on FPCORE's ports (spec/10_state.md R24, R25). -/

namespace Sys2Proof

/-- A command word, port CMD and latch LCMD (R24, R28). -/
abbrev CmdWord := BitVec 32

/-- A value bus word, ports A, B and R (R24, R25; layout in spec/30_encoding.md R74). -/
abbrev BusWord := BitVec 74

/-- A raw pattern or a binary64 pattern, ports RAW_IN, RAW_OUT, F_IN, F_OUT (R24, R25). -/
abbrev Word64 := BitVec 64

/-- A scalar, port SCAL (R25). -/
abbrev ScalWord := BitVec 8

/-- An error code, port ERR (R25). -/
abbrev ErrWord := BitVec 3

end Sys2Proof
end

