-- ==== Sys2Proof/Syntax.lean ====
section
/-! DEFINITION. The commands of FPCORE (spec/30_encoding.md R80), what each reads and writes (R86), and the assembler
notation (R84, R85). -/

namespace Sys2Proof

/-- The 23 commands. DECODE and FROMF carry the target format `F_t = (TEB, TMB)` (R72), as numbers: a field value is a
width, and R6 computes on integers. -/
inductive Instr
  | decode (teb tmb : Nat)
  | encode
  | classify
  | isnan
  | isinf
  | iszero
  | signneg
  | getsign
  | geteb
  | getmb
  | fromf (teb tmb : Nat)
  | tof
  | neg
  | abs
  | add
  | sub
  | mul
  | cmpeq
  | cmpne
  | cmplt
  | cmpgt
  | cmple
  | cmpge
  deriving DecidableEq, Repr

/-- The result register a command writes on success (R86). -/
inductive ResultReg
  | r
  | rawOut
  | fOut
  | scal
  deriving DecidableEq, Repr

namespace Instr

/-- The mnemonic of R80, as the opcode table spells it. -/
def mnemonic : Instr → String
  | .decode _ _ => "DECODE"
  | .encode => "ENCODE"
  | .classify => "CLASSIFY"
  | .isnan => "ISNAN"
  | .isinf => "ISINF"
  | .iszero => "ISZERO"
  | .signneg => "SIGNNEG"
  | .getsign => "GETSIGN"
  | .geteb => "GETEB"
  | .getmb => "GETMB"
  | .fromf _ _ => "FROMF"
  | .tof => "TOF"
  | .neg => "NEG"
  | .abs => "ABS"
  | .add => "ADD"
  | .sub => "SUB"
  | .mul => "MUL"
  | .cmpeq => "CMPEQ"
  | .cmpne => "CMPNE"
  | .cmplt => "CMPLT"
  | .cmpgt => "CMPGT"
  | .cmple => "CMPLE"
  | .cmpge => "CMPGE"

/-- R86, column "reads": the value bus operand A. -/
def readsA : Instr → Bool
  | .decode _ _ | .fromf _ _ => false
  | .encode | .classify | .isnan | .isinf | .iszero | .signneg | .getsign | .geteb | .getmb | .tof | .neg | .abs
  | .add | .sub | .mul | .cmpeq | .cmpne | .cmplt | .cmpgt | .cmple | .cmpge => true

/-- R86, column "reads": the value bus operand B. -/
def readsB : Instr → Bool
  | .add | .sub | .mul | .cmpeq | .cmpne | .cmplt | .cmpgt | .cmple | .cmpge => true
  | .decode _ _ | .fromf _ _ | .encode | .classify | .isnan | .isinf | .iszero | .signneg | .getsign | .geteb
  | .getmb | .tof | .neg | .abs => false

/-- R86, column "reads": RAW_IN. -/
def readsRaw : Instr → Bool
  | .decode _ _ => true
  | .fromf _ _ | .encode | .classify | .isnan | .isinf | .iszero | .signneg | .getsign | .geteb | .getmb | .tof
  | .neg | .abs | .add | .sub | .mul | .cmpeq | .cmpne | .cmplt | .cmpgt | .cmple | .cmpge => false

/-- R86, column "reads": F_IN. -/
def readsF : Instr → Bool
  | .fromf _ _ => true
  | .decode _ _ | .encode | .classify | .isnan | .isinf | .iszero | .signneg | .getsign | .geteb | .getmb | .tof
  | .neg | .abs | .add | .sub | .mul | .cmpeq | .cmpne | .cmplt | .cmpgt | .cmple | .cmpge => false

/-- R86, column "writes on success". -/
def writes : Instr → ResultReg
  | .decode _ _ | .fromf _ _ | .neg | .abs | .add | .sub | .mul => .r
  | .encode => .rawOut
  | .tof => .fOut
  | .classify | .isnan | .isinf | .iszero | .signneg | .getsign | .geteb | .getmb
  | .cmpeq | .cmpne | .cmplt | .cmpgt | .cmple | .cmpge => .scal

/-- The target format operand `E<eb>M<mb>` of R84, with decimal numbers. -/
def asmFormat (teb tmb : Nat) : String := "E" ++ Nat.repr teb ++ "M" ++ Nat.repr tmb

/-- The assembler line of a command (R84): its mnemonic, and for DECODE and FROMF the target format. -/
def asm : Instr → String
  | .decode teb tmb => "DECODE " ++ asmFormat teb tmb
  | .fromf teb tmb => "FROMF " ++ asmFormat teb tmb
  | .encode => mnemonic .encode
  | .classify => mnemonic .classify
  | .isnan => mnemonic .isnan
  | .isinf => mnemonic .isinf
  | .iszero => mnemonic .iszero
  | .signneg => mnemonic .signneg
  | .getsign => mnemonic .getsign
  | .geteb => mnemonic .geteb
  | .getmb => mnemonic .getmb
  | .tof => mnemonic .tof
  | .neg => mnemonic .neg
  | .abs => mnemonic .abs
  | .add => mnemonic .add
  | .sub => mnemonic .sub
  | .mul => mnemonic .mul
  | .cmpeq => mnemonic .cmpeq
  | .cmpne => mnemonic .cmpne
  | .cmplt => mnemonic .cmplt
  | .cmpgt => mnemonic .cmpgt
  | .cmple => mnemonic .cmple
  | .cmpge => mnemonic .cmpge

/-- The pseudo-operation `CVT E<eb>M<mb>` (R85): TOF, then FROMF of what TOF gave. It has no opcode. Log entry 12. -/
def cvt (teb tmb : Nat) : List Instr := [.tof, .fromf teb tmb]

end Instr

end Sys2Proof
end

