-- ==== Sys2Proof/WellFormed.lean ====
section
/-! DEFINITION. Which command terms have a word (spec/30_encoding.md R70, R72). -/

namespace Sys2Proof

/-- The target format fields fit the command word: TEB in [0,15] and TMB in [0,63] (R72). A spelling outside the LEGAL
formats is a well-formed command: it completes with FORMAT_ERROR (R72). -/
def Instr.wellFormed : Instr → Bool
  | .decode teb tmb | .fromf teb tmb => decide (teb < 16) && decide (tmb < 64)
  | .encode | .classify | .isnan | .isinf | .iszero | .signneg | .getsign | .geteb | .getmb | .tof | .neg | .abs
  | .add | .sub | .mul | .cmpeq | .cmpne | .cmplt | .cmpgt | .cmple | .cmpge => true

end Sys2Proof
end

