-- ==== Sys2Proof/Decode.lean ====
section
/-! DEFINITION. The decoder of command words, total and rejecting by name, and the encoder (spec/30_encoding.md R70 to
R73, R80 to R83). -/

namespace Sys2Proof

/-- Why a 32-bit word is no command (R81). Every reason is the one error ILLEGAL_CMD (spec/60 R231). -/
inductive Illegal
  | reservedBits
  | unassignedOpcode (op : Nat)
  | targetFieldsNotZero
  deriving DecidableEq, Repr

/-- `OP = [4:0]` (R70, R71). -/
def opField (w : CmdWord) : Nat := (w.extractLsb' 0 5).toNat

/-- `TEB = [8:5]`, zero-extended, no scaling (R70, R72). -/
def tebField (w : CmdWord) : Nat := (w.extractLsb' 5 4).toNat

/-- `TMB = [14:9]`, zero-extended, no scaling (R70, R72). -/
def tmbField (w : CmdWord) : Nat := (w.extractLsb' 9 6).toNat

/-- `RSV = [31:15]` (R70, R73). -/
def rsvField (w : CmdWord) : Nat := (w.extractLsb' 15 17).toNat

/-- The command an opcode selects, with the target fields of the word (R80); none for 0x00 and 0x18 to 0x1F (R71). -/
def instrOf (op teb tmb : Nat) : Option Instr :=
  match op with
  | 0x01 => some (.decode teb tmb)
  | 0x02 => some .encode
  | 0x03 => some .classify
  | 0x04 => some .isnan
  | 0x05 => some .isinf
  | 0x06 => some .iszero
  | 0x07 => some .signneg
  | 0x08 => some .getsign
  | 0x09 => some .geteb
  | 0x0A => some .getmb
  | 0x0B => some (.fromf teb tmb)
  | 0x0C => some .tof
  | 0x0D => some .neg
  | 0x0E => some .abs
  | 0x0F => some .add
  | 0x10 => some .sub
  | 0x11 => some .mul
  | 0x12 => some .cmpeq
  | 0x13 => some .cmpne
  | 0x14 => some .cmplt
  | 0x15 => some .cmpgt
  | 0x16 => some .cmple
  | 0x17 => some .cmpge
  | _ => none

/-- The opcodes whose command reads TEB and TMB (R70, R72): DECODE and FROMF. -/
def hasTarget (op : Nat) : Bool := op == 0x01 || op == 0x0B

/-- Every 32-bit word is one command or illegal (R81). The order in which the three causes are named is log entry 10. -/
def decode (w : CmdWord) : Except Illegal Instr :=
  if rsvField w ≠ 0 then .error .reservedBits
  else match instrOf (opField w) (tebField w) (tmbField w) with
    | none => .error (.unassignedOpcode (opField w))
    | some i =>
      if hasTarget (opField w) = false ∧ (tebField w ≠ 0 ∨ tmbField w ≠ 0) then .error .targetFieldsNotZero
      else .ok i

/-- The opcode of a command (R80). -/
def opcode : Instr → Nat
  | .decode _ _ => 0x01
  | .encode => 0x02
  | .classify => 0x03
  | .isnan => 0x04
  | .isinf => 0x05
  | .iszero => 0x06
  | .signneg => 0x07
  | .getsign => 0x08
  | .geteb => 0x09
  | .getmb => 0x0A
  | .fromf _ _ => 0x0B
  | .tof => 0x0C
  | .neg => 0x0D
  | .abs => 0x0E
  | .add => 0x0F
  | .sub => 0x10
  | .mul => 0x11
  | .cmpeq => 0x12
  | .cmpne => 0x13
  | .cmplt => 0x14
  | .cmpgt => 0x15
  | .cmple => 0x16
  | .cmpge => 0x17

/-- `F_t` of a command, zero where the command has none (R70, R72). -/
def targetOf : Instr → Nat × Nat
  | .decode teb tmb | .fromf teb tmb => (teb, tmb)
  | .encode | .classify | .isnan | .isinf | .iszero | .signneg | .getsign | .geteb | .getmb | .tof | .neg | .abs
  | .add | .sub | .mul | .cmpeq | .cmpne | .cmplt | .cmpgt | .cmple | .cmpge => (0, 0)

/-- The word of a well-formed command: `OP + 32*TEB + 512*TMB + 32768*RSV` with `RSV = 0` (R70). -/
def encode (i : Instr) : CmdWord :=
  BitVec.ofNat 32 (opcode i + 32 * (targetOf i).1 + 512 * (targetOf i).2)

/-- What the decoder reads from the opcode table's word `w` of `nbits` bits, the bits above being 0. A command is one
parallel 32-bit word (R51, R83), so the word is laid out as it stands. -/
def decodeTableWord (nbits w : Nat) : Option Instr :=
  match decode (BitVec.ofNat 32 (w % 2 ^ nbits)) with
  | .ok i => some i
  | .error _ => none

end Sys2Proof
end

