-- ==== Sys2Proof/Config.lean ====
section
/-! DEFINITION. The implementation parameters of spec/00_scope.md R5 that are data: the largest widths, and the latency,
which is a free value. (The canonical NaN payload of R5 is a function and stands in Machine/Round.lean.) -/

namespace Sys2Proof.Config

/-- `EB_MAX`, the largest legal exp_bits (R5). Fixed at the spec's value: log entry 9. -/
def ebMax : Nat := 11

/-- `MB_MAX`, the largest legal man_bits (R5). Fixed at the spec's value: log entry 9. -/
def mbMax : Nat := 52

/-- How many rising edges beyond the first a command takes from ISSUE to COMPLETE: a FREE VALUE (R5, spec/70 R269: "an
implementation parameter that is finite for every command and may depend on the command and its operands"). It has no
body, so nothing can be proved about it. It is applied to the latched words the command was issued with. Log entry 2. -/
opaque extraLatency (cmd : CmdWord) (a b : BusWord) (raw f : Word64) : Nat

/-- `LAT` (R269): at least one rising edge, whatever the free value is. -/
def latency (cmd : CmdWord) (a b : BusWord) (raw f : Word64) : Nat := extraLatency cmd a b raw f + 1

end Sys2Proof.Config
end

