-- ==== Sys2Proof/Machine/Value.lean ====
section
/-! DEFINITION. Numbers, formats and values (spec/00_scope.md R6, spec/10_state.md R21 to R23), the class of a value,
the real number it stands for and its significand form (spec/41_classify.md R120, R122, R123). -/

namespace Sys2Proof.Machine

/-- `bitlen(S)` of R6: for `S > 0` the unique `L` with `2^(L-1) <= S < 2^L`. No rule asks for it at 0. -/
def bitlen (S : Nat) : Nat := Nat.log2 S + 1

/-- `2^k` of R6: the integer power for `k >= 0`, the rational power for `k < 0`. -/
def pow2 : Int → ℚ
  | .ofNat n => ((2 ^ n : Nat) : ℚ)
  | .negSucc n => mkRat 1 (2 ^ (n + 1))

/-- A format descriptor `(eb, mb)` (R21). -/
structure Format where
  eb : Nat
  mb : Nat
  deriving DecidableEq, Repr

namespace Format

/-- `F` is legal: `1 <= eb <= EB_MAX` and `0 <= mb <= MB_MAX` (R21). -/
abbrev Legal (F : Format) : Prop := 1 ≤ F.eb ∧ F.eb ≤ Config.ebMax ∧ F.mb ≤ Config.mbMax

/-- `W(F) = 1 + eb + mb`, the width of the raw pattern (R23). -/
def width (F : Format) : Nat := 1 + F.eb + F.mb

/-- `bias(F) = 2^(eb-1) - 1` (R23). -/
def bias (F : Format) : Nat := 2 ^ (F.eb - 1) - 1

/-- `EALL(F) = 2^eb - 1`, the all-ones exponent field (R23). -/
def eall (F : Format) : Nat := 2 ^ F.eb - 1

/-- `emin(F) = 1 - bias(F)`, the exponent of the smallest normal value (R23). -/
def emin (F : Format) : Int := 1 - (F.bias : Int)

end Format

/-- The platform format binary64, `F64 = (11, 52)` (spec/30 R78). -/
def F64 : Format := ⟨11, 52⟩

/-- A value `(s, E, M, F)` (R22); `s = true` means negative. -/
structure Value where
  s : Bool
  e : Nat
  m : Nat
  fmt : Format
  deriving DecidableEq, Repr

/-- The classes of R120. -/
inductive Class
  | zero
  | subnormal
  | normal
  | infinity
  | nan
  deriving DecidableEq, Repr

/-- The rationals with the two infinities, where `X(v)` lives (spec/43 R170). -/
inductive ExtRat
  | negInf
  | fin (q : ℚ)
  | posInf
  deriving DecidableEq

namespace Value

/-- `v` is well-formed: a legal format, `E < 2^eb` and `M < 2^mb` (R22). -/
abbrev WF (v : Value) : Prop := v.fmt.Legal ∧ v.e < 2 ^ v.fmt.eb ∧ v.m < 2 ^ v.fmt.mb

/-- `Class(v)` (R120). The last row stands for `1 <= E <= EALL - 1`, which is all that is left of a well-formed value. -/
def cls (v : Value) : Class :=
  if v.e = 0 then (if v.m = 0 then .zero else .subnormal)
  else if v.e = v.fmt.eall then (if v.m = 0 then .infinity else .nan)
  else .normal

/-- The factor `(-1)^s` (R122). -/
def sign (v : Value) : ℚ := if v.s then -1 else 1

/-- `val(v)` (R122), which is also `X(v)` (R170: both zeros are the rational 0). A NaN has none. -/
def val (v : Value) : Option ExtRat :=
  match v.cls with
  | .zero => some (.fin 0)
  | .subnormal => some (.fin (v.sign * ((v.m : ℚ) / (2 ^ v.fmt.mb : Nat)) * pow2 (1 - v.fmt.bias)))
  | .normal => some (.fin (v.sign * (1 + (v.m : ℚ) / (2 ^ v.fmt.mb : Nat)) * pow2 (v.e - v.fmt.bias)))
  | .infinity => some (if v.s then .negInf else .posInf)
  | .nan => none

/-- `SF(v) = (S, Q)` of a Subnormal or Normal value (R123). -/
def sf (v : Value) : Nat × Int :=
  match v.cls with
  | .normal => (2 ^ v.fmt.mb + v.m, (v.e : Int) - v.fmt.bias - v.fmt.mb)
  | .zero | .subnormal | .infinity | .nan => (v.m, v.fmt.emin - v.fmt.mb)

/-- `v` with its sign bit flipped (spec/44 R192, R195). -/
def flipSign (v : Value) : Value := { v with s := !v.s }

/-- `v` with its sign bit cleared (spec/44 R193). -/
def clearSign (v : Value) : Value := { v with s := false }

end Value

end Sys2Proof.Machine
end

