-- ==== Sys2Proof/Machine/Flags.lean ====
section
/-! DEFINITION. FPCORE has no status flag and no sticky flag (spec/10_state.md R31). What stands in their place are the
scalar result on SCAL (spec/30_encoding.md R79, spec/41_classify.md R121) and the error code and information on ERR and
SCAL (spec/60_exceptions.md R230). -/

namespace Sys2Proof.Machine

/-- `bool(c)`: 0x01 true, 0x00 false (R79). -/
def boolScal (c : Bool) : ScalWord := if c then 1 else 0

/-- The class codes of R121. -/
def Class.code : Class → ScalWord
  | .zero => 0
  | .subnormal => 1
  | .normal => 2
  | .infinity => 3
  | .nan => 4

/-- The errors a command can report, in the order of R237. -/
inductive CmdError
  | illegalCmd
  | invalidOperandA
  | invalidOperandB
  | illegalWidths
  | rawTooWide
  | nanUnrepresentable
  deriving DecidableEq, Repr

/-- Column ERR of R230. -/
def CmdError.code : CmdError → ErrWord
  | .illegalCmd => 1
  | .invalidOperandA | .invalidOperandB => 2
  | .illegalWidths | .rawTooWide => 3
  | .nanUnrepresentable => 4

/-- Column "SCAL info" of R230. -/
def CmdError.info : CmdError → ScalWord
  | .illegalCmd => 0
  | .invalidOperandA => 1
  | .invalidOperandB => 2
  | .illegalWidths => 1
  | .rawTooWide => 2
  | .nanUnrepresentable => 0

end Sys2Proof.Machine
end

