-- ==== Sys2Proof/Machine/Operands.lean ====
section
/-! DEFINITION. The forms in which a value travels: raw patterns (spec/40_codec.md R100, R101; spec/30_encoding.md R77,
R78) and value bus words (R74, R75). -/

namespace Sys2Proof.Machine

/-- `Split(raw, F)` (R100): top bit, next `eb` bits, remaining `mb` bits. -/
def split (raw : Nat) (F : Format) : Value :=
  { s := raw.testBit (F.eb + F.mb), e := raw / 2 ^ F.mb % 2 ^ F.eb, m := raw % 2 ^ F.mb, fmt := F }

/-- `Pack(v) = s * 2^(eb+mb) + E * 2^mb + M` (R101). -/
def pack (v : Value) : Nat := (if v.s then 1 else 0) * 2 ^ (v.fmt.eb + v.fmt.mb) + v.e * 2 ^ v.fmt.mb + v.m

/-- A raw pattern right-aligned in 64 bits (R77). -/
def rawWord (v : Value) : Word64 := BitVec.ofNat 64 (pack v)

/-- The value of a binary64 pattern (R78): `Split(F_IN, F64)`. -/
def ofBinary64 (w : Word64) : Value := split w.toNat F64

/-- `VB(v) = {eb, mb, s, E, M}` in fields of 4, 6, 1, 11 and 52 bits (R74). -/
def toBus (v : Value) : BusWord :=
  BitVec.ofNat 4 v.fmt.eb ++ BitVec.ofNat 6 v.fmt.mb ++ BitVec.ofBool v.s ++ BitVec.ofNat 11 v.e ++ BitVec.ofNat 52 v.m

/-- `unVB(w)` (R75). -/
def ofBus (w : BusWord) : Value :=
  { s := w.getLsbD 63
    e := (w.extractLsb' 52 11).toNat
    m := (w.extractLsb' 0 52).toNat
    fmt := ⟨(w.extractLsb' 70 4).toNat, (w.extractLsb' 64 6).toNat⟩ }

end Sys2Proof.Machine
end

