-- ==== Sys2Proof/Machine/State.lean ====
section
/-! DEFINITION. The state of FPCORE (spec/10_state.md R24 to R29, R32, R33), why a step can stop, and the state after
RESET. All of it plain data. -/

namespace Sys2Proof.Machine

/-- The output ports (R25). -/
inductive OutPort
  | busy
  | valid
  | r
  | rawOut
  | fOut
  | scal
  | err
  deriving DecidableEq, Repr

/-- What the host does around one rising edge of CLK: the output ports it reads before the edge (log entry 5), and the
levels it drives on the input ports at the edge (R24). -/
structure HostEdge where
  samples : List OutPort
  reset : Bool
  start : Bool
  cmd : CmdWord
  a : BusWord
  b : BusWord
  rawIn : Word64
  fIn : Word64
  deriving DecidableEq, Repr

/-- A host that asks for nothing: RESET and START low, no port read. The levels of the data ports have no effect at
such an edge (spec/70 R264). -/
def HostEdge.idle : HostEdge :=
  { samples := [], reset := false, start := false, cmd := 0, a := 0, b := 0, rawIn := 0, fIn := 0 }

/-- Why the machine stops. -/
inductive Fault
  /-- The host read a result register that holds NONE (R29, spec/70 R267: "a model must treat a read of a NONE register
  as a fault"). Raised by `step` when the next edge samples such a port. Safe: a real port shows some level. -/
  | readOfNone (port : OutPort)
  deriving DecidableEq, Repr

/-- Why the model gives an instruction no meaning. -/
inductive Refusal
  /-- No meaning yet for the command of this mnemonic. No arm of `exec` raises it. Safe: nothing can be proved of it. -/
  | notModelled (mnemonic : String)
  deriving DecidableEq, Repr

/-- Everything the spec gives the machine (R26 to R29), the remaining latency of the command in flight (spec/70 R265,
R269) and what the host does next (R24). `none` in a result register is the spec's NONE (R29). -/
structure State where
  busy : Bool
  valid : Bool
  lcmd : CmdWord
  la : BusWord
  lb : BusWord
  lraw : Word64
  lf : Word64
  r : Option BusWord
  rawOut : Option Word64
  fOut : Option Word64
  scal : Option ScalWord
  err : Option ErrWord
  /-- While `busy`: how many rising edges pass before the one that is COMPLETE (log entry 3). -/
  wait : Nat
  /-- What the host does at the coming rising edges, the next one first (log entry 4). -/
  host : List HostEdge
  deriving DecidableEq, Repr

/-- The state after RESET (R32). BUSY, VALID and the result registers are the spec's. The latches are unspecified there
and 0 here (DESIGN CHOICE, log entry 1); `wait` and `host` are log entries 3 and 4. -/
def State.reset : State :=
  { busy := false, valid := false
    lcmd := 0, la := 0, lb := 0, lraw := 0, lf := 0
    r := none, rawOut := none, fOut := none, scal := none, err := none
    wait := 0, host := [] }

/-- The three outcomes, at FPCORE's types. -/
abbrev Result := Host.Outcome State Fault Refusal

end Sys2Proof.Machine
end

