-- ==== Sys2Proof/Machine/Ops.lean ====
section
/-! DEFINITION. The named operations over the registers: how a command completes (spec/70 R265), how it reports an error
(spec/60 R235), how it checks and reads its operands (spec/60 R236), and how the host reads a port (spec/10 R29). -/

namespace Sys2Proof.Machine

namespace State

/-- What every COMPLETE writes: BUSY, VALID and ERR (R265, spec/10 R29). A result register not named by the command is
left as it stands: NONE since ISSUE (R29). -/
def finish (code : ErrWord) (s : State) : State := { s with busy := false, valid := true, err := some code }

/-- A completion whose result is a value: on R as its value bus word (spec/30 R74, R86). -/
def withR (v : Value) (s : State) : State := { s.finish 0 with r := some (toBus v) }

/-- A completion whose result is a raw pattern, on RAW_OUT (R86). -/
def withRawOut (w : Word64) (s : State) : State := { s.finish 0 with rawOut := some w }

/-- A completion whose result is a binary64 pattern, on F_OUT (R86). -/
def withFOut (w : Word64) (s : State) : State := { s.finish 0 with fOut := some w }

/-- A completion whose result is a scalar, on SCAL (R79, R86). -/
def withScal (w : ScalWord) (s : State) : State := { s.finish 0 with scal := some w }

/-- `raise E(info)` at COMPLETE: ERR and SCAL take the code and the information, and no result is written (R235). -/
def withError (e : CmdError) (s : State) : State := { s.finish e.code with scal := some e.info }

end State

/-- The command ends normally with a value on R. -/
def answerR (v : Value) (s : State) : Result := .next (s.withR v)

/-- The command ends normally with a raw pattern on RAW_OUT. -/
def answerRawOut (w : Word64) (s : State) : Result := .next (s.withRawOut w)

/-- The command ends normally with a binary64 pattern on F_OUT. -/
def answerFOut (w : Word64) (s : State) : Result := .next (s.withFOut w)

/-- The command ends normally with a scalar on SCAL. -/
def answerScal (w : ScalWord) (s : State) : Result := .next (s.withScal w)

/-- The command ends with an error (R235): the ONE operation by which every error is reported. There is no trap and no
return from one (R239). -/
def raiseError (e : CmdError) (s : State) : Result := .next (s.withError e)

/-- A value result that may be the NaN of a format without NaN: then NAN_UNREPRESENTABLE (R234, spec/42 R140). -/
def answerOrNoNaN (v : Option Value) (s : State) : Result :=
  match v with
  | some v => answerR v s
  | none => raiseError .nanUnrepresentable s

/-- Operand A of a command that reads it: checked first (R236, spec/30 R75). -/
def withA (s : State) (k : Value → Result) : Result :=
  if (ofBus s.la).WF then k (ofBus s.la) else raiseError .invalidOperandA s

/-- Operands A and B: A is checked before B (R236). -/
def withAB (s : State) (k : Value → Value → Result) : Result :=
  withA s fun a => if (ofBus s.lb).WF then k a (ofBus s.lb) else raiseError .invalidOperandB s

/-- The level an output port shows, as a number; `none` for a result register that holds NONE (spec/10 R25, R29). -/
def State.level (s : State) : OutPort → Option Nat
  | .busy => some s.busy.toNat
  | .valid => some s.valid.toNat
  | .r => s.r.map BitVec.toNat
  | .rawOut => s.rawOut.map BitVec.toNat
  | .fOut => s.fOut.map BitVec.toNat
  | .scal => s.scal.map BitVec.toNat
  | .err => s.err.map BitVec.toNat

/-- The first of these ports whose register holds NONE. -/
def State.firstNone (s : State) : List OutPort → Option OutPort
  | [] => none
  | p :: ps => if s.level p = none then some p else s.firstNone ps

end Sys2Proof.Machine
end

