-- ==== Sys2Proof/Machine/Round.lean ====
section
/-! DEFINITION. The rounding and clamping primitives of the FormatConverter (spec/42_convert.md R140 to R142). -/

namespace Sys2Proof.Machine

/-- The canonical NaN's mantissa in a format with `mb >= 1`: only the top bit (R140, spec/00 R5). -/
def nanMantissa (mb : Nat) : Nat := 2 ^ (mb - 1)

/-- `CanonNaN(F, s)` (R140); `none` stands for `raise NAN_UNREPRESENTABLE(0)`, a format without a NaN. -/
def canonNaN (F : Format) (s : Bool) : Option Value :=
  if F.mb = 0 then none else some { s := s, e := F.eall, m := nanMantissa F.mb, fmt := F }

/-- `Inf(F, s)` (R141). -/
def infOf (F : Format) (s : Bool) : Value := { s := s, e := F.eall, m := 0, fmt := F }

/-- `Zero(F, s)` (R141). -/
def zeroOf (F : Format) (s : Bool) : Value := { s := s, e := 0, m := 0, fmt := F }

/-- `S / 2^k` to the nearest integer, ties to even: `N` of R142 when `k >= 1` bits are shifted out. -/
def shiftRoundEven (S k : Nat) : Nat :=
  let N0 := S / 2 ^ k
  let Rm := S % 2 ^ k
  let H := 2 ^ (k - 1)
  if Rm > H ∨ (Rm = H ∧ N0 % 2 = 1) then N0 + 1 else N0

/-- `N` of R142: the significand in units of `2^q`. -/
def roundSig (S : Nat) (Q q : Int) : Nat :=
  if q ≤ Q then S * 2 ^ (Q - q).toNat else shiftRoundEven S (q - Q).toNat

/-- `q` of R142: the exponent of one unit in the last place of the result. -/
def ulpExp (F : Format) (S : Nat) (Q : Int) : Int := max ((bitlen S : Int) - 1 + Q) F.emin - F.mb

/-- The normal result of R142, or overflow to infinity: `N >= 2^mb`, in units of `2^q`. -/
def packNormal (F : Format) (s : Bool) (N : Nat) (q : Int) : Value :=
  let E := q + F.mb + F.bias
  if E ≥ (F.eall : Int) then infOf F s else { s := s, e := E.toNat, m := N - 2 ^ F.mb, fmt := F }

/-- The rest of R142 after rounding: underflow to zero, the carry out of the significand, normal, subnormal. -/
def packRounded (F : Format) (s : Bool) (N : Nat) (q : Int) : Value :=
  if N = 0 then zeroOf F s
  else if N = 2 ^ (F.mb + 1) then packNormal F s (2 ^ F.mb) (q + 1)
  else if N ≥ 2 ^ F.mb then packNormal F s N q
  else { s := s, e := 0, m := N, fmt := F }

/-- `RoundPack(F, s, S, Q)` (R142): the exact nonzero value `(-1)^s * S * 2^Q` in the format `F`. -/
def roundPack (F : Format) (s : Bool) (S : Nat) (Q : Int) : Value :=
  packRounded F s (roundSig S Q (ulpExp F S Q)) (ulpExp F S Q)

end Sys2Proof.Machine
end

