-- ==== Sys2Proof/Machine/ArithmeticEngine.lean ====
section
/-! DEFINITION. The ArithmeticEngine's commands: NEG, ABS, ADD, SUB, MUL (spec/44_arith.md R190, R192 to R196). -/

namespace Sys2Proof.Machine

/-- `P(a, b) = (max(a.eb, b.eb), max(a.mb, b.mb))` (R190). -/
def promote (a b : Value) : Format := ⟨max a.fmt.eb b.fmt.eb, max a.fmt.mb b.fmt.mb⟩

/-- NEG (R192). -/
def execNeg (s : State) : Result := withA s fun a => answerR a.flipSign s

/-- ABS (R193). -/
def execAbs (s : State) : Result := withA s fun a => answerR a.clearSign s

/-- `Q0` of R194: the smallest `Q` over the nonzero operands. Asked for only when one of them is nonzero. -/
def alignExp (a b : Value) : Int :=
  if a.cls = .zero then b.sf.2
  else if b.cls = .zero then a.sf.2
  else min a.sf.2 b.sf.2

/-- `t(v) / 2^Q0` of R194 for a finite `v`, an integer because `Q0 <= Q` for a nonzero `v`. -/
def alignedSig (Q0 : Int) (v : Value) : Int :=
  if v.cls = .zero then 0
  else (if v.s then -1 else 1) * ((v.sf.1 * 2 ^ (v.sf.2 - Q0).toNat : Nat) : Int)

/-- The last case of R194: the exact sum of two finite operands, not both Zero, rounded once to `P`. -/
def addFinite (a b : Value) : Value :=
  let Q0 := alignExp a b
  let T := alignedSig Q0 a + alignedSig Q0 b
  if T = 0 then zeroOf (promote a b) false
  else roundPack (promote a b) (decide (T < 0)) T.natAbs Q0

/-- The value of ADD (R194), the first matching case; `none` is NAN_UNREPRESENTABLE. -/
def addValue (a b : Value) : Option Value :=
  let P := promote a b
  match a.cls, b.cls with
  | .nan, _ => canonNaN P false
  | _, .nan => canonNaN P false
  | .infinity, .infinity => if a.s = b.s then some (infOf P a.s) else canonNaN P false
  | .infinity, _ => some (infOf P a.s)
  | _, .infinity => some (infOf P b.s)
  | .zero, .zero => some (zeroOf P (a.s && b.s))
  | _, _ => some (addFinite a b)

/-- ADD (R194). -/
def execAdd (s : State) : Result := withAB s fun a b => answerOrNoNaN (addValue a b) s

/-- SUB (R195): ADD of `a` and the sign-flipped `b`. -/
def execSub (s : State) : Result := withAB s fun a b => answerOrNoNaN (addValue a b.flipSign) s

/-- The value of MUL (R196), the first matching case; `none` is NAN_UNREPRESENTABLE. -/
def mulValue (a b : Value) : Option Value :=
  let P := promote a b
  let s := a.s ^^ b.s
  match a.cls, b.cls with
  | .nan, _ => canonNaN P false
  | _, .nan => canonNaN P false
  | .infinity, .zero => canonNaN P false
  | .zero, .infinity => canonNaN P false
  | .infinity, _ => some (infOf P s)
  | _, .infinity => some (infOf P s)
  | .zero, _ => some (zeroOf P s)
  | _, .zero => some (zeroOf P s)
  | _, _ => some (roundPack P s (a.sf.1 * b.sf.1) (a.sf.2 + b.sf.2))

/-- MUL (R196). -/
def execMul (s : State) : Result := withAB s fun a b => answerOrNoNaN (mulValue a b) s

end Sys2Proof.Machine
end

