-- ==== Sys2Proof/Machine/BitFieldCodec.lean ====
section
/-! DEFINITION. The BitFieldCodec's commands: DECODE, ENCODE, GETSIGN, GETEB, GETMB (spec/40_codec.md R102 to R106). -/

namespace Sys2Proof.Machine

/-- DECODE (R102): the widths are checked before the raw pattern. -/
def execDecode (teb tmb : Nat) (s : State) : Result :=
  if ¬ (Format.mk teb tmb).Legal then raiseError .illegalWidths s
  else if s.lraw.toNat ≥ 2 ^ (Format.mk teb tmb).width then raiseError .rawTooWide s
  else answerR (split s.lraw.toNat ⟨teb, tmb⟩) s

/-- ENCODE (R103). -/
def execEncode (s : State) : Result := withA s fun a => answerRawOut (rawWord a) s

/-- GETSIGN (R104). -/
def execGetsign (s : State) : Result := withA s fun a => answerScal (boolScal a.s) s

/-- GETEB (R105). -/
def execGeteb (s : State) : Result := withA s fun a => answerScal (BitVec.ofNat 8 a.fmt.eb) s

/-- GETMB (R106). -/
def execGetmb (s : State) : Result := withA s fun a => answerScal (BitVec.ofNat 8 a.fmt.mb) s

end Sys2Proof.Machine
end

