-- ==== Sys2Proof/Machine/ComparisonEngine.lean ====
section
/-! DEFINITION. The ComparisonEngine's commands: CMPEQ, CMPNE, CMPLT, CMPGT, CMPLE, CMPGE (spec/43_compare.md R170 to
R176). -/

namespace Sys2Proof.Machine

/-- The order of the extended rationals (R170): `-inf < q < +inf` for every rational `q`. -/
def ExtRat.lt : ExtRat → ExtRat → Bool
  | .negInf, .negInf => false
  | .negInf, .fin _ => true
  | .negInf, .posInf => true
  | .fin _, .negInf => false
  | .fin p, .fin q => decide (p < q)
  | .fin _, .posInf => true
  | .posInf, _ => false

/-- A comparison of `X(a)` and `X(b)`; false when either operand is NaN (R170). -/
def compareX (p : ExtRat → ExtRat → Bool) (a b : Value) : Bool :=
  match a.val, b.val with
  | some x, some y => p x y
  | _, _ => false

/-- CMPEQ (R171). -/
def execCmpeq (s : State) : Result :=
  withAB s fun a b => answerScal (boolScal (compareX (fun x y => decide (x = y)) a b)) s

/-- CMPNE (R172): false when either operand is NaN. -/
def execCmpne (s : State) : Result :=
  withAB s fun a b => answerScal (boolScal (compareX (fun x y => decide (x ≠ y)) a b)) s

/-- CMPLT (R173). -/
def execCmplt (s : State) : Result :=
  withAB s fun a b => answerScal (boolScal (compareX (fun x y => x.lt y) a b)) s

/-- CMPGT (R174). -/
def execCmpgt (s : State) : Result :=
  withAB s fun a b => answerScal (boolScal (compareX (fun x y => y.lt x) a b)) s

/-- CMPLE (R175). -/
def execCmple (s : State) : Result :=
  withAB s fun a b => answerScal (boolScal (compareX (fun x y => x.lt y || decide (x = y)) a b)) s

/-- CMPGE (R176). -/
def execCmpge (s : State) : Result :=
  withAB s fun a b => answerScal (boolScal (compareX (fun x y => y.lt x || decide (x = y)) a b)) s

end Sys2Proof.Machine
end

