-- ==== Sys2Proof/Machine/FormatConverter.lean ====
section
/-! DEFINITION. The FormatConverter's commands: FROMF and TOF (spec/42_convert.md R145, R146). -/

namespace Sys2Proof.Machine

/-- The value FROMF makes of `x` in the target format (R145), by the class of `x`; `none` is NAN_UNREPRESENTABLE. -/
def convertTo (F : Format) (x : Value) : Option Value :=
  match x.cls with
  | .nan => canonNaN F x.s
  | .infinity => some (infOf F x.s)
  | .zero => some (zeroOf F x.s)
  | .subnormal | .normal => some (roundPack F x.s x.sf.1 x.sf.2)

/-- FROMF (R145): the widths are checked before anything else. -/
def execFromf (teb tmb : Nat) (s : State) : Result :=
  if ¬ (Format.mk teb tmb).Legal then raiseError .illegalWidths s
  else answerOrNoNaN (convertTo ⟨teb, tmb⟩ (ofBinary64 s.lf)) s

/-- The sign bit of a binary64 pattern, `s * 2^63` (R146). -/
def signBit64 (s : Bool) : Word64 := if s then 0x8000000000000000 else 0

/-- The binary64 pattern TOF writes (R146). -/
def toBinary64 (a : Value) : Word64 :=
  match a.cls with
  | .nan => signBit64 a.s + 0x7FF8000000000000
  | .infinity => signBit64 a.s + 0x7FF0000000000000
  | .zero => signBit64 a.s
  | .subnormal | .normal => rawWord (roundPack F64 a.s a.sf.1 a.sf.2)

/-- TOF (R146). -/
def execTof (s : State) : Result := withA s fun a => answerFOut (toBinary64 a) s

end Sys2Proof.Machine
end

