-- ==== Sys2Proof/Machine/ValueClassifier.lean ====
section
/-! DEFINITION. The ValueClassifier's commands: CLASSIFY, ISNAN, ISINF, ISZERO, SIGNNEG (spec/41_classify.md R124 to
R128). -/

namespace Sys2Proof.Machine

/-- CLASSIFY (R124). -/
def execClassify (s : State) : Result := withA s fun a => answerScal a.cls.code s

/-- ISNAN (R125). -/
def execIsnan (s : State) : Result := withA s fun a => answerScal (boolScal (decide (a.cls = .nan))) s

/-- ISINF (R126). -/
def execIsinf (s : State) : Result := withA s fun a => answerScal (boolScal (decide (a.cls = .infinity))) s

/-- ISZERO (R127). -/
def execIszero (s : State) : Result := withA s fun a => answerScal (boolScal (decide (a.cls = .zero))) s

/-- SIGNNEG (R128): the sign bit alone, for every class. -/
def execSignneg (s : State) : Result := withA s fun a => answerScal (boolScal a.s) s

end Sys2Proof.Machine
end

