-- ==== Sys2Proof/Machine/Dispatch.lean ====
section
/-! DEFINITION. What each command does at COMPLETE: one arm per command (spec/30_encoding.md R80). -/

namespace Sys2Proof.Machine

def exec (i : Instr) (s : State) : Host.Outcome State Fault Refusal :=
  match i with
  | .decode teb tmb => Sys2Proof.Machine.execDecode teb tmb s
  | .encode => Sys2Proof.Machine.execEncode s
  | .classify => Sys2Proof.Machine.execClassify s
  | .isnan => Sys2Proof.Machine.execIsnan s
  | .isinf => Sys2Proof.Machine.execIsinf s
  | .iszero => Sys2Proof.Machine.execIszero s
  | .signneg => Sys2Proof.Machine.execSignneg s
  | .getsign => Sys2Proof.Machine.execGetsign s
  | .geteb => Sys2Proof.Machine.execGeteb s
  | .getmb => Sys2Proof.Machine.execGetmb s
  | .fromf teb tmb => Sys2Proof.Machine.execFromf teb tmb s
  | .tof => Sys2Proof.Machine.execTof s
  | .neg => Sys2Proof.Machine.execNeg s
  | .abs => Sys2Proof.Machine.execAbs s
  | .add => Sys2Proof.Machine.execAdd s
  | .sub => Sys2Proof.Machine.execSub s
  | .mul => Sys2Proof.Machine.execMul s
  | .cmpeq => Sys2Proof.Machine.execCmpeq s
  | .cmpne => Sys2Proof.Machine.execCmpne s
  | .cmplt => Sys2Proof.Machine.execCmplt s
  | .cmpgt => Sys2Proof.Machine.execCmpgt s
  | .cmple => Sys2Proof.Machine.execCmple s
  | .cmpge => Sys2Proof.Machine.execCmpge s

end Sys2Proof.Machine
end

