-- ==== Sys2Proof/Machine/Handshake.lean ====
section
/-! DEFINITION. The transitions of the handshake (spec/70_reset_and_hazards.md R260, R264 to R266) and `Exec`
(spec/60_exceptions.md R236). -/

namespace Sys2Proof.Machine

namespace State

/-- What the host does at the next rising edge. After the end of its list the host is idle (log entry 4). -/
def now (s : State) : HostEdge := s.host.headD HostEdge.idle

/-- The state with that edge of the host taken. -/
def later (s : State) : State := { s with host := s.host.tail }

/-- ISSUE sets every result register to NONE (R264). -/
def clearResults (s : State) : State :=
  { s with r := none, rawOut := none, fOut := none, scal := none, err := none }

/-- RESET (R260): the reset values of spec/10 R32, whatever was in flight (R261). -/
def resetEdge (s : State) : State := { State.reset with host := s.host }

/-- ISSUE (R264): every input is latched in one step, BUSY is set, VALID and the results are cleared, and the latency
of this command starts (R269). -/
def issueEdge (e : HostEdge) (s : State) : State :=
  { s.clearResults with
    busy := true, valid := false
    lcmd := e.cmd, la := e.a, lb := e.b, lraw := e.rawIn, lf := e.fIn
    wait := Config.extraLatency e.cmd e.a e.b e.rawIn e.fIn }

/-- A busy edge that does not end the latency: nothing but the time passes, and a START is ignored (R265, R266). -/
def waitEdge (n : Nat) (s : State) : State := { s with wait := n }

end State

/-- What the next rising edge is. -/
inductive EdgeKind
  | reset
  | complete
  | waiting (n : Nat)
  | issue
  | idle
  deriving DecidableEq, Repr

/-- RESET has priority over everything (R260); BUSY has priority over START, at the COMPLETE edge too (R266). -/
def State.edgeKind (s : State) : EdgeKind :=
  if s.now.reset then .reset
  else if s.busy then
    match s.wait with
    | 0 => .complete
    | n + 1 => .waiting n
  else if s.now.start then .issue
  else .idle

/-- `Exec` (R236): an illegal word is ILLEGAL_CMD and reads no operand (R231); a legal word runs its command. -/
def complete (s : State) : Result :=
  match decode s.lcmd with
  | .ok i => exec i s
  | .error _ => raiseError .illegalCmd s

/-- The state as ISSUE of the command word `w` leaves it when its latency has passed, with the operand latches of `s`
and a host that is idle at the next edge: `step` then completes exactly this command. Log entry 7. -/
def State.inFlight (w : CmdWord) (s : State) : State :=
  { s.clearResults with busy := true, valid := false, lcmd := w, wait := 0, host := HostEdge.idle :: s.host }

end Sys2Proof.Machine
end

