-- ==== Sys2Proof/Machine/Step.lean ====
section
/-! DEFINITION. One step: one rising edge of CLK (spec/70_reset_and_hazards.md). -/

namespace Sys2Proof.Machine

/-- The host reads its ports, and a read of NONE faults (spec/10 R29); then the edge happens (R260, R264 to R266). -/
def step (s : State) : Host.Outcome State Fault Refusal :=
  match s.firstNone s.now.samples with
  | some p => .fault (.readOfNone p)
  | none =>
    match s.edgeKind with
    | .reset => .next s.later.resetEdge
    | .complete => complete s.later
    | .waiting n => .next (s.later.waitEdge n)
    | .issue => .next (s.later.issueEdge s.now)
    | .idle => .next s.later

/-- `s` with the opcode table's word `w` (of `nbits` bits, zeros above) as the command in flight whose COMPLETE is the
next edge. Log entry 7. -/
def State.withFetchWord (s : State) (nbits w : Nat) : State := s.inFlight (BitVec.ofNat 32 (w % 2 ^ nbits))

end Sys2Proof.Machine
end

