-- ==== Sys2Proof/Machine/HostProgram.lean ====
section
/-! DEFINITION. The pieces of the host's program notation (spec/30_encoding.md R84, R85): one line drives the listed
inputs, issues the command, waits for VALID and binds the result. Names and control flow are the host's. -/

namespace Sys2Proof.Machine

/-- The edge at which a line issues its command: START high, RESET low, no port read yet (R84, spec/70 R264). -/
def HostEdge.issuing (e : HostEdge) : HostEdge := { e with samples := [], reset := false, start := true }

/-- One line of a host program: the command word and inputs of `e` are issued and the host idles until COMPLETE, `LAT`
edges later (R84, spec/70 R265). The state that comes out is the one at which VALID is seen. -/
def runLine (e : HostEdge) (s : State) : Result :=
  Host.Core.run Sys2Proof.core (Config.latency e.cmd e.a e.b e.rawIn e.fIn + 1) { s with host := [e.issuing] }

/-- What a line binds its name to: the result register its command writes, or nothing when the command failed (R84,
R86; spec/60 R235). -/
def boundResult (i : Instr) (s : State) : Option Nat :=
  if s.err = some 0 then
    match i.writes with
    | .r => s.level .r
    | .rawOut => s.level .rawOut
    | .fOut => s.level .fOut
    | .scal => s.level .scal
  else none

/-- The pseudo-operation `CVT E<eb>M<mb> A=a` (R85): TOF of `a`, then FROMF of what it wrote on F_OUT. Where TOF fails,
the line ends with its error. Log entry 12. -/
def runCvt (teb tmb : Nat) (a : BusWord) (s : State) : Result :=
  match runLine { HostEdge.idle with cmd := encode .tof, a := a } s with
  | .next t =>
    match t.fOut with
    | some f => runLine { HostEdge.idle with cmd := encode (.fromf teb tmb), fIn := f } t
    | none => .next t
  | .fault p => .fault p
  | .refused p => .refused p

end Sys2Proof.Machine
end

