-- ==== Sys2Proof/Safety.lean ====
section
/-! DEFINITION. The terms claims are stated in: the invariant of the machine, the safe host, and what it means for a
value to be a correctly rounded number (spec/42_convert.md R143). -/

namespace Sys2Proof

open Machine

/-- The error reports of spec/60 R230: the codes with their SCAL information. -/
def errorReports : List (ErrWord × ScalWord) := [(1, 0), (2, 1), (2, 2), (3, 1), (3, 2), (4, 0)]

/-- How many of the four result registers hold a value. -/
def resultsHeld (s : State) : Nat :=
  s.r.isSome.toNat + s.rawOut.isSome.toNat + s.fOut.isSome.toNat + s.scal.isSome.toNat

/-- The invariant of FPCORE, over every state the machine can be in after RESET (spec/10 R26 to R29, spec/60 R230, R235):
a command in flight is not VALID; while VALID is 0 every result register is NONE; while VALID is 1 either ERR is OK
and exactly one result register holds the result, or ERR and SCAL hold one of the error reports and nothing else holds
a value; and R never holds a malformed value, nor SCAL, after OK, a number above 52. -/
structure Inv (s : State) : Prop where
  busyNotValid : s.busy = true → s.valid = false
  invalidEmpty : s.valid = false →
    s.r = none ∧ s.rawOut = none ∧ s.fOut = none ∧ s.scal = none ∧ s.err = none
  validReport : s.valid = true →
    (s.err = some 0 ∧ resultsHeld s = 1 ∧ ∀ x, s.scal = some x → x.toNat ≤ 52) ∨
    (s.r = none ∧ s.rawOut = none ∧ s.fOut = none ∧
      ∃ c x, s.err = some c ∧ s.scal = some x ∧ (c, x) ∈ errorReports)
  valueWF : ∀ w, s.r = some w → (ofBus w).WF ∧ toBus (ofBus w) = w

/-- The host reads only registers that hold a value at the next edge: then the step does not fault (spec/10 R29). -/
def ReadsSafely (s : State) : Prop := ∀ p ∈ s.now.samples, s.level p ≠ none

/-- The set `G(F)` and its negatives (spec/42 R143): the finite values of `F`, and the first value beyond the largest. -/
def InGrid (F : Format) (g : ℚ) : Prop :=
  |g| = 2 ^ ((F.bias : ℤ) + 1) ∨ ∃ v : Value, v.WF ∧ v.fmt = F ∧ v.val = some (.fin g)

/-- `2^q`, the unit in the last place that `x`'s binade fixes in `F` (spec/42 R142, R143). -/
def ulpAt (F : Format) (x : ℚ) : ℚ := 2 ^ (max (Int.log 2 |x|) F.emin - (F.mb : ℤ))

/-- `g` is the element of the grid nearest to `x`, and of two equally near the even multiple of `ulpAt F x` (R143). -/
def NearestEven (F : Format) (x g : ℚ) : Prop :=
  InGrid F g ∧ (∀ g', InGrid F g' → |x - g| ≤ |x - g'|) ∧
    ∀ g', InGrid F g' → g' ≠ g → |x - g'| = |x - g| → ∃ n : ℤ, g = 2 * n * ulpAt F x

/-- `v` is the nonzero `x` rounded to the format `F` (R143): the nearest element of the grid, ties to even; an infinity
of `x`'s sign if that element is the first value beyond the largest finite one; a zero result has the sign of `x`. -/
def RoundsTo (F : Format) (x : ℚ) (v : Value) : Prop :=
  v.WF ∧ v.fmt = F ∧ v.s = decide (x < 0) ∧
    ∃ g, NearestEven F x g ∧
      ((|g| ≠ 2 ^ ((F.bias : ℤ) + 1) ∧ v.val = some (.fin g)) ∨
       (|g| = 2 ^ ((F.bias : ℤ) + 1) ∧ v = infOf F (decide (x < 0))))

/-- The fields of a value bus word, as R74 of spec/30 lays them out. -/
def busEb (w : BusWord) : Nat := (w.extractLsb' 70 4).toNat
def busMb (w : BusWord) : Nat := (w.extractLsb' 64 6).toNat
def busE (w : BusWord) : Nat := (w.extractLsb' 52 11).toNat
def busM (w : BusWord) : Nat := (w.extractLsb' 0 52).toNat

/-- The operand check of R75, field by field. -/
abbrev BusOK (w : BusWord) : Prop :=
  1 ≤ busEb w ∧ busEb w ≤ 11 ∧ busMb w ≤ 52 ∧ busE w < 2 ^ busEb w ∧ busM w < 2 ^ busMb w

/-- The illegal command words of R81, bit by bit. -/
abbrev IllegalWord (w : CmdWord) : Prop :=
  (w.extractLsb' 0 5 = 0 ∨ 0x18 ≤ (w.extractLsb' 0 5).toNat) ∨ w.extractLsb' 15 17 ≠ 0 ∨
    (w.extractLsb' 0 5 ≠ 0x01 ∧ w.extractLsb' 0 5 ≠ 0x0B ∧ w.extractLsb' 5 10 ≠ 0)

/-- The extended rationals as Mathlib orders them: a bottom for minus infinity, a top for plus infinity (spec/43 R170). -/
def ordered : ExtRat → WithBot (WithTop ℚ)
  | .negInf => ⊥
  | .fin q => ((q : WithTop ℚ) : WithBot (WithTop ℚ))
  | .posInf => ((⊤ : WithTop ℚ) : WithBot (WithTop ℚ))

/-- Operand `w` stands for the finite number `q` (spec/41 R122). -/
def IsNum (w : BusWord) (q : ℚ) : Prop := (ofBus w).val = some (.fin q)

/-- What the host finds on SCAL after the command `i` ran on the operands `a` and `b`. -/
def scalAfter (i : Instr) (s : State) (a b : BusWord) : Option ScalWord :=
  match exec i { s with la := a, lb := b } with
  | .next t => t.scal
  | .fault _ | .refused _ => none

/-- What the host finds on R after the command `i` ran on the operands `a` and `b`. -/
def rAfter (i : Instr) (s : State) (a b : BusWord) : Option BusWord :=
  match exec i { s with la := a, lb := b } with
  | .next t => t.r
  | .fault _ | .refused _ => none

/-- The comparator of spec/43 R170, second paragraph, for two finite nonzero operands: the signs first, then the
magnitudes aligned to the smaller exponent. -/
def comparatorLt (a b : Value) : Bool :=
  let Q0 := min a.sf.2 b.sf.2
  let x := a.sf.1 * 2 ^ (a.sf.2 - Q0).toNat
  let y := b.sf.1 * 2 ^ (b.sf.2 - Q0).toNat
  match a.s, b.s with
  | false, false => decide (x < y)
  | false, true => false
  | true, false => true
  | true, true => decide (y < x)

/-- The rounding of a converter that keeps one guard bit, one round bit and a sticky bit (spec/42 R149): `S` shifted right
by `k >= 2`, the guard bit the highest bit shifted out, the round bit the next, the sticky bit the OR of the rest. -/
def guardRoundSticky (S k : Nat) : Nat :=
  let kept := S / 2 ^ k
  let guard := S.testBit (k - 1)
  let round := S.testBit (k - 2)
  let sticky := decide (S % 2 ^ (k - 2) ≠ 0)
  if guard && (round || sticky || kept % 2 == 1) then kept + 1 else kept

end Sys2Proof
end

