-- ==== Sys2Proof/Certificates/Slice0/Obligations.lean ====
section
/-! DEFINITION. The statements for the provers. `spec/NN` in a docstring is the spec file of that number; a statement that
rests on an inference the spec marks as its own ("[derived: ...]"), or on a log entry, says so. -/

open Sys2Proof Sys2Proof.Machine

/-! ### Encoding -/

/-- A few words written out from spec/30 R70, R80 and R84, one of every sub-unit (sanity). -/
def Obligations.SampleWordsDecodeToTheirCommands : Prop :=
  decode 0b00000000000000000_000011_0100_00001 = .ok (.decode 4 3) ∧
  decode 0b00000000000000000_000101_0101_01011 = .ok (.fromf 5 5) ∧
  decode 0b00000000000000000_000000_0000_00011 = .ok .classify ∧
  decode 0b00000000000000000_000000_0000_01111 = .ok .add ∧
  decode 0b00000000000000000_000000_0000_10111 = .ok .cmpge ∧
  decode 0b00000000000000001_000000_0000_01111 = .error .reservedBits ∧
  decode 0b00000000000000000_000000_0000_11000 = .error (.unassignedOpcode 24) ∧
  decode 0b00000000000000000_000000_0100_01101 = .error .targetFieldsNotZero

/-- Decoding the word of a well-formed command gives the command back, target fields included (spec/30 R70, R72, R80). -/
def Obligations.DecodeOfEncodeIsTheCommand : Prop :=
  ∀ i : Instr, i.wellFormed = true → decode (encode i) = .ok i

/-- Where a word is a command it is that command's only word (spec/30 R70, R82). -/
def Obligations.EncodeOfDecodeIsTheWord : Prop :=
  ∀ (w : CmdWord) (i : Instr), decode w = .ok i → i.wellFormed = true ∧ encode i = w

/-- spec/30 R80: DECODE and FROMF match `OP` under the mask 0xFFFF801F with TEB and TMB as operands, and every other
command matches its whole word. -/
def Obligations.OpcodeMapSelectsEachCommand : Prop :=
  (∀ w : CmdWord, w &&& 0xFFFF801F = 0x01 →
    decode w = .ok (.decode (w.extractLsb' 5 4).toNat (w.extractLsb' 9 6).toNat)) ∧
  (∀ w : CmdWord, w &&& 0xFFFF801F = 0x0B →
    decode w = .ok (.fromf (w.extractLsb' 5 4).toNat (w.extractLsb' 9 6).toNat)) ∧
  ∀ p ∈ ([(0x02, .encode), (0x03, .classify), (0x04, .isnan), (0x05, .isinf), (0x06, .iszero), (0x07, .signneg),
      (0x08, .getsign), (0x09, .geteb), (0x0A, .getmb), (0x0C, .tof), (0x0D, .neg), (0x0E, .abs), (0x0F, .add),
      (0x10, .sub), (0x11, .mul), (0x12, .cmpeq), (0x13, .cmpne), (0x14, .cmplt), (0x15, .cmpgt), (0x16, .cmple),
      (0x17, .cmpge)] : List (CmdWord × Instr)),
    ∀ w : CmdWord, w &&& 0xFFFFFFFF = p.1 → decode w = .ok p.2

/-! ### The handshake -/

/-- spec/60 R236 and spec/70 R265: when the next edge is COMPLETE and LCMD decodes to `i`, the step is `exec i`; the host's
edge is taken from its list, and nothing else is added. -/
def Obligations.StepRunsTheLatchedCommand : Prop :=
  ∀ (s : State) (i : Instr), ReadsSafely s → s.now.reset = false → s.busy = true → s.wait = 0 →
    decode s.lcmd = .ok i → step s = exec i { s with host := s.host.tail }

/-- spec/30 R81, spec/60 R231: at COMPLETE an illegal word, in any of the ways R81 lists, raises ILLEGAL_CMD with info 0
whatever the operands hold; every other word runs a command, which never ends with ILLEGAL_CMD. -/
def Obligations.IllegalWordsAndOnlyTheyRaiseIllegalCmd : Prop :=
  ∀ s : State, ReadsSafely s → s.now.reset = false → s.busy = true → s.wait = 0 →
    (IllegalWord s.lcmd → step s = .next { s with
      host := s.host.tail, busy := false, valid := true, err := some 1, scal := some 0 }) ∧
    (¬ IllegalWord s.lcmd → (∃ i, decode s.lcmd = .ok i ∧ step s = exec i { s with host := s.host.tail }) ∧
      ∀ t, step s = .next t → t.err ≠ some 1)

/-- spec/70 R260: at an edge with RESET = 1 the state takes the reset values of spec/10 R32, whatever the other inputs hold
and whatever is in flight. (R32 leaves the latches open, so the statement says nothing of them.) -/
def Obligations.ResetEdgeTakesTheResetValues : Prop :=
  ∀ s : State, ReadsSafely s → s.now.reset = true →
    ∃ t, step s = .next t ∧ t.busy = false ∧ t.valid = false ∧ t.r = none ∧ t.rawOut = none ∧ t.fOut = none ∧
      t.scal = none ∧ t.err = none ∧ t.host = s.host.tail

/-- spec/70 R261: a RESET abandons the command in flight. However long the host then waits without a START (reading BUSY
and VALID as it likes), the command never completes and no result is ever visible. -/
def Obligations.ResetAbandonsTheCommandInFlight : Prop :=
  ∀ (s : State) (e : HostEdge) (es : List HostEdge), s.busy = true → s.host = e :: es → e.reset = true → e.samples = [] →
    (∀ x ∈ es, x.start = false ∧ ∀ p ∈ x.samples, p = .busy ∨ p = .valid) →
    ∃ t, Host.Core.run core (es.length + 1) s = .next t ∧ t.busy = false ∧ t.valid = false ∧
      t.r = none ∧ t.rawOut = none ∧ t.fOut = none ∧ t.scal = none ∧ t.err = none

/-- spec/70 R264: ISSUE latches every input, sets BUSY, clears VALID and sets every result register to NONE, whatever the
command word. `n`, the edges to wait, is a free value (log entry 2). -/
def Obligations.IssueLatchesEveryInput : Prop :=
  ∀ s : State, ReadsSafely s → s.now.reset = false → s.now.start = true → s.busy = false →
    ∃ n, step s = .next
      { busy := true, valid := false, lcmd := s.now.cmd, la := s.now.a, lb := s.now.b, lraw := s.now.rawIn,
        lf := s.now.fIn, r := none, rawOut := none, fOut := none, scal := none, err := none,
        wait := n, host := s.host.tail }

/-- spec/70 R266: while BUSY, what stands on START and on the data ports has no effect at all; an edge before COMPLETE
changes nothing but the time left; and at the COMPLETE edge the command completes and no START is accepted. -/
def Obligations.StartWhileBusyDoesNothing : Prop :=
  ∀ s : State, ReadsSafely s → s.now.reset = false → s.busy = true →
    (∀ e : HostEdge, e.reset = false → e.samples = s.now.samples → step { s with host := e :: s.host.tail } = step s) ∧
    (∀ n, s.wait = n + 1 → step s = .next { s with wait := n, host := s.host.tail }) ∧
    (s.wait = 0 → ∃ t, step s = .next t ∧ t.busy = false ∧ t.lcmd = s.lcmd ∧ t.la = s.la ∧ t.lb = s.lb ∧
      t.lraw = s.lraw ∧ t.lf = s.lf)

/-- spec/60 R247, spec/70 R265: with no command in flight, and as long as the host neither resets nor issues, every
register holds its value, for any number of edges and whatever else the host drives. -/
def Obligations.ResultsAreHeldUntilIssueOrReset : Prop :=
  ∀ (s : State) (es rest : List HostEdge), s.busy = false →
    (∀ x ∈ es, x.reset = false ∧ x.start = false ∧ ∀ p ∈ x.samples, s.level p ≠ none) →
    Host.Core.run core es.length { s with host := es ++ rest } = .next { s with host := rest }

/-- spec/10 R29, spec/70 R267: the step faults exactly when the host reads a result register that holds NONE, and then it
names such a port; otherwise it goes on. It never refuses. -/
def Obligations.OnlyAReadOfNoneFaults : Prop :=
  ∀ s : State,
    ((∃ p ∈ s.now.samples, s.level p = none) →
      ∃ p ∈ s.now.samples, s.level p = none ∧ step s = .fault (.readOfNone p)) ∧
    (ReadsSafely s → ∃ t, step s = .next t)

/-- spec/70 R267: in a state that meets the invariant, a read of a result register or of ERR faults while VALID is 0; and
after a command has completed, so does a read of a result register that it did not write: with OK of any but the one it
names (spec/30 R86), with an error of any but ERR and SCAL (spec/60 R235). The fault names a port that was read and holds
NONE. -/
def Obligations.ReadHazardsFault : Prop :=
  let stops (s : State) : Prop := ∃ q ∈ s.now.samples, s.level q = none ∧ step s = .fault (.readOfNone q)
  (∀ s : State, Inv s → s.valid = false → ∀ p ∈ s.now.samples, p ≠ .busy → p ≠ .valid → stops s) ∧
  (∀ (s t : State) (i : Instr), Inv s → s.busy = true → exec i s = .next t →
    (.r ∈ t.now.samples → i.writes ≠ .r ∨ t.err ≠ some 0 → stops t) ∧
    (.rawOut ∈ t.now.samples → i.writes ≠ .rawOut ∨ t.err ≠ some 0 → stops t) ∧
    (.fOut ∈ t.now.samples → i.writes ≠ .fOut ∨ t.err ≠ some 0 → stops t) ∧
    (.scal ∈ t.now.samples → i.writes ≠ .scal → t.err = some 0 → stops t))

/-- spec/10 R32: the state after RESET, and it meets the invariant. (The latches, which R32 leaves open, are not named.) -/
def Obligations.ResetStateMeetsTheInvariant : Prop :=
  Inv State.reset ∧ State.reset.busy = false ∧ State.reset.valid = false ∧ State.reset.r = none ∧
    State.reset.rawOut = none ∧ State.reset.fOut = none ∧ State.reset.scal = none ∧ State.reset.err = none

/-- The invariant is kept by every step, from every state that meets it (spec/10 R26 to R29, spec/60 R230, R235). -/
def Obligations.EveryStepKeepsTheInvariant : Prop :=
  ∀ s t : State, Inv s → step s = .next t → Inv t

/-- spec/70 R265, R266, R268, R269: a command accepted at an idle edge completes exactly `LAT` edges later with the outcome
of `Exec` on the words latched at ISSUE, whatever START and data the host drives meanwhile. (That `LAT` is a function of
the latched words is log entry 2.) -/
def Obligations.EveryAcceptedCommandCompletesWithExec : Prop :=
  ∀ (s : State) (e : HostEdge) (es rest : List HostEdge), s.busy = false → s.host = e :: (es ++ rest) →
    e.reset = false → e.start = true → ReadsSafely s →
    es.length = Config.latency e.cmd e.a e.b e.rawIn e.fIn →
    (∀ x ∈ es, x.reset = false ∧ ∀ p ∈ x.samples, p = .busy ∨ p = .valid) →
    ∃ t, Host.Core.run core (es.length + 1) s = .next t ∧
      complete
        { busy := true, valid := false, lcmd := e.cmd, la := e.a, lb := e.b, lraw := e.rawIn, lf := e.fIn,
          r := none, rawOut := none, fOut := none, scal := none, err := none, wait := 0, host := rest } = .next t ∧
      t.busy = false ∧ t.valid = true ∧ t.err ≠ none

/-! ### What a command depends on and what it leaves alone -/

/-- spec/10 R31, R33: the outcome of a command depends on the latches alone: two machines with the same latches, both in
flight, complete with the same results, whatever went before. -/
def Obligations.OutcomeDependsOnTheLatchesOnly : Prop :=
  ∀ (s s' t t' : State), Inv s → Inv s' → s.busy = true → s'.busy = true →
    s'.lcmd = s.lcmd → s'.la = s.la → s'.lb = s.lb → s'.lraw = s.lraw → s'.lf = s.lf →
    complete s = .next t → complete s' = .next t' →
    t'.r = t.r ∧ t'.rawOut = t.rawOut ∧ t'.fOut = t.fOut ∧ t'.scal = t.scal ∧ t'.err = t.err ∧
      t'.busy = t.busy ∧ t'.valid = t.valid

/-- spec/10 R28: outside a command in flight the content of the latches (and the time field, log entry 3) is never read:
other contents give the same step, and the same state once a command is issued. -/
def Obligations.IdleLatchesAreNeverRead : Prop :=
  ∀ (s : State) (c : CmdWord) (a b : BusWord) (x f : Word64) (n : Nat), s.busy = false →
    let s' : State := { s with lcmd := c, la := a, lb := b, lraw := x, lf := f, wait := n }
    (∀ p, step s = .fault p ↔ step s' = .fault p) ∧
    ∀ t, step s = .next t → ∃ t', step s' = .next t' ∧
      t'.busy = t.busy ∧ t'.valid = t.valid ∧ t'.r = t.r ∧ t'.rawOut = t.rawOut ∧ t'.fOut = t.fOut ∧
      t'.scal = t.scal ∧ t'.err = t.err ∧ t'.host = t.host ∧ (t.busy = true → t' = t)

/-- spec/30 R86: the table of what each command reads (A, B, RAW_IN, F_IN) and writes; a command neither checks nor reads
an input it does not list: other bits there change nothing; on success it writes the register it lists and no other; and
ERR is written by every command. -/
def Obligations.CommandsUseWhatTheyListOnly : Prop :=
  (∀ teb tmb : Nat, ∀ p ∈ ([(.decode teb tmb, (false, false, true, false), .r),
      (.encode, (true, false, false, false), .rawOut), (.classify, (true, false, false, false), .scal),
      (.isnan, (true, false, false, false), .scal), (.isinf, (true, false, false, false), .scal),
      (.iszero, (true, false, false, false), .scal), (.signneg, (true, false, false, false), .scal),
      (.getsign, (true, false, false, false), .scal), (.geteb, (true, false, false, false), .scal),
      (.getmb, (true, false, false, false), .scal), (.fromf teb tmb, (false, false, false, true), .r),
      (.tof, (true, false, false, false), .fOut), (.neg, (true, false, false, false), .r),
      (.abs, (true, false, false, false), .r), (.add, (true, true, false, false), .r),
      (.sub, (true, true, false, false), .r), (.mul, (true, true, false, false), .r),
      (.cmpeq, (true, true, false, false), .scal), (.cmpne, (true, true, false, false), .scal),
      (.cmplt, (true, true, false, false), .scal), (.cmpgt, (true, true, false, false), .scal),
      (.cmple, (true, true, false, false), .scal), (.cmpge, (true, true, false, false), .scal)] :
      List (Instr × (Bool × Bool × Bool × Bool) × ResultReg)),
    (p.1.readsA, p.1.readsB, p.1.readsRaw, p.1.readsF) = p.2.1 ∧ p.1.writes = p.2.2) ∧
  (∀ (i : Instr) (s t : State) (a b : BusWord) (x f : Word64), exec i s = .next t →
    (i.readsA = true → a = s.la) → (i.readsB = true → b = s.lb) → (i.readsRaw = true → x = s.lraw) →
    (i.readsF = true → f = s.lf) →
    exec i { s with la := a, lb := b, lraw := x, lf := f } = .next { t with la := a, lb := b, lraw := x, lf := f }) ∧
  (∀ (i : Instr) (s : State), ∃ t, exec i s = .next t ∧ t.err ≠ none ∧ (t.err = some 0 →
    (if i.writes = .r then t.r ≠ none else t.r = s.r) ∧
    (if i.writes = .rawOut then t.rawOut ≠ none else t.rawOut = s.rawOut) ∧
    (if i.writes = .fOut then t.fOut ≠ none else t.fOut = s.fOut) ∧
    (if i.writes = .scal then t.scal ≠ none else t.scal = s.scal)))

/-- The frame of every command (spec/10 R29, spec/60 R235, spec/70 R265): the latches, the time and the host stand as
before, the handshake is that of a completion, no result register but the listed one changes, and a command that reports
an error changes none of R, RAW_OUT and F_OUT. FPCORE has no other state. -/
def Obligations.CommandFrame : Prop :=
  ∀ (i : Instr) (s t : State), exec i s = .next t →
    t.lcmd = s.lcmd ∧ t.la = s.la ∧ t.lb = s.lb ∧ t.lraw = s.lraw ∧ t.lf = s.lf ∧ t.wait = s.wait ∧ t.host = s.host ∧
    t.busy = false ∧ t.valid = true ∧
    (i.writes ≠ .r → t.r = s.r) ∧ (i.writes ≠ .rawOut → t.rawOut = s.rawOut) ∧ (i.writes ≠ .fOut → t.fOut = s.fOut) ∧
    (i.writes ≠ .scal → t.err = some 0 → t.scal = s.scal) ∧
    (t.err ≠ some 0 → t.r = s.r ∧ t.rawOut = s.rawOut ∧ t.fOut = s.fOut ∧
      ∃ c x, t.err = some c ∧ t.scal = some x ∧ (c, x) ∈ errorReports)

/-! ### Errors -/

/-- spec/60 R232: a command that reads A raises INVALID_OPERAND, info 1, when the latched word fails the check of spec/30
R75, whatever B holds; one that reads B raises it with info 2 when A is good and B fails the check; no result is written. -/
def Obligations.MalformedOperandsRaiseInvalidOperand : Prop :=
  ∀ (i : Instr) (s : State),
    (i.readsA = true → ¬ BusOK s.la →
      exec i s = .next { s with busy := false, valid := true, err := some 2, scal := some 1 }) ∧
    (i.readsB = true → BusOK s.la → ¬ BusOK s.lb →
      exec i s = .next { s with busy := false, valid := true, err := some 2, scal := some 2 })

/-- spec/60 R233: DECODE and FROMF raise FORMAT_ERROR with info 1 when the target widths are illegal (TEB = 0, TEB > 11 or
TMB > 52), and DECODE with info 2 when the widths are legal and RAW_IN has a bit set at or above `W(F_t)`. -/
def Obligations.BadFormatsRaiseFormatError : Prop :=
  ∀ (s : State) (teb tmb : Nat),
    ((teb = 0 ∨ teb > 11 ∨ tmb > 52) →
      exec (.decode teb tmb) s = .next { s with busy := false, valid := true, err := some 3, scal := some 1 } ∧
      exec (.fromf teb tmb) s = .next { s with busy := false, valid := true, err := some 3, scal := some 1 }) ∧
    (1 ≤ teb → teb ≤ 11 → tmb ≤ 52 → (∃ k, 1 + teb + tmb ≤ k ∧ s.lraw.getLsbD k = true) →
      exec (.decode teb tmb) s = .next { s with busy := false, valid := true, err := some 3, scal := some 2 })

/-- spec/60 R234: NAN_UNREPRESENTABLE (info 0) is raised by FROMF of a NaN with TMB = 0 (and a legal format), by ADD of two
infinities of opposite sign, by SUB of two of the same sign, and by MUL of an infinity and a zero, when both operands have
`mb = 0`; and ADD, SUB and MUL of well-formed operands raise an error in no other case. -/
def Obligations.NaNWithoutMantissaIsUnrepresentable : Prop :=
  ∀ s : State,
    (∀ teb, 1 ≤ teb → teb ≤ 11 → s.lf.extractLsb' 52 11 = 0x7FF → s.lf.extractLsb' 0 52 ≠ 0 →
      exec (.fromf teb 0) s = .next { s with busy := false, valid := true, err := some 4, scal := some 0 }) ∧
    (BusOK s.la → BusOK s.lb →
      let a := ofBus s.la
      let b := ofBus s.lb
      let opp : Prop := a.cls = .infinity ∧ b.cls = .infinity ∧ a.s ≠ b.s
      let same : Prop := a.cls = .infinity ∧ b.cls = .infinity ∧ a.s = b.s
      let infZero : Prop := (a.cls = .infinity ∧ b.cls = .zero) ∨ (a.cls = .zero ∧ b.cls = .infinity)
      let noNaN : Prop := busMb s.la = 0 ∧ busMb s.lb = 0
      let err4 : State := { s with busy := false, valid := true, err := some 4, scal := some 0 }
      (opp ∧ noNaN → exec .add s = .next err4) ∧ (¬ (opp ∧ noNaN) → ∃ t, exec .add s = .next t ∧ t.err = some 0) ∧
      (same ∧ noNaN → exec .sub s = .next err4) ∧ (¬ (same ∧ noNaN) → ∃ t, exec .sub s = .next t ∧ t.err = some 0) ∧
      (infZero ∧ noNaN → exec .mul s = .next err4) ∧
      (¬ (infZero ∧ noNaN) → ∃ t, exec .mul s = .next t ∧ t.err = some 0))

/-- spec/60 R238, "[derived: from 40_codec.md to 44_arith.md]": on well-formed operands every command but DECODE, FROMF,
ADD, SUB and MUL completes with OK. -/
def Obligations.CommandsAreTotalOnGoodOperands : Prop :=
  ∀ (i : Instr) (s : State), i.readsA = true → i ≠ .add → i ≠ .sub → i ≠ .mul → BusOK s.la →
    (i.readsB = true → BusOK s.lb) → ∃ t, exec i s = .next t ∧ t.err = some 0 ∧ t.valid = true

/-! ### BitFieldCodec -/

/-- spec/40 R102 (and R100): DECODE, its words and every outcome: FORMAT_ERROR(1) for illegal widths, FORMAT_ERROR(2) for
a pattern that is too wide for legal ones, else on R the value whose sign is the top bit, whose exponent is the next TEB
bits and whose mantissa is the low TMB bits, with no canonicalisation. -/
def Obligations.DecodeSplitsTheRawPattern : Prop :=
  (∀ teb tmb : Nat, teb < 16 → tmb < 64 → decode (BitVec.ofNat 32 (0x01 + 32 * teb + 512 * tmb)) = .ok (.decode teb tmb)) ∧
  ∀ (s : State) (teb tmb : Nat),
    (¬ (1 ≤ teb ∧ teb ≤ 11 ∧ tmb ≤ 52) →
      exec (.decode teb tmb) s = .next { s with busy := false, valid := true, err := some 3, scal := some 1 }) ∧
    (1 ≤ teb → teb ≤ 11 → tmb ≤ 52 → s.lraw.toNat ≥ 2 ^ (1 + teb + tmb) →
      exec (.decode teb tmb) s = .next { s with busy := false, valid := true, err := some 3, scal := some 2 }) ∧
    (1 ≤ teb → teb ≤ 11 → tmb ≤ 52 → s.lraw.toNat < 2 ^ (1 + teb + tmb) →
      exec (.decode teb tmb) s = .next { s with
        busy := false, valid := true, err := some 0
        r := some (BitVec.ofNat 4 teb ++ BitVec.ofNat 6 tmb ++ BitVec.ofBool (s.lraw.getLsbD (teb + tmb)) ++
          BitVec.ofNat 11 (s.lraw.toNat / 2 ^ tmb % 2 ^ teb) ++ BitVec.ofNat 52 (s.lraw.toNat % 2 ^ tmb)) })

/-- spec/40 R103, R101: ENCODE (word 0x00000002) writes `s * 2^(eb+mb) + E * 2^mb + M`, zero-extended, on RAW_OUT. -/
def Obligations.EncodePacksTheFields : Prop :=
  decode 0x00000002 = .ok .encode ∧ ∀ s : State, BusOK s.la →
    exec .encode s = .next { s with
      busy := false, valid := true, err := some 0
      rawOut := some (BitVec.ofNat 64
        ((s.la.getLsbD 63).toNat * 2 ^ (busEb s.la + busMb s.la) + busE s.la * 2 ^ busMb s.la + busM s.la)) } ∧
    (s.la.getLsbD 63).toNat * 2 ^ (busEb s.la + busMb s.la) + busE s.la * 2 ^ busMb s.la + busM s.la <
      2 ^ (1 + busEb s.la + busMb s.la)

/-- spec/40 R104 to R106: the three accessors (words 0x08 to 0x0A) give the sign bit, `eb` (1 to 11) and `mb` (0 to 52), zero-extended. -/
def Obligations.AccessorsReadTheFields : Prop :=
  (decode 0x00000008 = .ok .getsign ∧ decode 0x00000009 = .ok .geteb ∧ decode 0x0000000A = .ok .getmb) ∧
  ∀ s : State, BusOK s.la →
    exec .getsign s = .next { s with
      busy := false, valid := true, err := some 0, scal := some ((s.la.extractLsb' 63 1).setWidth 8) } ∧
    exec .geteb s = .next { s with
      busy := false, valid := true, err := some 0, scal := some ((s.la.extractLsb' 70 4).setWidth 8) } ∧
    exec .getmb s = .next { s with
      busy := false, valid := true, err := some 0, scal := some ((s.la.extractLsb' 64 6).setWidth 8) }

/-- spec/40 R107, "[derived: from rules R100, R101, R102 and R103]": DECODE of what ENCODE wrote gives the operand back bit
for bit, and ENCODE of what DECODE wrote gives the raw pattern back. -/
def Obligations.CodecRoundTrip : Prop :=
  (∀ s t : State, BusOK s.la → exec .encode s = .next t → ∃ w, t.rawOut = some w ∧
    ∃ u, exec (.decode (busEb s.la) (busMb s.la)) { s with lraw := w } = .next u ∧ u.r = some s.la ∧ u.err = some 0) ∧
  (∀ (s t : State) (teb tmb : Nat), exec (.decode teb tmb) s = .next t → t.err = some 0 → ∃ w, t.r = some w ∧
    ∃ u, exec .encode { s with la := w } = .next u ∧ u.rawOut = some s.lraw ∧ u.err = some 0)

/-- spec/30 R76, "[derived: from rules R74, R77 and R78]": at E11M52 the raw pattern, the low 64 bits of the bus word and,
for a value that is no NaN, the binary64 pattern are the same word. -/
def Obligations.WidestFormatIsBinary64 : Prop :=
  ∀ s : State, BusOK s.la → busEb s.la = 11 → busMb s.la = 52 →
    (∃ t, exec .encode s = .next t ∧ t.rawOut = some (s.la.extractLsb' 0 64)) ∧
    ((ofBus s.la).cls ≠ .nan → ∃ t, exec .tof s = .next t ∧ t.fOut = some (s.la.extractLsb' 0 64))

/-! ### ValueClassifier -/

/-- spec/41 R120, R121, R124: CLASSIFY (word 0x00000003) writes the code of the row of R120 that the fields of A meet. -/
def Obligations.ClassifyFollowsTheClassTable : Prop :=
  decode 0x00000003 = .ok .classify ∧ ∀ s : State, BusOK s.la →
    let E := busE s.la
    let M := busM s.la
    let all := 2 ^ busEb s.la - 1
    let ends (c : ScalWord) : Prop :=
      exec .classify s = .next { s with busy := false, valid := true, err := some 0, scal := some c }
    (E = 0 → M = 0 → ends 0) ∧ (E = 0 → M ≠ 0 → ends 1) ∧ (1 ≤ E → E ≤ all - 1 → ends 2) ∧
      (E = all → M = 0 → ends 3) ∧ (E = all → M ≠ 0 → ends 4)

/-- spec/41 R125 to R128 (words 0x04 to 0x07): the predicates of the class, for both signs, and the sign bit alone. -/
def Obligations.PredicatesFollowTheFields : Prop :=
  (decode 0x00000004 = .ok .isnan ∧ decode 0x00000005 = .ok .isinf ∧ decode 0x00000006 = .ok .iszero ∧
    decode 0x00000007 = .ok .signneg) ∧
  ∀ s : State, BusOK s.la →
    let E := busE s.la
    let M := busM s.la
    let all := 2 ^ busEb s.la - 1
    let ends (i : Instr) (c : ScalWord) : Prop :=
      exec i s = .next { s with busy := false, valid := true, err := some 0, scal := some c }
    ((E = all ∧ M ≠ 0 → ends .isnan 1) ∧ (¬ (E = all ∧ M ≠ 0) → ends .isnan 0)) ∧
    ((E = all ∧ M = 0 → ends .isinf 1) ∧ (¬ (E = all ∧ M = 0) → ends .isinf 0)) ∧
    ((E = 0 ∧ M = 0 → ends .iszero 1) ∧ (¬ (E = 0 ∧ M = 0) → ends .iszero 0)) ∧
    ((s.la.getLsbD 63 = true → ends .signneg 1) ∧ (s.la.getLsbD 63 = false → ends .signneg 0))

/-- spec/41 R129, "[derived: from rules R120 and R122]": what no format of one exponent bit or of no mantissa holds. -/
def Obligations.NarrowFormatsLackClasses : Prop :=
  ∀ s t : State, BusOK s.la → exec .classify s = .next t →
    (busEb s.la = 1 → t.scal ≠ some 2) ∧ (busMb s.la = 0 → t.scal ≠ some 1 ∧ t.scal ≠ some 4)

/-- spec/41 R129, "[derived: from rules R120 and R122]": every finite nonzero value of a format lies between its smallest
positive and its largest finite value, and both are values of the format. -/
def Obligations.FiniteValuesLieInTheRange : Prop :=
  (∀ (v : Value) (q : ℚ), v.WF → v.val = some (.fin q) → q ≠ 0 →
    (2 : ℚ) ^ (1 - (v.fmt.bias : ℤ) - v.fmt.mb) ≤ |q| ∧
    (2 ≤ v.fmt.eb → |q| ≤ (2 - 2 ^ (-(v.fmt.mb : ℤ))) * 2 ^ v.fmt.bias) ∧
    (v.fmt.eb = 1 → |q| ≤ (1 - 2 ^ (-(v.fmt.mb : ℤ))) * 2)) ∧
  (∀ F : Format, F.Legal →
    (2 ≤ F.eb ∨ 1 ≤ F.mb → ∃ v : Value, v.WF ∧ v.fmt = F ∧
      v.val = some (.fin (2 ^ (1 - (F.bias : ℤ) - F.mb)))) ∧
    (2 ≤ F.eb → ∃ v : Value, v.WF ∧ v.fmt = F ∧
      v.val = some (.fin ((2 - 2 ^ (-(F.mb : ℤ))) * 2 ^ F.bias))) ∧
    (F.eb = 1 → 1 ≤ F.mb → ∃ v : Value, v.WF ∧ v.fmt = F ∧
      v.val = some (.fin ((1 - 2 ^ (-(F.mb : ℤ))) * 2))))

/-! ### FormatConverter -/

/-- spec/42 R143, "[derived: from rule R142]": RoundPack gives the nearest value of the format, ties to even, with overflow
to infinity and a zero of the sign of the number rounded. -/
def Obligations.RoundPackRoundsToNearestEven : Prop :=
  ∀ (F : Format) (s : Bool) (S : Nat) (Q : ℤ), F.Legal → 0 < S →
    RoundsTo F ((if s then -1 else 1) * (S * 2 ^ Q)) (roundPack F s S Q)

/-- What R143 asks for determines the value: no two values of a format are the same number correctly rounded (so the
statements that use `RoundsTo` name one result). -/
def Obligations.RoundedValueIsUnique : Prop :=
  ∀ (F : Format) (x : ℚ) (u v : Value), x ≠ 0 → RoundsTo F x u → RoundsTo F x v → u = v

/-- The thresholds of spec/42 R142 (and spec/90 C1, C2): underflow to zero exactly at and below half the smallest subnormal,
overflow exactly from half a unit above the largest finite value on. -/
def Obligations.UnderflowAndOverflowThresholds : Prop :=
  ∀ (F : Format) (s : Bool) (S : Nat) (Q : ℤ), F.Legal → 0 < S →
    (roundPack F s S Q = zeroOf F s ↔ (S : ℚ) * 2 ^ Q ≤ 2 ^ (F.emin - F.mb - 1)) ∧
    (2 ≤ F.eb → (roundPack F s S Q = infOf F s ↔ (2 - 2 ^ (-(F.mb : ℤ) - 1)) * 2 ^ F.bias ≤ (S : ℚ) * 2 ^ Q))

/-- spec/42 R144, "[derived: from rules R142 and 41_classify.md rule R123]": rounding a value into a format at least as wide
is exact. -/
def Obligations.WiderFormatsEmbedExactly : Prop :=
  ∀ (v : Value) (G : Format), v.WF → (v.cls = .subnormal ∨ v.cls = .normal) → G.Legal →
    v.fmt.eb ≤ G.eb → v.fmt.mb ≤ G.mb → (roundPack G v.s v.sf.1 v.sf.2).val = v.val

/-- spec/42 R149, "[derived: from rule R142]": a converter that keeps a guard, a round and a sticky bit rounds alike. -/
def Obligations.GuardRoundStickyRoundsAlike : Prop :=
  ∀ S k : Nat, 2 ≤ k → guardRoundSticky S k = shiftRoundEven S k

/-- spec/42 R145, R140, R141 on the inputs that need no rounding: FROMF of a NaN gives the canonical NaN with the input's
sign, of an infinity the infinity and of a zero the zero of that sign. -/
def Obligations.FromfOfSpecialInputs : Prop :=
  ∀ (s : State) (teb tmb : Nat), 1 ≤ teb → teb ≤ 11 → tmb ≤ 52 →
    let E := s.lf.extractLsb' 52 11
    let M := s.lf.extractLsb' 0 52
    let ends (e m : Nat) : Prop := exec (.fromf teb tmb) s = .next { s with
      busy := false, valid := true, err := some 0
      r := some (BitVec.ofNat 4 teb ++ BitVec.ofNat 6 tmb ++ s.lf.extractLsb' 63 1 ++ BitVec.ofNat 11 e ++
        BitVec.ofNat 52 m) }
    (E = 0x7FF → M ≠ 0 → 1 ≤ tmb → ends (2 ^ teb - 1) (2 ^ (tmb - 1))) ∧
    (E = 0x7FF → M = 0 → ends (2 ^ teb - 1) 0) ∧
    (E = 0 → M = 0 → ends 0 0)

/-- spec/42 R145 on every other input (R143 says what RoundPack's result is): FROMF of a finite nonzero binary64 number,
normal or subnormal, gives that number correctly rounded to the target format, and never an error. -/
def Obligations.FromfRoundsFiniteInputs : Prop :=
  ∀ (s : State) (teb tmb : Nat) (x : ℚ), 1 ≤ teb → teb ≤ 11 → tmb ≤ 52 →
    (ofBinary64 s.lf).val = some (.fin x) → x ≠ 0 →
    ∃ v, RoundsTo ⟨teb, tmb⟩ x v ∧
      exec (.fromf teb tmb) s = .next { s with busy := false, valid := true, err := some 0, r := some (toBus v) }

/-- spec/42 R146 on the values that map directly: TOF of a NaN, an infinity and a zero, with the sign of A. -/
def Obligations.TofOfSpecialValues : Prop :=
  ∀ s : State, BusOK s.la →
    let E := busE s.la
    let M := busM s.la
    let all := 2 ^ busEb s.la - 1
    let ends (w : BitVec 63) : Prop := exec .tof s = .next { s with
      busy := false, valid := true, err := some 0, fOut := some (s.la.extractLsb' 63 1 ++ w) }
    (E = all → M ≠ 0 → ends 0x7FF8000000000000) ∧ (E = all → M = 0 → ends 0x7FF0000000000000) ∧
      (E = 0 → M = 0 → ends 0)

/-- spec/42 R147, "[derived: from rules R142, R144 and 00_scope.md rule R5]": TOF of a finite value is exact, the sign of a
zero included, and never fails. -/
def Obligations.TofIsExactOnFiniteValues : Prop :=
  ∀ (s : State) (q : ℚ), BusOK s.la → IsNum s.la q →
    ∃ w, exec .tof s = .next { s with busy := false, valid := true, err := some 0, fOut := some w } ∧
      (ofBinary64 w).val = some (.fin q) ∧ (ofBinary64 w).s = s.la.getLsbD 63

/-- spec/42 R148, first law, "[derived: ...]": for a binary64 number that the target format holds exactly, or an infinity
or a zero, TOF of FROMF gives it back bit for bit; for a NaN it gives the quiet NaN of that sign (TMB >= 1). -/
def Obligations.TofOfFromfGivesTheInputBack : Prop :=
  ∀ (s : State) (teb tmb : Nat), 1 ≤ teb → teb ≤ 11 → tmb ≤ 52 →
    ((∃ u : Value, u.WF ∧ u.fmt = ⟨teb, tmb⟩ ∧ u.val ≠ none ∧ u.val = (ofBinary64 s.lf).val) →
      ∃ t w, exec (.fromf teb tmb) s = .next t ∧ t.r = some w ∧
        ∃ u, exec .tof { s with la := w } = .next u ∧ u.fOut = some s.lf) ∧
    ((ofBinary64 s.lf).cls = .nan → 1 ≤ tmb →
      ∃ t w, exec (.fromf teb tmb) s = .next t ∧ t.r = some w ∧
        ∃ u, exec .tof { s with la := w } = .next u ∧
          u.fOut = some (s.lf.extractLsb' 63 1 ++ (0x7FF8000000000000 : BitVec 63)))

/-- spec/42 R148, second law, "[derived: ...]": FROMF, to the format of A, of TOF of A gives A back bit for bit when A is no
NaN, and the canonical NaN with A's sign when it is. -/
def Obligations.FromfOfTofGivesTheOperandBack : Prop :=
  ∀ s : State, BusOK s.la →
    ∃ t w, exec .tof s = .next t ∧ t.fOut = some w ∧
      ∃ u, exec (.fromf (busEb s.la) (busMb s.la)) { s with lf := w } = .next u ∧
        ((ofBus s.la).cls ≠ .nan → u.r = some s.la) ∧
        ((ofBus s.la).cls = .nan → u.r = some (BitVec.ofNat 4 (busEb s.la) ++ BitVec.ofNat 6 (busMb s.la) ++
          s.la.extractLsb' 63 1 ++ BitVec.ofNat 11 (2 ^ busEb s.la - 1) ++ BitVec.ofNat 52 (2 ^ (busMb s.la - 1))))

/-- spec/30 R85, "[derived: from 42_convert.md rules R145, R146 and R147]": the pseudo-operation CVT, from any idle state,
is the correctly rounded conversion of a finite nonzero value into a legal target format. -/
def Obligations.CvtRoundsOnce : Prop :=
  ∀ (s : State) (w : BusWord) (teb tmb : Nat) (q : ℚ), s.busy = false → BusOK w → IsNum w q → q ≠ 0 →
    1 ≤ teb → teb ≤ 11 → tmb ≤ 52 →
    ∃ t v, runCvt teb tmb w s = .next t ∧ RoundsTo ⟨teb, tmb⟩ q v ∧ t.r = some (toBus v) ∧ t.err = some 0 ∧
      t.busy = false ∧ t.valid = true

/-! ### ComparisonEngine -/

/-- spec/43 R171 to R176 (words 0x12 to 0x17; R170's order): on well-formed operands each comparison writes 0x01 when the real values, zeros of either sign
being 0 and infinities above and below every number, compare so, and 0x00 otherwise; with a NaN operand all six, CMPNE
among them, write 0x00. -/
def Obligations.ComparisonsCompareRealValues : Prop :=
  (decode 0x00000012 = .ok .cmpeq ∧ decode 0x00000013 = .ok .cmpne ∧ decode 0x00000014 = .ok .cmplt ∧
    decode 0x00000015 = .ok .cmpgt ∧ decode 0x00000016 = .ok .cmple ∧ decode 0x00000017 = .ok .cmpge) ∧
  ∀ s : State, BusOK s.la → BusOK s.lb →
    let ends (i : Instr) (c : ScalWord) : Prop :=
      exec i s = .next { s with busy := false, valid := true, err := some 0, scal := some c }
    let tells (i : Instr) (p : Prop) : Prop := (p → ends i 1) ∧ (¬ p → ends i 0)
    ((ofBus s.la).val = none ∨ (ofBus s.lb).val = none →
      ends .cmpeq 0 ∧ ends .cmpne 0 ∧ ends .cmplt 0 ∧ ends .cmpgt 0 ∧ ends .cmple 0 ∧ ends .cmpge 0) ∧
    (∀ x y, (ofBus s.la).val = some x → (ofBus s.lb).val = some y →
      tells .cmpeq (ordered x = ordered y) ∧ tells .cmpne (ordered x ≠ ordered y) ∧
      tells .cmplt (ordered x < ordered y) ∧ tells .cmpgt (ordered y < ordered x) ∧
      tells .cmple (ordered x ≤ ordered y) ∧ tells .cmpge (ordered y ≤ ordered x))

/-- spec/43 R177, "[derived: from rules R170 to R176]": the laws of the six comparisons on operands that are no NaN. -/
def Obligations.ComparisonLaws : Prop :=
  ∀ (s : State) (a b c : BusWord), BusOK a → BusOK b → BusOK c →
    (ofBus a).cls ≠ .nan → (ofBus b).cls ≠ .nan → (ofBus c).cls ≠ .nan →
    let holds (i : Instr) (x y : BusWord) : Prop := scalAfter i s x y = some 1
    holds .cmpeq a a ∧ (holds .cmpeq a b → holds .cmpeq b a) ∧
    (holds .cmpeq a b → holds .cmpeq b c → holds .cmpeq a c) ∧
    ¬ holds .cmplt a a ∧ (holds .cmplt a b → holds .cmplt b c → holds .cmplt a c) ∧
    (holds .cmplt a b ∨ holds .cmpeq a b ∨ holds .cmplt b a) ∧
    (holds .cmplt a b ↔ holds .cmpgt b a) ∧
    (holds .cmple a b ↔ holds .cmplt a b ∨ holds .cmpeq a b) ∧
    (holds .cmpge a b ↔ holds .cmpgt a b ∨ holds .cmpeq a b) ∧
    (holds .cmpne a b ↔ ¬ holds .cmpeq a b) ∧
    (holds .cmpeq a b → ¬ holds .cmplt a b ∧ ¬ holds .cmpgt a b)

/-- spec/43 R170, "[derived: ...]": the comparator of signs and aligned magnitudes decides the order of the real values of
two finite nonzero operands of any two formats. -/
def Obligations.AlignedComparatorDecidesTheOrder : Prop :=
  ∀ (a b : Value) (p q : ℚ), a.WF → b.WF → a.val = some (.fin p) → b.val = some (.fin q) → p ≠ 0 → q ≠ 0 →
    (comparatorLt a b = true ↔ p < q)

/-- spec/43 R170, "[derived: ...]": comparing the two TOF results as binary64 values gives the same answer as comparing the
operands, for all six comparisons and every pair of well-formed operands. -/
def Obligations.ComparisonAgreesWithBinary64 : Prop :=
  ∀ (s ta tb : State) (fa fb : Word64) (i : Instr), BusOK s.la → BusOK s.lb →
    i ∈ [Instr.cmpeq, .cmpne, .cmplt, .cmpgt, .cmple, .cmpge] →
    exec .tof s = .next ta → ta.fOut = some fa → exec .tof { s with la := s.lb } = .next tb → tb.fOut = some fb →
    scalAfter i s (toBus (ofBinary64 fa)) (toBus (ofBinary64 fb)) = scalAfter i s s.la s.lb

/-! ### ArithmeticEngine -/

/-- spec/44 R192, R193: NEG (word 0x0000000D) flips bit 63 of the operand's bus word and ABS (word 0x0000000E) clears it, for every class; nothing else of the
value changes. -/
def Obligations.NegAndAbsChangeTheSignBitOnly : Prop :=
  (decode 0x0000000D = .ok .neg ∧ decode 0x0000000E = .ok .abs) ∧
  ∀ s : State, BusOK s.la →
    exec .neg s = .next { s with
      busy := false, valid := true, err := some 0, r := some (s.la ^^^ 0x8000000000000000) } ∧
    exec .abs s = .next { s with
      busy := false, valid := true, err := some 0, r := some (s.la &&& ~~~0x8000000000000000) }

/-- spec/44 R192, R193 (their corner cases): `NEG(NEG(x)) = x` and `ABS(NEG(x)) = ABS(x)`, bit for bit, for every `x`. -/
def Obligations.NegationLaws : Prop :=
  ∀ (s t : State), BusOK s.la → exec .neg s = .next t → ∃ w, t.r = some w ∧
    rAfter .neg s w s.lb = some s.la ∧ rAfter .abs s w s.lb = rAfter .abs s s.la s.lb ∧
    rAfter .abs s s.la s.lb ≠ none

/-- spec/44 R194, R140, R190 where no number is added: ADD with a NaN operand, of two infinities and of an infinity and a
finite value, in the promoted format. (The NaN of a promoted format without a mantissa is NAN_UNREPRESENTABLE, stated of
its own.) -/
def Obligations.AddOfSpecialValues : Prop :=
  ∀ s : State, BusOK s.la → BusOK s.lb →
    let a := ofBus s.la
    let b := ofBus s.lb
    let eb := max (busEb s.la) (busEb s.lb)
    let mb := max (busMb s.la) (busMb s.lb)
    let ends (sgn : Bool) (m : Nat) : Prop := exec .add s = .next { s with
      busy := false, valid := true, err := some 0
      r := some (BitVec.ofNat 4 eb ++ BitVec.ofNat 6 mb ++ BitVec.ofBool sgn ++ BitVec.ofNat 11 (2 ^ eb - 1) ++
        BitVec.ofNat 52 m) }
    (a.cls = .nan ∨ b.cls = .nan → ends false (2 ^ (mb - 1))) ∧
    (a.cls = .infinity → b.cls = .infinity → a.s = b.s → ends a.s 0) ∧
    (a.cls = .infinity → b.cls = .infinity → a.s ≠ b.s → 1 ≤ mb → ends false (2 ^ (mb - 1))) ∧
    (a.cls = .infinity → b.val ≠ none → b.cls ≠ .infinity → ends a.s 0) ∧
    (b.cls = .infinity → a.val ≠ none → a.cls ≠ .infinity → ends b.s 0)

/-- spec/44 R194 on two finite operands of any formats: the exact sum, rounded once to the promoted format (R143 says what
RoundPack's result is); an exact cancellation is +0; two zeros give the AND of the signs. -/
def Obligations.AddRoundsTheExactSumOnce : Prop :=
  ∀ (s : State) (p q : ℚ), BusOK s.la → BusOK s.lb → IsNum s.la p → IsNum s.lb q →
    let P : Format := ⟨max (busEb s.la) (busEb s.lb), max (busMb s.la) (busMb s.lb)⟩
    let ends (v : Value) : Prop :=
      exec .add s = .next { s with busy := false, valid := true, err := some 0, r := some (toBus v) }
    (p = 0 → q = 0 → ends ⟨s.la.getLsbD 63 && s.lb.getLsbD 63, 0, 0, P⟩) ∧
    (p ≠ 0 → p + q = 0 → ends ⟨false, 0, 0, P⟩) ∧
    (p + q ≠ 0 → ∃ v, RoundsTo P (p + q) v ∧ ends v)

/-- A corner case of spec/44 R194: a sum of two finite operands that is not zero never rounds to zero. -/
def Obligations.NonzeroSumsNeverUnderflow : Prop :=
  ∀ (s t : State) (p q : ℚ), BusOK s.la → BusOK s.lb → IsNum s.la p → IsNum s.lb q → p + q ≠ 0 →
    exec .add s = .next t → ∃ w, t.r = some w ∧ (ofBus w).cls ≠ .zero

/-- spec/44 R195: SUB (word 0x00000010) is ADD of A and of B with its sign bit flipped, on every pair of well-formed operands, errors
included. -/
def Obligations.SubIsAddOfTheNegated : Prop :=
  decode 0x00000010 = .ok .sub ∧ ∀ s : State, BusOK s.la → BusOK s.lb →
    ∃ t, exec .sub s = .next t ∧
      exec .add { s with lb := s.lb ^^^ 0x8000000000000000 } = .next { t with lb := s.lb ^^^ 0x8000000000000000 }

/-- spec/44 R194, R195 on two finite operands: SUB gives the exact difference, rounded once to the promoted format, and an
exact cancellation of two numbers is +0. -/
def Obligations.SubRoundsTheExactDifferenceOnce : Prop :=
  ∀ (s : State) (p q : ℚ), BusOK s.la → BusOK s.lb → IsNum s.la p → IsNum s.lb q →
    let P : Format := ⟨max (busEb s.la) (busEb s.lb), max (busMb s.la) (busMb s.lb)⟩
    let ends (v : Value) : Prop :=
      exec .sub s = .next { s with busy := false, valid := true, err := some 0, r := some (toBus v) }
    (p = 0 → q = 0 → ends ⟨s.la.getLsbD 63 && !s.lb.getLsbD 63, 0, 0, P⟩) ∧
    (p ≠ 0 → p - q = 0 → ends ⟨false, 0, 0, P⟩) ∧
    (p - q ≠ 0 → ∃ v, RoundsTo P (p - q) v ∧ ends v)

/-- spec/44 R196, R140, R190 where no numbers are multiplied: MUL with a NaN operand, of an infinity and a zero, of an
infinity and anything else, and of a zero and a finite value; the sign is the XOR of the operand signs, but for a NaN. -/
def Obligations.MulOfSpecialValues : Prop :=
  ∀ s : State, BusOK s.la → BusOK s.lb →
    let a := ofBus s.la
    let b := ofBus s.lb
    let eb := max (busEb s.la) (busEb s.lb)
    let mb := max (busMb s.la) (busMb s.lb)
    let ends (sgn : Bool) (e m : Nat) : Prop := exec .mul s = .next { s with
      busy := false, valid := true, err := some 0
      r := some (BitVec.ofNat 4 eb ++ BitVec.ofNat 6 mb ++ BitVec.ofBool sgn ++ BitVec.ofNat 11 e ++
        BitVec.ofNat 52 m) }
    (a.cls = .nan ∨ b.cls = .nan → ends false (2 ^ eb - 1) (2 ^ (mb - 1))) ∧
    (a.cls = .infinity → b.cls = .zero → 1 ≤ mb → ends false (2 ^ eb - 1) (2 ^ (mb - 1))) ∧
    (a.cls = .zero → b.cls = .infinity → 1 ≤ mb → ends false (2 ^ eb - 1) (2 ^ (mb - 1))) ∧
    (a.cls = .infinity → b.cls ≠ .nan → b.cls ≠ .zero → ends (a.s ^^ b.s) (2 ^ eb - 1) 0) ∧
    (b.cls = .infinity → a.cls ≠ .nan → a.cls ≠ .zero → ends (a.s ^^ b.s) (2 ^ eb - 1) 0) ∧
    (a.cls = .zero → b.cls ≠ .nan → b.cls ≠ .infinity → ends (a.s ^^ b.s) 0 0) ∧
    (b.cls = .zero → a.cls ≠ .nan → a.cls ≠ .infinity → ends (a.s ^^ b.s) 0 0)

/-- spec/44 R196 on two finite nonzero operands of any formats: the exact product, rounded once to the promoted format
(R143 says what RoundPack's result is). -/
def Obligations.MulRoundsTheExactProductOnce : Prop :=
  ∀ (s : State) (p q : ℚ), BusOK s.la → BusOK s.lb → IsNum s.la p → IsNum s.lb q → p * q ≠ 0 →
    ∃ v, RoundsTo ⟨max (busEb s.la) (busEb s.lb), max (busMb s.la) (busMb s.lb)⟩ (p * q) v ∧
      exec .mul s = .next { s with busy := false, valid := true, err := some 0, r := some (toBus v) }

/-- spec/44 R197, "[derived: from rules R194 and R196]": ADD and MUL are commutative bit for bit, errors included. -/
def Obligations.AddAndMulCommute : Prop :=
  ∀ (s : State) (i : Instr), i = .add ∨ i = .mul → BusOK s.la → BusOK s.lb →
    ∃ t, exec i s = .next t ∧
      exec i { s with la := s.lb, lb := s.la } = .next { t with la := s.lb, lb := s.la }

/-- spec/44 R190: every result that ADD, SUB and MUL write on R, special values included, is a well-formed value of the
promoted format; NEG and ABS keep the operand's format. -/
def Obligations.ResultFormatsArePromoted : Prop :=
  ∀ (s t : State) (i : Instr), BusOK s.la →
    ((i = .add ∨ i = .sub ∨ i = .mul) → BusOK s.lb → exec i s = .next t → t.err = some 0 →
      ∃ w, t.r = some w ∧ BusOK w ∧ busEb w = max (busEb s.la) (busEb s.lb) ∧ busMb w = max (busMb s.la) (busMb s.lb)) ∧
    ((i = .neg ∨ i = .abs) → exec i s = .next t →
      ∃ w, t.r = some w ∧ BusOK w ∧ busEb w = busEb s.la ∧ busMb w = busMb s.la)
end

