-- ==== Sys2Proof/Laws/Decode.lean ====
section
/-! SUPPORT. The fields of a command word as arithmetic (spec/30_encoding.md R70), and what decoding gives, once. -/

namespace Sys2Proof

theorem opField_eq (w : CmdWord) : opField w = w.toNat % 32 := by
  simp [opField, BitVec.extractLsb'_toNat]

theorem tebField_eq (w : CmdWord) : tebField w = w.toNat / 32 % 16 := by
  simp [tebField, BitVec.extractLsb'_toNat, Nat.shiftRight_eq_div_pow]

theorem tmbField_eq (w : CmdWord) : tmbField w = w.toNat / 512 % 64 := by
  simp [tmbField, BitVec.extractLsb'_toNat, Nat.shiftRight_eq_div_pow]

theorem rsvField_eq (w : CmdWord) : rsvField w = w.toNat / 32768 % 131072 := by
  simp [rsvField, BitVec.extractLsb'_toNat, Nat.shiftRight_eq_div_pow]

/-- A word is its four fields: `OP + 32*TEB + 512*TMB + 32768*RSV` (R70). -/
theorem word_eq_fields (w : CmdWord) :
    w.toNat = opField w + 32 * tebField w + 512 * tmbField w + 32768 * rsvField w := by
  have := w.isLt
  rw [opField_eq, tebField_eq, tmbField_eq, rsvField_eq]
  omega

/-- What it takes for a word to be the command `i` (R71 to R73, R81). -/
theorem decode_eq_ok {w : CmdWord} {i : Instr} :
    decode w = .ok i ↔
      rsvField w = 0 ∧ instrOf (opField w) (tebField w) (tmbField w) = some i ∧
        (hasTarget (opField w) = true ∨ tebField w = 0 ∧ tmbField w = 0) := by
  unfold decode
  split
  · simp_all
  · split
    · simp_all
    · split
      · rename_i h
        simp_all
        omega
      · rename_i j hj h
        simp_all
        intro _
        by_cases ht : hasTarget (opField w) = true
        · exact Or.inl ht
        · exact Or.inr (h (by simpa using ht))

end Sys2Proof
end

