-- ==== Sys2Proof/Laws/Numbers.lean ====
section
/-! SUPPORT. What `pow2` and `bitlen` (spec/00_scope.md R6) are, once. -/

namespace Sys2Proof.Machine

theorem pow2_eq_zpow (k : ℤ) : pow2 k = (2 : ℚ) ^ k := by
  cases k with
  | ofNat n => simp [pow2]
  | negSucc n => simp only [pow2]; rw [zpow_negSucc, Rat.mkRat_eq_div]; push_cast; simp

theorem bitlen_pos (S : Nat) : 1 ≤ bitlen S := Nat.le_add_left 1 _

theorem two_pow_bitlen_le {S : Nat} (h : 0 < S) : 2 ^ (bitlen S - 1) ≤ S := by
  simpa [bitlen] using Nat.log2_self_le (by omega : S ≠ 0)

theorem lt_two_pow_bitlen (S : Nat) : S < 2 ^ bitlen S := by
  simpa [bitlen] using Nat.lt_log2_self (n := S)

/-- The true exponent of `S * 2^Q` (spec/42 R142): `2^e <= S*2^Q < 2^(e+1)` with `e = bitlen S - 1 + Q`. -/
theorem log_of_significand {S : Nat} (h : 0 < S) (Q : ℤ) :
    Int.log 2 ((S : ℚ) * 2 ^ Q) = (bitlen S : ℤ) - 1 + Q := by
  have h2 : (0 : ℚ) < 2 ^ Q := by positivity
  have hS : (0 : ℚ) < S := by exact_mod_cast h
  have hx : (0 : ℚ) < (S : ℚ) * 2 ^ Q := by positivity
  have hlo : ((2 : ℕ) : ℚ) ^ ((bitlen S : ℤ) - 1 + Q) ≤ (S : ℚ) * 2 ^ Q := by
    have : ((2 : ℚ)) ^ ((bitlen S : ℤ) - 1) ≤ S := by
      have := two_pow_bitlen_le h
      have e : ((bitlen S : ℤ) - 1) = ((bitlen S - 1 : ℕ) : ℤ) := by have := bitlen_pos S; omega
      rw [e, zpow_natCast]; exact_mod_cast this
    push_cast; rw [zpow_add₀ (by norm_num)]; gcongr
  have hhi : (S : ℚ) * 2 ^ Q < ((2 : ℕ) : ℚ) ^ ((bitlen S : ℤ) - 1 + Q + 1) := by
    have : (S : ℚ) < 2 ^ (bitlen S : ℤ) := by
      rw [zpow_natCast]; exact_mod_cast lt_two_pow_bitlen S
    rw [show ((bitlen S : ℤ) - 1 + Q + 1) = bitlen S + Q by ring]
    push_cast; rw [zpow_add₀ (by norm_num)]; gcongr
  have a := (Int.zpow_le_iff_le_log (b := 2) (by norm_num) hx).1 hlo
  have b := (Int.lt_zpow_iff_log_lt (b := 2) (by norm_num) hx).1 hhi
  omega

end Sys2Proof.Machine
end

