-- ==== Sys2Proof/Laws/Value.lean ====
section
/-! SUPPORT. What the class, the real value and the significand form of a value are (spec/41_classify.md R120, R122,
R123), once. -/

namespace Sys2Proof.Machine

namespace Format

theorem eall_eq {F : Format} (h : 1 ≤ F.eb) : F.eall = 2 * F.bias + 1 := by
  obtain ⟨k, hk⟩ : ∃ k, F.eb = k + 1 := ⟨F.eb - 1, by omega⟩
  have := Nat.one_le_two_pow (n := k)
  simp only [eall, bias, hk, Nat.add_sub_cancel, Nat.pow_succ]
  omega

theorem eall_lt (F : Format) : F.eall < 2 ^ F.eb := by
  have := Nat.one_le_two_pow (n := F.eb)
  simp only [eall]; omega

end Format

namespace Value

variable {v : Value}

theorem cls_zero : v.cls = .zero ↔ v.e = 0 ∧ v.m = 0 := by
  unfold cls; split_ifs <;> simp_all

theorem cls_subnormal : v.cls = .subnormal ↔ v.e = 0 ∧ v.m ≠ 0 := by
  unfold cls; split_ifs <;> simp_all

theorem cls_normal : v.cls = .normal ↔ v.e ≠ 0 ∧ v.e ≠ v.fmt.eall := by
  unfold cls; split_ifs <;> simp_all

theorem cls_infinity : v.cls = .infinity ↔ v.e ≠ 0 ∧ v.e = v.fmt.eall ∧ v.m = 0 := by
  unfold cls; split_ifs <;> simp_all

theorem cls_nan : v.cls = .nan ↔ v.e ≠ 0 ∧ v.e = v.fmt.eall ∧ v.m ≠ 0 := by
  unfold cls; split_ifs <;> simp_all

@[simp] theorem flipSign_s : v.flipSign.s = !v.s := rfl
@[simp] theorem flipSign_e : v.flipSign.e = v.e := rfl
@[simp] theorem flipSign_m : v.flipSign.m = v.m := rfl
@[simp] theorem flipSign_fmt : v.flipSign.fmt = v.fmt := rfl
@[simp] theorem flipSign_cls : v.flipSign.cls = v.cls := rfl
@[simp] theorem flipSign_sf : v.flipSign.sf = v.sf := rfl
@[simp] theorem clearSign_s : v.clearSign.s = false := rfl
@[simp] theorem clearSign_e : v.clearSign.e = v.e := rfl
@[simp] theorem clearSign_m : v.clearSign.m = v.m := rfl
@[simp] theorem clearSign_fmt : v.clearSign.fmt = v.fmt := rfl

theorem flipSign_wf (h : v.WF) : v.flipSign.WF := h
theorem clearSign_wf (h : v.WF) : v.clearSign.WF := h

/-- A well-formed NaN has a mantissa field (spec/41 R129). -/
theorem mb_pos_of_nan (h : v.WF) (hn : v.cls = .nan) : v.fmt.mb ≠ 0 := by
  intro h0
  have := h.2.2
  have := (cls_nan.1 hn).2.2
  rw [h0] at *
  omega

theorem val_of_zero (h : v.cls = .zero) : v.val = some (.fin 0) := by simp [val, h]

theorem val_of_infinity (h : v.cls = .infinity) : v.val = some (if v.s then .negInf else .posInf) := by
  simp [val, h]

theorem val_of_nan (h : v.cls = .nan) : v.val = none := by simp [val, h]

/-- `SF(v)` of a Subnormal value (R123). -/
theorem sf_of_subnormal (h : v.cls = .subnormal) : v.sf = (v.m, v.fmt.emin - v.fmt.mb) := by simp [sf, h]

/-- `SF(v)` of a Normal value (R123). -/
theorem sf_of_normal (h : v.cls = .normal) :
    v.sf = (2 ^ v.fmt.mb + v.m, (v.e : ℤ) - v.fmt.bias - v.fmt.mb) := by simp [sf, h]

/-- `val(v) = (-1)^s * S * 2^Q` of a Subnormal or Normal value (R123). -/
theorem val_eq_sf (h : v.cls = .subnormal ∨ v.cls = .normal) :
    v.val = some (.fin (v.sign * (v.sf.1 * 2 ^ v.sf.2))) := by
  have h2 : ((2 : ℚ) ^ v.fmt.mb) ≠ 0 := by positivity
  rcases h with h | h
  · simp only [val, h, sf_of_subnormal h, pow2_eq_zpow, Format.emin]
    push_cast
    rw [zpow_sub₀ (by norm_num : (2 : ℚ) ≠ 0) (1 - (v.fmt.bias : ℤ)) (v.fmt.mb : ℤ), zpow_natCast]
    congr 2; field_simp
  · simp only [val, h, sf_of_normal h, pow2_eq_zpow]
    push_cast
    rw [zpow_sub₀ (by norm_num : (2 : ℚ) ≠ 0) ((v.e : ℤ) - (v.fmt.bias : ℤ)) (v.fmt.mb : ℤ), zpow_natCast]
    congr 2; field_simp

/-- The significand of a Subnormal or Normal value is positive, has at most `mb + 1` bits, and its unit is no finer than
the smallest subnormal and no coarser than the largest binade's (R123). -/
theorem sf_bounds (hw : v.WF) (h : v.cls = .subnormal ∨ v.cls = .normal) :
    0 < v.sf.1 ∧ v.sf.1 < 2 ^ (v.fmt.mb + 1) ∧ v.fmt.emin - v.fmt.mb ≤ v.sf.2 ∧
      v.sf.2 + v.fmt.mb ≤ max (v.fmt.bias : ℤ) v.fmt.emin := by
  have he := Format.eall_eq hw.1.1
  have hm := hw.2.2
  have h1 : 2 ^ (v.fmt.mb + 1) = 2 * 2 ^ v.fmt.mb := by ring
  rcases h with h | h
  · rw [sf_of_subnormal h]
    have := (cls_subnormal.1 h).2
    refine ⟨by omega, by omega, le_refl _, ?_⟩
    simp only; omega
  · rw [sf_of_normal h]
    have h3 := cls_normal.1 h
    have h4 := hw.2.1
    have h5 := Nat.one_le_two_pow (n := v.fmt.eb)
    have h6 : v.fmt.eall = 2 ^ v.fmt.eb - 1 := rfl
    have h7 := Nat.one_le_two_pow (n := v.fmt.mb)
    refine ⟨by simp only; omega, by simp only; omega, ?_, ?_⟩ <;> simp only [Format.emin] <;> omega

theorem sign_ne_zero : v.sign ≠ 0 := by unfold sign; split <;> norm_num

theorem abs_sign : |v.sign| = 1 := by unfold sign; split <;> norm_num

end Value

/-- Two significands below `2^(k+1)` in units no coarser than they need are the same: the form of R123 is unique. -/
theorem sf_unique {k S T : Nat} {P Q p : ℤ} (hS : S < 2 ^ (k + 1)) (hT : T < 2 ^ (k + 1))
    (hP : p ≤ P) (hQ : p ≤ Q) (hS' : 2 ^ k ≤ S ∨ P = p) (hT' : 2 ^ k ≤ T ∨ Q = p)
    (h : (S : ℚ) * 2 ^ P = T * 2 ^ Q) : S = T ∧ (0 < S → P = Q) := by
  have aux : ∀ {S T : Nat} {P Q : ℤ}, S < 2 ^ (k + 1) → T < 2 ^ (k + 1) → p ≤ P → (2 ^ k ≤ T ∨ Q = p) →
      (S : ℚ) * 2 ^ P = T * 2 ^ Q → P ≤ Q → S = T ∧ (0 < S → P = Q) := by
    intro S T P Q hS hT hP hT' h hle
    have e : S = T * 2 ^ (Q - P).toNat := by
      have hq : (2 : ℚ) ^ Q = 2 ^ (Q - P).toNat * 2 ^ P := by
        rw [← zpow_natCast, ← zpow_add₀ (by norm_num)]; congr 1; omega
      rw [hq, ← mul_assoc] at h
      have := mul_right_cancel₀ (by positivity : (2 : ℚ) ^ P ≠ 0) h
      exact_mod_cast this
    rcases Nat.eq_zero_or_pos (Q - P).toNat with h0 | h0
    · rw [h0] at e; exact ⟨by simpa using e, fun _ => by omega⟩
    · rcases hT' with h1 | h1
      · exfalso
        obtain ⟨j, hj⟩ : ∃ j, (Q - P).toNat = j + 1 := ⟨_, (Nat.succ_pred_eq_of_pos h0).symm⟩
        have : 2 ^ (k + 1) ≤ S := by
          rw [e, hj, Nat.pow_succ, Nat.pow_succ]
          calc 2 ^ k * 2 ≤ T * (1 * 2) := by omega
            _ ≤ T * (2 ^ j * 2) := by gcongr; exact Nat.one_le_two_pow
        omega
      · omega
  rcases le_total P Q with hle | hle
  · exact aux hS hT hP hT' h hle
  · obtain ⟨a, b⟩ := aux hT hS hQ hS' h.symm hle
    exact ⟨a.symm, fun h => (b (by omega)).symm⟩

/-- A well-formed value that is no NaN is determined by its format, its sign and the number it stands for (R122). -/
theorem Value.val_inj {u v : Value} (hu : u.WF) (hv : v.WF) (hf : u.fmt = v.fmt) (hs : u.s = v.s)
    (hn : u.val ≠ none) (h : u.val = v.val) : u = v := by
  have eu := Format.eall_eq hu.1.1
  have ev := Format.eall_eq hv.1.1
  have hem : u.e = v.e ∧ u.m = v.m := by
    have fin : ∀ {w : Value}, w.WF → (w.cls = .subnormal ∨ w.cls = .normal) →
        2 ^ w.fmt.mb ≤ w.sf.1 ∨ w.sf.2 = w.fmt.emin - w.fmt.mb := by
      intro w _ hc
      rcases hc with hc | hc
      · rw [sf_of_subnormal hc]; exact Or.inr rfl
      · rw [sf_of_normal hc]; exact Or.inl (Nat.le_add_right _ _)
    have num : ∀ {w : Value}, w.WF → (w.cls = .subnormal ∨ w.cls = .normal) →
        ∃ q, w.val = some (.fin q) ∧ q ≠ 0 := by
      intro w hw hc
      refine ⟨_, val_eq_sf hc, ?_⟩
      have : (w.sf.1 : ℚ) ≠ 0 := by exact_mod_cast (sf_bounds hw hc).1.ne'
      have := sign_ne_zero (v := w)
      positivity
    rcases cu : u.cls <;> rcases cv : v.cls <;>
      first
      | (exact absurd (val_of_nan cu) hn)
      | (rw [val_of_nan cv] at h; exact absurd h hn)
      | skip
    case zero.zero =>
      obtain ⟨a, b⟩ := cls_zero.1 cu; obtain ⟨c, d⟩ := cls_zero.1 cv; omega
    case infinity.infinity =>
      obtain ⟨_, a, b⟩ := cls_infinity.1 cu; obtain ⟨_, c, d⟩ := cls_infinity.1 cv
      rw [a, b, c, d, hf]; simp
    case zero.infinity => rw [val_of_zero cu, val_of_infinity cv] at h; split at h <;> cases h
    case infinity.zero => rw [val_of_zero cv, val_of_infinity cu] at h; split at h <;> cases h
    case zero.subnormal => obtain ⟨q, a, b⟩ := num hv (Or.inl cv); rw [val_of_zero cu, a] at h; simp at h; exact absurd h.symm b
    case zero.normal => obtain ⟨q, a, b⟩ := num hv (Or.inr cv); rw [val_of_zero cu, a] at h; simp at h; exact absurd h.symm b
    case subnormal.zero => obtain ⟨q, a, b⟩ := num hu (Or.inl cu); rw [val_of_zero cv, a] at h; simp at h; exact absurd h b
    case normal.zero => obtain ⟨q, a, b⟩ := num hu (Or.inr cu); rw [val_of_zero cv, a] at h; simp at h; exact absurd h b
    case subnormal.infinity => obtain ⟨q, a, b⟩ := num hu (Or.inl cu); rw [val_of_infinity cv, a] at h; split at h <;> cases h
    case normal.infinity => obtain ⟨q, a, b⟩ := num hu (Or.inr cu); rw [val_of_infinity cv, a] at h; split at h <;> cases h
    case infinity.subnormal => obtain ⟨q, a, b⟩ := num hv (Or.inl cv); rw [val_of_infinity cu, a] at h; split at h <;> cases h
    case infinity.normal => obtain ⟨q, a, b⟩ := num hv (Or.inr cv); rw [val_of_infinity cu, a] at h; split at h <;> cases h
    all_goals
      have gu : u.cls = .subnormal ∨ u.cls = .normal := by simp [cu]
      have gv : v.cls = .subnormal ∨ v.cls = .normal := by simp [cv]
      rw [val_eq_sf gu, val_eq_sf gv] at h
      have h' := ExtRat.fin.inj (Option.some.inj h)
      rw [show u.sign = v.sign by simp [sign, hs]] at h'
      have h' := mul_left_cancel₀ sign_ne_zero h'
      obtain ⟨bu1, bu2, bu3, -⟩ := sf_bounds hu gu
      obtain ⟨bv1, bv2, bv3, -⟩ := sf_bounds hv gv
      have fu := fin hu gu
      have fv := fin hv gv
      rw [← hf] at bv2 bv3 fv
      obtain ⟨r1, r2⟩ := sf_unique bu2 bv2 bu3 bv3 fu fv h'
      have r2 := r2 bu1
    · rw [sf_of_subnormal cu, sf_of_subnormal cv] at r1
      exact ⟨by rw [(cls_subnormal.1 cu).1, (cls_subnormal.1 cv).1], r1⟩
    · rw [sf_of_subnormal cu, sf_of_normal cv] at r1
      have := hu.2.2; rw [hf] at this; simp only at r1; omega
    · rw [sf_of_normal cu, sf_of_subnormal cv] at r1
      have := hv.2.2; rw [← hf] at this; simp only at r1; omega
    · rw [sf_of_normal cu, sf_of_normal cv] at r1 r2
      rw [← hf] at r1 r2
      simp only at r1 r2; omega
  cases u; cases v
  simp_all

/-- A finite nonzero value lies below `2^(bias+1)`, the first value beyond the format (R122, R143). -/
theorem Value.sf_lt {v : Value} (hw : v.WF) (h : v.cls = .subnormal ∨ v.cls = .normal) :
    (v.sf.1 : ℚ) * 2 ^ v.sf.2 < 2 ^ ((v.fmt.bias : ℤ) + 1) := by
  have he := Format.eall_eq hw.1.1
  have hm := hw.2.2
  have key : ∀ {S k : Nat} {Q : ℤ}, S < 2 ^ k → k + Q ≤ v.fmt.bias + 1 → (S : ℚ) * 2 ^ Q < 2 ^ ((v.fmt.bias : ℤ) + 1) := by
    intro S k Q h1 h2
    calc (S : ℚ) * 2 ^ Q < 2 ^ k * 2 ^ Q := by gcongr; exact_mod_cast h1
      _ = 2 ^ ((k : ℤ) + Q) := by rw [zpow_add₀ (by norm_num), zpow_natCast]
      _ ≤ _ := zpow_le_zpow_right₀ (by norm_num) h2
  rcases h with h | h
  · rw [sf_of_subnormal h]
    exact key hm (by simp only [Format.emin]; omega)
  · rw [sf_of_normal h]
    have h3 := cls_normal.1 h
    have h4 := hw.2.1
    have h6 : v.fmt.eall = 2 ^ v.fmt.eb - 1 := rfl
    exact key (k := v.fmt.mb + 1) (by simp only [Nat.pow_succ]; omega) (by push_cast; omega)

/-- A value stands for the number `q`: a zero for 0, a Subnormal or Normal value for its significand form (R122, R123). -/
theorem Value.val_fin_iff {v : Value} {q : ℚ} :
    v.val = some (.fin q) ↔ (v.cls = .zero ∧ q = 0) ∨
      ((v.cls = .subnormal ∨ v.cls = .normal) ∧ q = v.sign * (v.sf.1 * 2 ^ v.sf.2)) := by
  rcases hc : v.cls
  · rw [val_of_zero hc]; simp [eq_comm]
  · rw [val_eq_sf (Or.inl hc)]; simp [eq_comm]
  · rw [val_eq_sf (Or.inr hc)]; simp [eq_comm]
  · rw [val_of_infinity hc]; split <;> simp
  · rw [val_of_nan hc]; simp

namespace Value

theorem val_ne_none {v : Value} : v.val ≠ none ↔ v.cls ≠ .nan := by
  rcases h : v.cls
  · simp [val_of_zero h]
  · simp [val_eq_sf (Or.inl h)]
  · simp [val_eq_sf (Or.inr h)]
  · simp [val_of_infinity h]
  · simp [val_of_nan h]

end Value

end Sys2Proof.Machine
end

