-- ==== Sys2Proof/Laws/Operands.lean ====
section
/-! SUPPORT. The raw pattern and the value bus word carry a value without loss (spec/40_codec.md R107; spec/30_encoding.md
R75). -/

namespace Sys2Proof.Machine

/-- Split always gives a value of the format, well-formed when the format is legal (R100). -/
theorem split_wf {F : Format} (h : F.Legal) (raw : Nat) : (split raw F).WF :=
  ⟨h, Nat.mod_lt _ (by positivity), Nat.mod_lt _ (by positivity)⟩

/-- `Pack(v) < 2^W(F)` (R101). -/
theorem pack_lt {v : Value} (h : v.WF) : pack v < 2 ^ v.fmt.width := by
  obtain ⟨-, he, hm⟩ := h
  have h1 : (v.e + 1) * 2 ^ v.fmt.mb ≤ 2 ^ v.fmt.eb * 2 ^ v.fmt.mb := Nat.mul_le_mul_right _ he
  have h2 : 2 ^ v.fmt.width = 2 * (2 ^ v.fmt.eb * 2 ^ v.fmt.mb) := by
    simp only [Format.width]; ring
  rw [Nat.add_mul, Nat.one_mul] at h1
  rw [pack, h2, Nat.pow_add]
  split <;> simp <;> omega

theorem width_le {F : Format} (h : F.Legal) : F.width ≤ 64 := by
  simp only [Format.Legal, Config.ebMax, Config.mbMax] at h
  simp only [Format.width]; omega

/-- The raw pattern of a well-formed value fits the 64 bits of RAW_OUT (spec/00 R5). -/
theorem rawWord_toNat {v : Value} (h : v.WF) : (rawWord v).toNat = pack v := by
  have h1 := pack_lt h
  have h2 : 2 ^ v.fmt.width ≤ 2 ^ 64 := Nat.pow_le_pow_right (by norm_num) (width_le h.1)
  simp only [rawWord, BitVec.toNat_ofNat]
  exact Nat.mod_eq_of_lt (by omega)

/-- `Split(Pack(v), F) = v` (R107). -/
theorem split_pack {v : Value} (h : v.WF) : split (pack v) v.fmt = v := by
  obtain ⟨-, he, hm⟩ := h
  have hE : v.e * 2 ^ v.fmt.mb + v.m < 2 ^ (v.fmt.eb + v.fmt.mb) := by
    have := Nat.mul_le_mul_right (2 ^ v.fmt.mb) (Nat.succ_le_of_lt he)
    rw [Nat.pow_add]; rw [Nat.succ_mul] at this; omega
  have hp : 0 < 2 ^ v.fmt.mb := by positivity
  have hd : pack v / 2 ^ v.fmt.mb = (if v.s then 1 else 0) * 2 ^ v.fmt.eb + v.e := by
    have : pack v = ((if v.s then 1 else 0) * 2 ^ v.fmt.eb + v.e) * 2 ^ v.fmt.mb + v.m := by
      rw [pack, Nat.pow_add]; ring
    rw [this, Nat.mul_comm _ (2 ^ v.fmt.mb), Nat.mul_add_div hp, Nat.div_eq_of_lt hm, Nat.add_zero]
  have hmod : pack v % 2 ^ v.fmt.mb = v.m := by
    have : pack v = v.m + 2 ^ v.fmt.mb * ((if v.s then 1 else 0) * 2 ^ v.fmt.eb + v.e) := by
      rw [pack, Nat.pow_add]; ring
    rw [this, Nat.add_mul_mod_self_left, Nat.mod_eq_of_lt hm]
  have hs : (pack v).testBit (v.fmt.eb + v.fmt.mb) = v.s := by
    rw [Nat.testBit_eq_decide_div_mod_eq]
    have : pack v = (v.e * 2 ^ v.fmt.mb + v.m) + 2 ^ (v.fmt.eb + v.fmt.mb) * (if v.s then 1 else 0) := by
      rw [pack]; ring
    rw [this, Nat.add_mul_div_left _ _ (by positivity), Nat.div_eq_of_lt hE]
    cases v.s <;> simp
  have hmod2 : ((if v.s then 1 else 0) * 2 ^ v.fmt.eb + v.e) % 2 ^ v.fmt.eb = v.e := by
    rw [Nat.add_comm, Nat.add_mul_mod_self_right, Nat.mod_eq_of_lt he]
  cases v
  simp only [split, hs, hd, hmod, hmod2]

/-- `Pack(Split(raw, F)) = raw` (R107). -/
theorem pack_split {F : Format} {raw : Nat} (h : raw < 2 ^ F.width) : pack (split raw F) = raw := by
  have h1 : raw / 2 ^ F.mb / 2 ^ F.eb = raw / 2 ^ (F.eb + F.mb) := by
    rw [Nat.div_div_eq_div_mul, ← Nat.pow_add, Nat.add_comm]
  have h2 : raw / 2 ^ (F.eb + F.mb) < 2 := by
    apply Nat.div_lt_of_lt_mul
    rw [Format.width] at h
    calc raw < 2 ^ (1 + F.eb + F.mb) := h
      _ = 2 ^ (F.eb + F.mb) * 2 := by rw [Nat.add_assoc, Nat.pow_add]; ring
  have h3 : (if (split raw F).s then 1 else 0) = raw / 2 ^ (F.eb + F.mb) := by
    simp only [split, Nat.testBit_eq_decide_div_mod_eq]
    rcases Nat.lt_succ_iff_lt_or_eq.1 h2 with h | h
    · simp [Nat.lt_one_iff.1 h]
    · simp [h]
  rw [pack, h3, show (split raw F).fmt = F from rfl, show (split raw F).e = raw / 2 ^ F.mb % 2 ^ F.eb from rfl,
    show (split raw F).m = raw % 2 ^ F.mb from rfl, ← h1]
  have a := Nat.div_add_mod (raw / 2 ^ F.mb) (2 ^ F.eb)
  have b := Nat.div_add_mod raw (2 ^ F.mb)
  calc raw / 2 ^ F.mb / 2 ^ F.eb * 2 ^ (F.eb + F.mb) + raw / 2 ^ F.mb % 2 ^ F.eb * 2 ^ F.mb + raw % 2 ^ F.mb
      = 2 ^ F.mb * (2 ^ F.eb * (raw / 2 ^ F.mb / 2 ^ F.eb) + raw / 2 ^ F.mb % 2 ^ F.eb) + raw % 2 ^ F.mb := by
        rw [Nat.pow_add]; ring
    _ = raw := by rw [a, b]

/-- The fields of a value bus word are the fields of the value (R74, R75). -/
theorem ofBus_toBus {v : Value} (h : v.WF) : ofBus (toBus v) = v := by
  obtain ⟨⟨h1, h2, h3⟩, he, hm⟩ := h
  simp only [Config.ebMax, Config.mbMax] at h2 h3
  have hE : v.e < 2 ^ 11 := lt_of_lt_of_le he (Nat.pow_le_pow_right (by norm_num) h2)
  have hM : v.m < 2 ^ 52 := lt_of_lt_of_le hm (Nat.pow_le_pow_right (by norm_num) h3)
  obtain ⟨s, e, m, ⟨eb, mb⟩⟩ := v
  simp only at h1 h2 h3 hE hM
  have key : ∀ (x : BitVec 4) (y : BitVec 6) (b : Bool) (u : BitVec 11) (t : BitVec 52),
      let w : BusWord := x ++ y ++ BitVec.ofBool b ++ u ++ t
      w.getLsbD 63 = b ∧ w.extractLsb' 52 11 = u ∧ w.extractLsb' 0 52 = t ∧ w.extractLsb' 70 4 = x ∧
        w.extractLsb' 64 6 = y := by
    intro x y b u t
    refine ⟨?_, ?_, ?_, ?_, ?_⟩
    · simp only [BitVec.getLsbD_append, BitVec.getLsbD_ofBool]; rfl
    all_goals
      apply BitVec.eq_of_getLsbD_eq
      intro i hi
      simp only [BitVec.getLsbD_extractLsb', BitVec.getLsbD_append, hi, decide_true, Bool.true_and]
      (repeat' split) <;> first | omega | (congr 1; omega)
  obtain ⟨k1, k2, k3, k4, k5⟩ := key (BitVec.ofNat 4 eb) (BitVec.ofNat 6 mb) s (BitVec.ofNat 11 e) (BitVec.ofNat 52 m)
  simp only [ofBus, toBus, k1, k2, k3, k4, k5, BitVec.toNat_ofNat]
  rw [Nat.mod_eq_of_lt hE, Nat.mod_eq_of_lt hM, Nat.mod_eq_of_lt (by omega : eb < 2 ^ 4),
    Nat.mod_eq_of_lt (by omega : mb < 2 ^ 6)]

/-- Every value bus word is the word of the value it decodes to: its five fields are all of its bits (R74). -/
theorem toBus_ofBus (w : BusWord) : toBus (ofBus w) = w := by
  simp only [toBus, ofBus, BitVec.ofNat_toNat, BitVec.setWidth_eq]
  apply BitVec.eq_of_getLsbD_eq
  intro i hi
  simp only [BitVec.getLsbD_append, BitVec.getLsbD_extractLsb', BitVec.getLsbD_ofBool]
  split
  · simp [*]
  · split
    · rw [show 52 + (i - 52) = i by omega]; simp [*]
    · split
      · have : i = 63 := by omega
        subst this; simp
      · split
        · rw [show 64 + (i - 52 - 11 - 1) = i by omega]; simp [*]
        · rw [show 70 + (i - 52 - 11 - 1 - 6) = i by omega]; simp; omega

end Sys2Proof.Machine
end

