-- ==== Sys2Proof/Laws/Round.lean ====
section
/-! SUPPORT. What the rounding primitives compute (spec/42_convert.md R140 to R142), once: the rounded significand is the
nearest integer, ties to even; and the packed value is that multiple of the unit, or an infinity beyond the format. -/

namespace Sys2Proof.Machine

theorem infOf_wf {F : Format} (h : F.Legal) (s : Bool) : (infOf F s).WF :=
  ⟨h, Format.eall_lt F, by simp only [infOf]; positivity⟩

theorem zeroOf_wf {F : Format} (h : F.Legal) (s : Bool) : (zeroOf F s).WF :=
  ⟨h, by simp only [zeroOf]; positivity, by simp only [zeroOf]; positivity⟩

/-- CanonNaN gives a NaN of the format with the sign asked for, unless the format has none (R140). -/
theorem canonNaN_some {F : Format} (h : F.Legal) {s : Bool} {v : Value} (hv : canonNaN F s = some v) :
    v.WF ∧ v.fmt = F ∧ v.s = s ∧ v.cls = .nan := by
  unfold canonNaN at hv
  split at hv
  · simp at hv
  · rename_i hmb
    simp only [Option.some.injEq] at hv
    have he := Format.eall_eq h.1
    subst hv
    refine ⟨⟨h, Format.eall_lt F, ?_⟩, rfl, rfl, ?_⟩
    · exact Nat.pow_lt_pow_right (by norm_num) (by simp only; omega)
    · rw [Value.cls_nan]
      refine ⟨by simp only; omega, rfl, ?_⟩
      simp only [nanMantissa]; positivity

theorem canonNaN_none {F : Format} {s : Bool} : canonNaN F s = none ↔ F.mb = 0 := by
  unfold canonNaN; split <;> simp_all

theorem cls_infOf {F : Format} (h : F.Legal) (s : Bool) : (infOf F s).cls = .infinity := by
  have he := Format.eall_eq h.1
  rw [Value.cls_infinity]
  exact ⟨by simp only [infOf]; omega, rfl, rfl⟩

theorem cls_zeroOf (F : Format) (s : Bool) : (zeroOf F s).cls = .zero := Value.cls_zero.2 ⟨rfl, rfl⟩

/-- Shifting out `k >= 1` bits gives the nearest multiple of `2^k`, and of two equally near the even one (R142). -/
theorem shiftRoundEven_nearest (S : Nat) {k : Nat} (hk : 1 ≤ k) :
    |2 * (S : ℤ) - 2 * shiftRoundEven S k * 2 ^ k| ≤ 2 ^ k ∧
      (|2 * (S : ℤ) - 2 * shiftRoundEven S k * 2 ^ k| = 2 ^ k → Even (shiftRoundEven S k)) := by
  obtain ⟨j, rfl⟩ : ∃ j, k = j + 1 := ⟨k - 1, by omega⟩
  have hd := Nat.div_add_mod S (2 ^ (j + 1))
  have hm := Nat.mod_lt S (show 0 < 2 ^ (j + 1) by positivity)
  unfold shiftRoundEven
  simp only [Nat.add_sub_cancel]
  generalize hN : S / 2 ^ (j + 1) = N0 at *
  generalize hR : S % 2 ^ (j + 1) = R at *
  have hp : (2 : ℤ) ^ (j + 1) = 2 * 2 ^ j := by ring
  have hpn : 2 ^ (j + 1) = 2 * 2 ^ j := by ring
  have hS : (S : ℤ) = 2 * 2 ^ j * N0 + R := by rw [← hd]; push_cast; ring
  rw [hpn] at hm
  have hc : ((2 ^ j : ℕ) : ℤ) = 2 ^ j := by push_cast; rfl
  split
  · rename_i h
    have e : 2 * (S : ℤ) - 2 * ((N0 + 1 : ℕ) : ℤ) * 2 ^ (j + 1) = 2 * R - 4 * 2 ^ j := by
      rw [hS, hp]; push_cast; ring
    rw [e, hp, ← hc]
    refine ⟨by rw [abs_le]; constructor <;> omega, fun h' => ?_⟩
    rcases abs_eq (by positivity) |>.1 h' with h'' | h''
    · omega
    · exact Nat.even_iff.2 (by omega)
  · rename_i h
    have e : 2 * (S : ℤ) - 2 * ((N0 : ℕ) : ℤ) * 2 ^ (j + 1) = 2 * R := by rw [hS, hp]; ring
    rw [e, hp, ← hc]
    refine ⟨by rw [abs_le]; constructor <;> omega, fun h' => ?_⟩
    rcases abs_eq (by positivity) |>.1 h' with h'' | h''
    · exact Nat.even_iff.2 (by omega)
    · exact Nat.even_iff.2 (by omega)

/-- The rounded significand is the integer nearest to the value in units of `2^q`, ties to even (R142). -/
theorem roundSig_nearest (S : Nat) (Q q : ℤ) :
    2 * |(S : ℚ) * 2 ^ Q - roundSig S Q q * 2 ^ q| ≤ 2 ^ q ∧
      (2 * |(S : ℚ) * 2 ^ Q - roundSig S Q q * 2 ^ q| = 2 ^ q → Even (roundSig S Q q)) := by
  have h2 : (2 : ℚ) ≠ 0 := by norm_num
  unfold roundSig
  split
  · rename_i h
    have e : (S : ℚ) * 2 ^ Q - ((S * 2 ^ (Q - q).toNat : ℕ) : ℚ) * 2 ^ q = 0 := by
      have : (2 : ℚ) ^ Q = 2 ^ (Q - q).toNat * 2 ^ q := by
        rw [← zpow_natCast, ← zpow_add₀ h2]; congr 1; omega
      rw [this]; push_cast; ring
    rw [e]
    have : (0 : ℚ) < 2 ^ q := by positivity
    exact ⟨by simp; positivity, fun h' => by simp at h'; linarith⟩
  · rename_i h
    have hk : 1 ≤ (q - Q).toNat := by omega
    obtain ⟨ha, hb⟩ := shiftRoundEven_nearest S hk
    have hq : (2 : ℚ) ^ q = 2 ^ (q - Q).toNat * 2 ^ Q := by
      rw [← zpow_natCast, ← zpow_add₀ h2]; congr 1; omega
    generalize (q - Q).toNat = k at *
    have hpos : (0 : ℚ) < 2 ^ Q := by positivity
    have e : 2 * |(S : ℚ) * 2 ^ Q - (shiftRoundEven S k : ℚ) * 2 ^ q| =
        ((|2 * (S : ℤ) - 2 * shiftRoundEven S k * 2 ^ k| : ℤ) : ℚ) * 2 ^ Q := by
      rw [hq]
      push_cast
      rw [show (S : ℚ) * 2 ^ Q - (shiftRoundEven S k : ℚ) * (2 ^ k * 2 ^ Q) =
        ((S : ℚ) - shiftRoundEven S k * 2 ^ k) * 2 ^ Q by ring, abs_mul, abs_of_pos hpos, ← mul_assoc,
        show (2 : ℚ) * (S : ℚ) - 2 * (shiftRoundEven S k : ℚ) * 2 ^ k =
        2 * ((S : ℚ) - shiftRoundEven S k * 2 ^ k) by ring, abs_mul, abs_of_pos (by norm_num : (0 : ℚ) < 2)]
    rw [e, hq]
    constructor
    · have : ((|2 * (S : ℤ) - 2 * shiftRoundEven S k * 2 ^ k| : ℤ) : ℚ) ≤ ((2 ^ k : ℤ) : ℚ) := by exact_mod_cast ha
      push_cast at this ⊢
      exact mul_le_mul_of_nonneg_right this hpos.le
    · intro h'
      apply hb
      have := mul_right_cancel₀ hpos.ne' h'
      exact_mod_cast this

/-- `q` is no finer than the smallest subnormal (R142). -/
theorem emin_le_ulpExp (F : Format) (S : Nat) (Q : ℤ) : F.emin - F.mb ≤ ulpExp F S Q := by
  simp only [ulpExp]; omega

/-- The rounded significand has at most `mb + 1` bits, or is the carry `2^(mb+1)` (R142). -/
theorem roundSig_le (F : Format) (S : Nat) (Q : ℤ) : roundSig S Q (ulpExp F S Q) ≤ 2 ^ (F.mb + 1) := by
  have hL := lt_two_pow_bitlen S
  have hq : (bitlen S : ℤ) - 1 + Q - F.mb ≤ ulpExp F S Q := by simp only [ulpExp]; omega
  generalize ulpExp F S Q = q at *
  unfold roundSig
  split
  · rename_i h
    calc S * 2 ^ (Q - q).toNat ≤ 2 ^ bitlen S * 2 ^ (Q - q).toNat := Nat.mul_le_mul_right _ hL.le
      _ = 2 ^ (bitlen S + (Q - q).toNat) := by rw [Nat.pow_add]
      _ ≤ 2 ^ (F.mb + 1) := Nat.pow_le_pow_right (by norm_num) (by omega)
  · rename_i h
    have h1 : S / 2 ^ (q - Q).toNat < 2 ^ (F.mb + 1) := by
      apply Nat.div_lt_of_lt_mul
      rw [← Nat.pow_add]
      exact lt_of_lt_of_le hL (Nat.pow_le_pow_right (by norm_num) (by omega))
    unfold shiftRoundEven
    simp only
    split <;> omega

/-- At or above the smallest normal binade the rounded significand is a normal one (R142). -/
theorem le_roundSig_of_normal {F : Format} {S : Nat} {Q : ℤ} (hS : 0 < S)
    (he : F.emin ≤ (bitlen S : ℤ) - 1 + Q) : 2 ^ F.mb ≤ roundSig S Q (ulpExp F S Q) := by
  have hL := two_pow_bitlen_le hS
  have hb := bitlen_pos S
  have hq : ulpExp F S Q = (bitlen S : ℤ) - 1 + Q - F.mb := by simp only [ulpExp]; omega
  generalize ulpExp F S Q = q at *
  unfold roundSig
  split
  · rename_i h
    calc 2 ^ F.mb ≤ 2 ^ (bitlen S - 1 + (Q - q).toNat) := Nat.pow_le_pow_right (by norm_num) (by omega)
      _ = 2 ^ (bitlen S - 1) * 2 ^ (Q - q).toNat := by rw [Nat.pow_add]
      _ ≤ S * 2 ^ (Q - q).toNat := Nat.mul_le_mul_right _ hL
  · rename_i h
    have h1 : 2 ^ F.mb ≤ S / 2 ^ (q - Q).toNat := by
      rw [Nat.le_div_iff_mul_le (by positivity), ← Nat.pow_add]
      exact le_trans (Nat.pow_le_pow_right (by norm_num) (by omega)) hL
    unfold shiftRoundEven
    simp only
    split <;> omega

/-- Below the smallest normal binade the unit is the smallest subnormal (R142). -/
theorem ulpExp_of_lt {F : Format} {S : Nat} {Q : ℤ} (hS : 0 < S)
    (hN : roundSig S Q (ulpExp F S Q) < 2 ^ F.mb) : ulpExp F S Q = F.emin - F.mb := by
  by_contra hne
  have : F.emin ≤ (bitlen S : ℤ) - 1 + Q := by
    simp only [ulpExp] at hne; omega
  have := le_roundSig_of_normal hS this
  omega

/-- The value of a normal result, or infinity (R142). -/
theorem packNormal_spec {F : Format} (hF : F.Legal) (s : Bool) {N : Nat} {q : ℤ} (h1 : 2 ^ F.mb ≤ N)
    (h2 : N < 2 ^ (F.mb + 1)) (hq : F.emin - F.mb ≤ q) :
    (packNormal F s N q).WF ∧ (packNormal F s N q).fmt = F ∧ (packNormal F s N q).s = s ∧
      (((N : ℚ) * 2 ^ q < 2 ^ ((F.bias : ℤ) + 1) ∧
          (packNormal F s N q).val = some (.fin ((if s then -1 else 1) * (N * 2 ^ q)))) ∨
        ((2 : ℚ) ^ ((F.bias : ℤ) + 1) ≤ N * 2 ^ q ∧ packNormal F s N q = infOf F s)) := by
  have he := Format.eall_eq hF.1
  have hlt := Format.eall_lt F
  have hz : (2 : ℚ) ≠ 0 := by norm_num
  have hpow : 2 ^ (F.mb + 1) = 2 * 2 ^ F.mb := by ring
  have hm : (F.emin : ℤ) = 1 - F.bias := rfl
  unfold packNormal
  simp only
  split
  · rename_i h
    refine ⟨infOf_wf hF s, rfl, rfl, Or.inr ⟨?_, rfl⟩⟩
    calc (2 : ℚ) ^ ((F.bias : ℤ) + 1) ≤ 2 ^ ((F.mb : ℤ) + q) := zpow_le_zpow_right₀ (by norm_num) (by omega)
      _ = 2 ^ F.mb * 2 ^ q := by rw [zpow_add₀ hz, zpow_natCast]
      _ ≤ N * 2 ^ q := by gcongr; exact_mod_cast h1
  · rename_i h
    have hE : ((q + F.mb + F.bias).toNat : ℤ) = q + F.mb + F.bias := by omega
    refine ⟨⟨hF, by simp only; omega, by simp only; omega⟩, rfl, rfl, Or.inl ⟨?_, ?_⟩⟩
    · calc (N : ℚ) * 2 ^ q < 2 ^ (F.mb + 1) * 2 ^ q := by gcongr; exact_mod_cast h2
        _ = 2 ^ ((F.mb : ℤ) + 1 + q) := by
          rw [zpow_add₀ hz _ q, ← zpow_natCast]; push_cast; rfl
        _ ≤ 2 ^ ((F.bias : ℤ) + 1) := zpow_le_zpow_right₀ (by norm_num) (by omega)
    · have hc : (Value.mk s (q + F.mb + F.bias).toNat (N - 2 ^ F.mb) F).cls = .normal :=
        Value.cls_normal.2 ⟨by simp only; omega, by simp only; omega⟩
      rw [Value.val_eq_sf (Or.inr hc), Value.sf_of_normal hc]
      simp only [Value.sign, hE]
      rw [Nat.add_sub_cancel' h1, show q + (F.mb : ℤ) + F.bias - F.bias - F.mb = q by ring]

/-- The value that R142 packs: `N` units of `2^q`, or infinity from the first value beyond the format on. -/
theorem packRounded_spec {F : Format} (hF : F.Legal) (s : Bool) {N : Nat} {q : ℤ} (h2 : N ≤ 2 ^ (F.mb + 1))
    (hq : F.emin - F.mb ≤ q) (hsub : N < 2 ^ F.mb → q = F.emin - F.mb) :
    (packRounded F s N q).WF ∧ (packRounded F s N q).fmt = F ∧ (packRounded F s N q).s = s ∧
      (((N : ℚ) * 2 ^ q < 2 ^ ((F.bias : ℤ) + 1) ∧
          (packRounded F s N q).val = some (.fin ((if s then -1 else 1) * (N * 2 ^ q)))) ∨
        ((2 : ℚ) ^ ((F.bias : ℤ) + 1) ≤ N * 2 ^ q ∧ packRounded F s N q = infOf F s)) := by
  have hz : (2 : ℚ) ≠ 0 := by norm_num
  have hpow : 2 ^ (F.mb + 1) = 2 * 2 ^ F.mb := by ring
  unfold packRounded
  split
  · rename_i h
    subst h
    refine ⟨zeroOf_wf hF s, rfl, rfl, Or.inl ⟨by simp; positivity, ?_⟩⟩
    rw [Value.val_of_zero (cls_zeroOf F s)]; simp
  · split
    · rename_i h
      have e : (N : ℚ) * 2 ^ q = ((2 ^ F.mb : ℕ) : ℚ) * 2 ^ (q + 1) := by
        rw [h, zpow_add₀ hz]; push_cast; ring
      rw [e]
      exact packNormal_spec hF s (le_refl _) (by omega) (by omega)
    · split
      · rename_i h h'
        exact packNormal_spec hF s h' (by omega) hq
      · rename_i h0 h h'
        have hq' := hsub (by omega)
        have hc : (Value.mk s 0 N F).cls = .subnormal := Value.cls_subnormal.2 ⟨rfl, h0⟩
        refine ⟨⟨hF, by simp only; positivity, by simp only; omega⟩, rfl, rfl, Or.inl ⟨?_, ?_⟩⟩
        · have hm : (F.emin : ℤ) = 1 - F.bias := rfl
          calc (N : ℚ) * 2 ^ q < 2 ^ F.mb * 2 ^ q := by gcongr; exact_mod_cast (by omega : N < 2 ^ F.mb)
            _ = 2 ^ ((F.mb : ℤ) + q) := by rw [zpow_add₀ hz, zpow_natCast]
            _ ≤ 2 ^ ((F.bias : ℤ) + 1) := zpow_le_zpow_right₀ (by norm_num) (by omega)
        · rw [Value.val_eq_sf (Or.inl hc), Value.sf_of_subnormal hc, hq']
          simp only [Value.sign]

/-- RoundPack (R142) in one statement: with the rounded significand `N` in units of `2^q`, the result is a well-formed
value of the format with the sign asked for; it stands for `N * 2^q`, or is an infinity from `2^(bias+1)` on. -/
theorem roundPack_spec {F : Format} (hF : F.Legal) (s : Bool) {S : Nat} (hS : 0 < S) (Q : ℤ) :
    (roundPack F s S Q).WF ∧ (roundPack F s S Q).fmt = F ∧ (roundPack F s S Q).s = s ∧
      (((roundSig S Q (ulpExp F S Q) : ℚ) * 2 ^ ulpExp F S Q < 2 ^ ((F.bias : ℤ) + 1) ∧
          (roundPack F s S Q).val =
            some (.fin ((if s then -1 else 1) * (roundSig S Q (ulpExp F S Q) * 2 ^ ulpExp F S Q)))) ∨
        ((2 : ℚ) ^ ((F.bias : ℤ) + 1) ≤ roundSig S Q (ulpExp F S Q) * 2 ^ ulpExp F S Q ∧
          roundPack F s S Q = infOf F s)) :=
  packRounded_spec hF s (roundSig_le F S Q) (emin_le_ulpExp F S Q) (ulpExp_of_lt hS)

/-- A significand of at most `mb + 1` bits, in units no finer than the smallest subnormal, is packed as it is: RoundPack
is exact on it, unless it lies beyond the format (R142, R144). -/
theorem roundPack_exact {F : Format} (hF : F.Legal) (s : Bool) {S : Nat} {Q : ℤ} (hS : 0 < S)
    (h1 : S < 2 ^ (F.mb + 1)) (h2 : F.emin - F.mb ≤ Q) (h3 : (S : ℚ) * 2 ^ Q < 2 ^ ((F.bias : ℤ) + 1)) :
    (roundPack F s S Q).val = some (.fin ((if s then -1 else 1) * (S * 2 ^ Q))) := by
  have hb : bitlen S ≤ F.mb + 1 := by
    by_contra h
    have := two_pow_bitlen_le hS
    have : 2 ^ (F.mb + 1) ≤ 2 ^ (bitlen S - 1) := Nat.pow_le_pow_right (by norm_num) (by omega)
    omega
  have hq : ulpExp F S Q ≤ Q := by simp only [ulpExp]; omega
  have e : (roundSig S Q (ulpExp F S Q) : ℚ) * 2 ^ ulpExp F S Q = S * 2 ^ Q := by
    rw [roundSig, if_pos hq]
    push_cast
    rw [mul_assoc, ← zpow_natCast, ← zpow_add₀ (by norm_num)]
    congr 2; omega
  rcases (roundPack_spec hF s hS Q).2.2.2 with ⟨-, h⟩ | ⟨h, -⟩
  · rw [h, e]
  · rw [e] at h; linarith

end Sys2Proof.Machine
end

