-- ==== Sys2Proof/Laws/Grid.lean ====
section
/-! SUPPORT. What the terms of Safety.lean are, once: the operand check field by field (spec/30_encoding.md R75) and the
grid of spec/42_convert.md R143 as arithmetic. -/

namespace Sys2Proof.Machine

/-- The check of R75, field by field, is well-formedness of the value the word stands for. -/
theorem busOK_iff (w : BusWord) : BusOK w ↔ (ofBus w).WF := by
  simp only [BusOK, Value.WF, Format.Legal, ofBus, Config.ebMax, Config.mbMax, busEb, busMb, busE, busM]
  tauto

/-- The bus word of a well-formed value passes the check. -/
theorem busOK_toBus {v : Value} (h : v.WF) : BusOK (toBus v) := by rw [busOK_iff, ofBus_toBus h]; exact h

/-- The grid of R143 as arithmetic: the multiples `n * 2^q` with at most `mb + 1` bits, in units no finer than the smallest
subnormal, up to `2^(bias+1)`. -/
theorem inGrid_iff {F : Format} (hF : F.Legal) (g : ℚ) :
    InGrid F g ↔ |g| ≤ 2 ^ ((F.bias : ℤ) + 1) ∧ ∃ (n : Nat) (q : ℤ), n < 2 ^ (F.mb + 1) ∧ F.emin - F.mb ≤ q ∧
      |g| = n * 2 ^ q := by
  have hm : (F.emin : ℤ) = 1 - F.bias := rfl
  constructor
  · rintro (h | ⟨v, hw, rfl, hv⟩)
    · refine ⟨h.le, 2 ^ F.mb, (F.bias : ℤ) + 1 - F.mb, Nat.pow_lt_pow_right (by norm_num) (by omega), by omega, ?_⟩
      rw [h]; push_cast; rw [← zpow_natCast, ← zpow_add₀ (by norm_num)]; congr 1; omega
    · rcases Value.val_fin_iff.1 hv with ⟨-, rfl⟩ | ⟨hc, rfl⟩
      · exact ⟨by simp; positivity, 0, _, by positivity, le_refl _, by simp⟩
      · obtain ⟨h1, h2, h3, -⟩ := Value.sf_bounds hw hc
        have e : |v.sign * ((v.sf.1 : ℚ) * 2 ^ v.sf.2)| = v.sf.1 * 2 ^ v.sf.2 := by
          rw [abs_mul, Value.abs_sign, one_mul, abs_of_nonneg (by positivity)]
        rw [e]
        exact ⟨(Value.sf_lt hw hc).le, v.sf.1, v.sf.2, h2, h3, rfl⟩
  · rintro ⟨h1, n, q, h2, h3, h4⟩
    rcases h1.lt_or_eq with h1 | h1
    · right
      rcases Nat.eq_zero_or_pos n with rfl | hn
      · refine ⟨zeroOf F false, zeroOf_wf hF _, rfl, ?_⟩
        have : g = 0 := by simpa using h4
        rw [this, Value.val_of_zero (cls_zeroOf F _)]
      · refine ⟨roundPack F (decide (g < 0)) n q, (roundPack_spec hF _ hn q).1, (roundPack_spec hF _ hn q).2.1, ?_⟩
        rw [roundPack_exact hF _ hn h2 h3 (by rw [← h4]; exact h1), ← h4]
        rcases lt_or_ge g 0 with h | h
        · simp [h, abs_of_neg h]
        · simp [not_lt.2 h, abs_of_nonneg h]
    · exact Or.inl h1

/-- RoundPack's multiple of `2^q` is at least as near as every multiple `n * 2^p` of at most `mb + 1` bits in units no finer
than the smallest subnormal, and of two equally near it is the even one (R142, R143), on magnitudes. -/
theorem roundSig_nearest_of_grid (F : Format) {S : Nat} (hS : 0 < S) (Q : ℤ) {n : Nat} {p : ℤ} (h1 : n < 2 ^ (F.mb + 1))
    (h2 : F.emin - F.mb ≤ p) :
    |(S : ℚ) * 2 ^ Q - roundSig S Q (ulpExp F S Q) * 2 ^ ulpExp F S Q| ≤ |(S : ℚ) * 2 ^ Q - n * 2 ^ p| ∧
      (|(S : ℚ) * 2 ^ Q - roundSig S Q (ulpExp F S Q) * 2 ^ ulpExp F S Q| = |(S : ℚ) * 2 ^ Q - n * 2 ^ p| →
        (n : ℚ) * 2 ^ p ≠ roundSig S Q (ulpExp F S Q) * 2 ^ ulpExp F S Q → Even (roundSig S Q (ulpExp F S Q))) := by
  obtain ⟨a, b⟩ := roundSig_nearest S Q (ulpExp F S Q)
  have hlog := log_of_significand hS Q
  have hx : (0 : ℚ) < (S : ℚ) * 2 ^ Q := by have : (0 : ℚ) < S := by exact_mod_cast hS
                                            positivity
  have hu : ulpExp F S Q = max ((bitlen S : ℤ) - 1 + Q) F.emin - F.mb := rfl
  have hlow : (2 : ℚ) ^ ((bitlen S : ℤ) - 1 + Q) ≤ (S : ℚ) * 2 ^ Q := by
    rw [← hlog]; exact_mod_cast Int.zpow_log_le_self (b := 2) (by norm_num) hx
  generalize (S : ℚ) * 2 ^ Q = X at *
  generalize ulpExp F S Q = u at *
  generalize roundSig S Q u = N at *
  have pu : (0 : ℚ) < 2 ^ u := by positivity
  -- the multiples of 2^u
  have mult : ∀ m : Nat, |X - N * 2 ^ u| ≤ |X - m * 2 ^ u| ∧
      (|X - N * 2 ^ u| = |X - m * 2 ^ u| → (m : ℚ) * 2 ^ u ≠ N * 2 ^ u → Even N) := by
    intro m
    rcases eq_or_ne m N with rfl | hne
    · exact ⟨le_refl _, fun _ h => absurd rfl h⟩
    · have hd : (2 : ℚ) ^ u ≤ |(m : ℚ) * 2 ^ u - N * 2 ^ u| := by
        rw [← sub_mul, abs_mul, abs_of_pos pu]
        have : (1 : ℚ) ≤ |(m : ℚ) - N| := by
          have : (1 : ℤ) ≤ |(m : ℤ) - N| := Int.one_le_abs (by omega)
          exact_mod_cast this
        nlinarith
      have ht : |(m : ℚ) * 2 ^ u - N * 2 ^ u| ≤ |X - N * 2 ^ u| + |X - m * 2 ^ u| := by
        have := abs_sub (X - N * 2 ^ u) (X - m * 2 ^ u)
        rwa [show X - N * 2 ^ u - (X - m * 2 ^ u) = (m : ℚ) * 2 ^ u - N * 2 ^ u by ring] at this
      exact ⟨by linarith, fun h _ => b (by linarith)⟩
  rcases le_or_gt u p with hp | hp
  · have e : (n : ℚ) * 2 ^ p = ((n * 2 ^ (p - u).toNat : Nat) : ℚ) * 2 ^ u := by
      push_cast; rw [mul_assoc, ← zpow_natCast, ← zpow_add₀ (by norm_num)]; congr 2; omega
    rw [e]; exact mult _
  · -- a finer unit: everything there is at most 2^e, which is a multiple of 2^u below X
    have hu' : u = (bitlen S : ℤ) - 1 + Q - F.mb := by omega
    have e : ((2 ^ F.mb : Nat) : ℚ) * 2 ^ u = 2 ^ ((bitlen S : ℤ) - 1 + Q) := by
      push_cast; rw [← zpow_natCast, ← zpow_add₀ (by norm_num)]; congr 1; omega
    have hle : (n : ℚ) * 2 ^ p < ((2 ^ F.mb : Nat) : ℚ) * 2 ^ u := by
      calc (n : ℚ) * 2 ^ p < 2 ^ (F.mb + 1) * 2 ^ p := by gcongr; exact_mod_cast h1
        _ = 2 ^ (((F.mb + 1 : Nat) : ℤ) + p) := by rw [zpow_add₀ (by norm_num), zpow_natCast]
        _ ≤ 2 ^ ((F.mb : ℤ) + u) := zpow_le_zpow_right₀ (by norm_num) (by push_cast; omega)
        _ = _ := by rw [zpow_add₀ (by norm_num), zpow_natCast]; push_cast; rfl
    have := (mult (2 ^ F.mb)).1
    rw [e] at this hle
    rw [abs_of_nonneg (a := X - 2 ^ ((bitlen S : ℤ) - 1 + Q)) (by linarith)] at this
    rw [abs_of_nonneg (a := X - n * 2 ^ p) (by linarith)]
    exact ⟨by linarith, fun h _ => by linarith⟩

end Sys2Proof.Machine
end

