-- ==== Sys2Proof/Laws/State.lean ====
section
/-! SUPPORT. One lemma per field per update of the state, each true by unfolding the update once. -/

namespace Sys2Proof.Machine.State

variable (s : State)

@[simp] theorem finish_busy (c : ErrWord) : (s.finish c).busy = false := rfl
@[simp] theorem finish_valid (c : ErrWord) : (s.finish c).valid = true := rfl
@[simp] theorem finish_lcmd (c : ErrWord) : (s.finish c).lcmd = s.lcmd := rfl
@[simp] theorem finish_la (c : ErrWord) : (s.finish c).la = s.la := rfl
@[simp] theorem finish_lb (c : ErrWord) : (s.finish c).lb = s.lb := rfl
@[simp] theorem finish_lraw (c : ErrWord) : (s.finish c).lraw = s.lraw := rfl
@[simp] theorem finish_lf (c : ErrWord) : (s.finish c).lf = s.lf := rfl
@[simp] theorem finish_r (c : ErrWord) : (s.finish c).r = s.r := rfl
@[simp] theorem finish_rawOut (c : ErrWord) : (s.finish c).rawOut = s.rawOut := rfl
@[simp] theorem finish_fOut (c : ErrWord) : (s.finish c).fOut = s.fOut := rfl
@[simp] theorem finish_scal (c : ErrWord) : (s.finish c).scal = s.scal := rfl
@[simp] theorem finish_err (c : ErrWord) : (s.finish c).err = some c := rfl
@[simp] theorem finish_wait (c : ErrWord) : (s.finish c).wait = s.wait := rfl
@[simp] theorem finish_host (c : ErrWord) : (s.finish c).host = s.host := rfl

@[simp] theorem withR_busy (v : Value) : (s.withR v).busy = false := rfl
@[simp] theorem withR_valid (v : Value) : (s.withR v).valid = true := rfl
@[simp] theorem withR_lcmd (v : Value) : (s.withR v).lcmd = s.lcmd := rfl
@[simp] theorem withR_la (v : Value) : (s.withR v).la = s.la := rfl
@[simp] theorem withR_lb (v : Value) : (s.withR v).lb = s.lb := rfl
@[simp] theorem withR_lraw (v : Value) : (s.withR v).lraw = s.lraw := rfl
@[simp] theorem withR_lf (v : Value) : (s.withR v).lf = s.lf := rfl
@[simp] theorem withR_r (v : Value) : (s.withR v).r = some (toBus v) := rfl
@[simp] theorem withR_rawOut (v : Value) : (s.withR v).rawOut = s.rawOut := rfl
@[simp] theorem withR_fOut (v : Value) : (s.withR v).fOut = s.fOut := rfl
@[simp] theorem withR_scal (v : Value) : (s.withR v).scal = s.scal := rfl
@[simp] theorem withR_err (v : Value) : (s.withR v).err = some 0 := rfl
@[simp] theorem withR_wait (v : Value) : (s.withR v).wait = s.wait := rfl
@[simp] theorem withR_host (v : Value) : (s.withR v).host = s.host := rfl

@[simp] theorem withRawOut_busy (w : Word64) : (s.withRawOut w).busy = false := rfl
@[simp] theorem withRawOut_valid (w : Word64) : (s.withRawOut w).valid = true := rfl
@[simp] theorem withRawOut_lcmd (w : Word64) : (s.withRawOut w).lcmd = s.lcmd := rfl
@[simp] theorem withRawOut_la (w : Word64) : (s.withRawOut w).la = s.la := rfl
@[simp] theorem withRawOut_lb (w : Word64) : (s.withRawOut w).lb = s.lb := rfl
@[simp] theorem withRawOut_lraw (w : Word64) : (s.withRawOut w).lraw = s.lraw := rfl
@[simp] theorem withRawOut_lf (w : Word64) : (s.withRawOut w).lf = s.lf := rfl
@[simp] theorem withRawOut_r (w : Word64) : (s.withRawOut w).r = s.r := rfl
@[simp] theorem withRawOut_rawOut (w : Word64) : (s.withRawOut w).rawOut = some w := rfl
@[simp] theorem withRawOut_fOut (w : Word64) : (s.withRawOut w).fOut = s.fOut := rfl
@[simp] theorem withRawOut_scal (w : Word64) : (s.withRawOut w).scal = s.scal := rfl
@[simp] theorem withRawOut_err (w : Word64) : (s.withRawOut w).err = some 0 := rfl
@[simp] theorem withRawOut_wait (w : Word64) : (s.withRawOut w).wait = s.wait := rfl
@[simp] theorem withRawOut_host (w : Word64) : (s.withRawOut w).host = s.host := rfl

@[simp] theorem withFOut_busy (w : Word64) : (s.withFOut w).busy = false := rfl
@[simp] theorem withFOut_valid (w : Word64) : (s.withFOut w).valid = true := rfl
@[simp] theorem withFOut_lcmd (w : Word64) : (s.withFOut w).lcmd = s.lcmd := rfl
@[simp] theorem withFOut_la (w : Word64) : (s.withFOut w).la = s.la := rfl
@[simp] theorem withFOut_lb (w : Word64) : (s.withFOut w).lb = s.lb := rfl
@[simp] theorem withFOut_lraw (w : Word64) : (s.withFOut w).lraw = s.lraw := rfl
@[simp] theorem withFOut_lf (w : Word64) : (s.withFOut w).lf = s.lf := rfl
@[simp] theorem withFOut_r (w : Word64) : (s.withFOut w).r = s.r := rfl
@[simp] theorem withFOut_rawOut (w : Word64) : (s.withFOut w).rawOut = s.rawOut := rfl
@[simp] theorem withFOut_fOut (w : Word64) : (s.withFOut w).fOut = some w := rfl
@[simp] theorem withFOut_scal (w : Word64) : (s.withFOut w).scal = s.scal := rfl
@[simp] theorem withFOut_err (w : Word64) : (s.withFOut w).err = some 0 := rfl
@[simp] theorem withFOut_wait (w : Word64) : (s.withFOut w).wait = s.wait := rfl
@[simp] theorem withFOut_host (w : Word64) : (s.withFOut w).host = s.host := rfl

@[simp] theorem withScal_busy (w : ScalWord) : (s.withScal w).busy = false := rfl
@[simp] theorem withScal_valid (w : ScalWord) : (s.withScal w).valid = true := rfl
@[simp] theorem withScal_lcmd (w : ScalWord) : (s.withScal w).lcmd = s.lcmd := rfl
@[simp] theorem withScal_la (w : ScalWord) : (s.withScal w).la = s.la := rfl
@[simp] theorem withScal_lb (w : ScalWord) : (s.withScal w).lb = s.lb := rfl
@[simp] theorem withScal_lraw (w : ScalWord) : (s.withScal w).lraw = s.lraw := rfl
@[simp] theorem withScal_lf (w : ScalWord) : (s.withScal w).lf = s.lf := rfl
@[simp] theorem withScal_r (w : ScalWord) : (s.withScal w).r = s.r := rfl
@[simp] theorem withScal_rawOut (w : ScalWord) : (s.withScal w).rawOut = s.rawOut := rfl
@[simp] theorem withScal_fOut (w : ScalWord) : (s.withScal w).fOut = s.fOut := rfl
@[simp] theorem withScal_scal (w : ScalWord) : (s.withScal w).scal = some w := rfl
@[simp] theorem withScal_err (w : ScalWord) : (s.withScal w).err = some 0 := rfl
@[simp] theorem withScal_wait (w : ScalWord) : (s.withScal w).wait = s.wait := rfl
@[simp] theorem withScal_host (w : ScalWord) : (s.withScal w).host = s.host := rfl

@[simp] theorem withError_busy (e : CmdError) : (s.withError e).busy = false := rfl
@[simp] theorem withError_valid (e : CmdError) : (s.withError e).valid = true := rfl
@[simp] theorem withError_lcmd (e : CmdError) : (s.withError e).lcmd = s.lcmd := rfl
@[simp] theorem withError_la (e : CmdError) : (s.withError e).la = s.la := rfl
@[simp] theorem withError_lb (e : CmdError) : (s.withError e).lb = s.lb := rfl
@[simp] theorem withError_lraw (e : CmdError) : (s.withError e).lraw = s.lraw := rfl
@[simp] theorem withError_lf (e : CmdError) : (s.withError e).lf = s.lf := rfl
@[simp] theorem withError_r (e : CmdError) : (s.withError e).r = s.r := rfl
@[simp] theorem withError_rawOut (e : CmdError) : (s.withError e).rawOut = s.rawOut := rfl
@[simp] theorem withError_fOut (e : CmdError) : (s.withError e).fOut = s.fOut := rfl
@[simp] theorem withError_scal (e : CmdError) : (s.withError e).scal = some e.info := rfl
@[simp] theorem withError_err (e : CmdError) : (s.withError e).err = some e.code := rfl
@[simp] theorem withError_wait (e : CmdError) : (s.withError e).wait = s.wait := rfl
@[simp] theorem withError_host (e : CmdError) : (s.withError e).host = s.host := rfl

@[simp] theorem later_busy : (s.later).busy = s.busy := rfl
@[simp] theorem later_valid : (s.later).valid = s.valid := rfl
@[simp] theorem later_lcmd : (s.later).lcmd = s.lcmd := rfl
@[simp] theorem later_la : (s.later).la = s.la := rfl
@[simp] theorem later_lb : (s.later).lb = s.lb := rfl
@[simp] theorem later_lraw : (s.later).lraw = s.lraw := rfl
@[simp] theorem later_lf : (s.later).lf = s.lf := rfl
@[simp] theorem later_r : (s.later).r = s.r := rfl
@[simp] theorem later_rawOut : (s.later).rawOut = s.rawOut := rfl
@[simp] theorem later_fOut : (s.later).fOut = s.fOut := rfl
@[simp] theorem later_scal : (s.later).scal = s.scal := rfl
@[simp] theorem later_err : (s.later).err = s.err := rfl
@[simp] theorem later_wait : (s.later).wait = s.wait := rfl
@[simp] theorem later_host : (s.later).host = s.host.tail := rfl

@[simp] theorem clearResults_busy : (s.clearResults).busy = s.busy := rfl
@[simp] theorem clearResults_valid : (s.clearResults).valid = s.valid := rfl
@[simp] theorem clearResults_lcmd : (s.clearResults).lcmd = s.lcmd := rfl
@[simp] theorem clearResults_la : (s.clearResults).la = s.la := rfl
@[simp] theorem clearResults_lb : (s.clearResults).lb = s.lb := rfl
@[simp] theorem clearResults_lraw : (s.clearResults).lraw = s.lraw := rfl
@[simp] theorem clearResults_lf : (s.clearResults).lf = s.lf := rfl
@[simp] theorem clearResults_r : (s.clearResults).r = none := rfl
@[simp] theorem clearResults_rawOut : (s.clearResults).rawOut = none := rfl
@[simp] theorem clearResults_fOut : (s.clearResults).fOut = none := rfl
@[simp] theorem clearResults_scal : (s.clearResults).scal = none := rfl
@[simp] theorem clearResults_err : (s.clearResults).err = none := rfl
@[simp] theorem clearResults_wait : (s.clearResults).wait = s.wait := rfl
@[simp] theorem clearResults_host : (s.clearResults).host = s.host := rfl

@[simp] theorem resetEdge_busy : (s.resetEdge).busy = false := rfl
@[simp] theorem resetEdge_valid : (s.resetEdge).valid = false := rfl
@[simp] theorem resetEdge_lcmd : (s.resetEdge).lcmd = 0 := rfl
@[simp] theorem resetEdge_la : (s.resetEdge).la = 0 := rfl
@[simp] theorem resetEdge_lb : (s.resetEdge).lb = 0 := rfl
@[simp] theorem resetEdge_lraw : (s.resetEdge).lraw = 0 := rfl
@[simp] theorem resetEdge_lf : (s.resetEdge).lf = 0 := rfl
@[simp] theorem resetEdge_r : (s.resetEdge).r = none := rfl
@[simp] theorem resetEdge_rawOut : (s.resetEdge).rawOut = none := rfl
@[simp] theorem resetEdge_fOut : (s.resetEdge).fOut = none := rfl
@[simp] theorem resetEdge_scal : (s.resetEdge).scal = none := rfl
@[simp] theorem resetEdge_err : (s.resetEdge).err = none := rfl
@[simp] theorem resetEdge_wait : (s.resetEdge).wait = 0 := rfl
@[simp] theorem resetEdge_host : (s.resetEdge).host = s.host := rfl

@[simp] theorem issueEdge_busy (e : HostEdge) : (s.issueEdge e).busy = true := rfl
@[simp] theorem issueEdge_valid (e : HostEdge) : (s.issueEdge e).valid = false := rfl
@[simp] theorem issueEdge_lcmd (e : HostEdge) : (s.issueEdge e).lcmd = e.cmd := rfl
@[simp] theorem issueEdge_la (e : HostEdge) : (s.issueEdge e).la = e.a := rfl
@[simp] theorem issueEdge_lb (e : HostEdge) : (s.issueEdge e).lb = e.b := rfl
@[simp] theorem issueEdge_lraw (e : HostEdge) : (s.issueEdge e).lraw = e.rawIn := rfl
@[simp] theorem issueEdge_lf (e : HostEdge) : (s.issueEdge e).lf = e.fIn := rfl
@[simp] theorem issueEdge_r (e : HostEdge) : (s.issueEdge e).r = none := rfl
@[simp] theorem issueEdge_rawOut (e : HostEdge) : (s.issueEdge e).rawOut = none := rfl
@[simp] theorem issueEdge_fOut (e : HostEdge) : (s.issueEdge e).fOut = none := rfl
@[simp] theorem issueEdge_scal (e : HostEdge) : (s.issueEdge e).scal = none := rfl
@[simp] theorem issueEdge_err (e : HostEdge) : (s.issueEdge e).err = none := rfl
@[simp] theorem issueEdge_wait (e : HostEdge) : (s.issueEdge e).wait = Config.extraLatency e.cmd e.a e.b e.rawIn e.fIn := rfl
@[simp] theorem issueEdge_host (e : HostEdge) : (s.issueEdge e).host = s.host := rfl

@[simp] theorem waitEdge_busy (n : Nat) : (s.waitEdge n).busy = s.busy := rfl
@[simp] theorem waitEdge_valid (n : Nat) : (s.waitEdge n).valid = s.valid := rfl
@[simp] theorem waitEdge_lcmd (n : Nat) : (s.waitEdge n).lcmd = s.lcmd := rfl
@[simp] theorem waitEdge_la (n : Nat) : (s.waitEdge n).la = s.la := rfl
@[simp] theorem waitEdge_lb (n : Nat) : (s.waitEdge n).lb = s.lb := rfl
@[simp] theorem waitEdge_lraw (n : Nat) : (s.waitEdge n).lraw = s.lraw := rfl
@[simp] theorem waitEdge_lf (n : Nat) : (s.waitEdge n).lf = s.lf := rfl
@[simp] theorem waitEdge_r (n : Nat) : (s.waitEdge n).r = s.r := rfl
@[simp] theorem waitEdge_rawOut (n : Nat) : (s.waitEdge n).rawOut = s.rawOut := rfl
@[simp] theorem waitEdge_fOut (n : Nat) : (s.waitEdge n).fOut = s.fOut := rfl
@[simp] theorem waitEdge_scal (n : Nat) : (s.waitEdge n).scal = s.scal := rfl
@[simp] theorem waitEdge_err (n : Nat) : (s.waitEdge n).err = s.err := rfl
@[simp] theorem waitEdge_wait (n : Nat) : (s.waitEdge n).wait = n := rfl
@[simp] theorem waitEdge_host (n : Nat) : (s.waitEdge n).host = s.host := rfl

@[simp] theorem inFlight_busy (w : CmdWord) : (s.inFlight w).busy = true := rfl
@[simp] theorem inFlight_valid (w : CmdWord) : (s.inFlight w).valid = false := rfl
@[simp] theorem inFlight_lcmd (w : CmdWord) : (s.inFlight w).lcmd = w := rfl
@[simp] theorem inFlight_la (w : CmdWord) : (s.inFlight w).la = s.la := rfl
@[simp] theorem inFlight_lb (w : CmdWord) : (s.inFlight w).lb = s.lb := rfl
@[simp] theorem inFlight_lraw (w : CmdWord) : (s.inFlight w).lraw = s.lraw := rfl
@[simp] theorem inFlight_lf (w : CmdWord) : (s.inFlight w).lf = s.lf := rfl
@[simp] theorem inFlight_r (w : CmdWord) : (s.inFlight w).r = none := rfl
@[simp] theorem inFlight_rawOut (w : CmdWord) : (s.inFlight w).rawOut = none := rfl
@[simp] theorem inFlight_fOut (w : CmdWord) : (s.inFlight w).fOut = none := rfl
@[simp] theorem inFlight_scal (w : CmdWord) : (s.inFlight w).scal = none := rfl
@[simp] theorem inFlight_err (w : CmdWord) : (s.inFlight w).err = none := rfl
@[simp] theorem inFlight_wait (w : CmdWord) : (s.inFlight w).wait = 0 := rfl
@[simp] theorem inFlight_host (w : CmdWord) : (s.inFlight w).host = HostEdge.idle :: s.host := rfl

end Sys2Proof.Machine.State
end

