-- ==== Sys2Proof/Laws/Ops.lean ====
section
/-! SUPPORT. What the shared operations and each command can do, once: a command always completes, with a result on the
register it names or with an error report (spec/10_state.md R29, spec/60_exceptions.md R235, R236). -/

namespace Sys2Proof.Machine

variable {s : State}

theorem withA_of_wf (h : (ofBus s.la).WF) (k : Value → Result) : withA s k = k (ofBus s.la) := if_pos h

theorem withA_of_not_wf (h : ¬ (ofBus s.la).WF) (k : Value → Result) :
    withA s k = raiseError .invalidOperandA s := if_neg h

theorem withAB_of_wf (ha : (ofBus s.la).WF) (hb : (ofBus s.lb).WF) (k : Value → Value → Result) :
    withAB s k = k (ofBus s.la) (ofBus s.lb) := by rw [withAB, withA_of_wf ha, if_pos hb]

theorem withAB_of_not_wf_a (ha : ¬ (ofBus s.la).WF) (k : Value → Value → Result) :
    withAB s k = raiseError .invalidOperandA s := by rw [withAB, withA_of_not_wf ha]

theorem withAB_of_not_wf_b (ha : (ofBus s.la).WF) (hb : ¬ (ofBus s.lb).WF) (k : Value → Value → Result) :
    withAB s k = raiseError .invalidOperandB s := by rw [withAB, withA_of_wf ha, if_neg hb]

/-- How a command ended: with a value on R, a word on RAW_OUT or F_OUT, a scalar on SCAL, or an error report. -/
inductive Ending
  | value (v : Value)
  | raw (w : Word64)
  | binary64 (w : Word64)
  | scalar (w : ScalWord)
  | error (e : CmdError)

/-- The state an ending leaves. -/
def Ending.apply : Ending → State → State
  | .value v, s => s.withR v
  | .raw w, s => s.withRawOut w
  | .binary64 w, s => s.withFOut w
  | .scalar w, s => s.withScal w
  | .error e, s => s.withError e

/-- What an ending of the command `i` may be: the result stands on the register `i` names (spec/30 R86), a value result
is well-formed, a scalar result is at most 52 (R79). -/
def Ending.Fits (i : Instr) : Ending → Prop
  | .value v => i.writes = .r ∧ v.WF
  | .raw _ => i.writes = .rawOut
  | .binary64 _ => i.writes = .fOut
  | .scalar w => i.writes = .scal ∧ w.toNat ≤ 52
  | .error e => e ≠ .illegalCmd

theorem promote_legal {a b : Value} (ha : a.WF) (hb : b.WF) : (promote a b).Legal := by
  obtain ⟨⟨h1, h2, h3⟩, -⟩ := ha
  obtain ⟨⟨g1, g2, g3⟩, -⟩ := hb
  exact ⟨by simp only [promote]; omega, by simp only [promote]; omega, by simp only [promote]; omega⟩

theorem promote_flipSign (a b : Value) : promote a b.flipSign = promote a b := rfl

/-- FROMF's value is a well-formed value of the target format, with the sign of its input (spec/42 R145). -/
theorem convertTo_wf {F : Format} (hF : F.Legal) {x v : Value} (hx : x.WF) (h : convertTo F x = some v) :
    v.WF ∧ v.fmt = F ∧ v.s = x.s := by
  unfold convertTo at h
  split at h
  · exact let c := canonNaN_some hF h; ⟨c.1, c.2.1, c.2.2.1⟩
  · obtain rfl := Option.some.inj h; exact ⟨infOf_wf hF _, rfl, rfl⟩
  · obtain rfl := Option.some.inj h; exact ⟨zeroOf_wf hF _, rfl, rfl⟩
  · rename_i hc
    obtain rfl := Option.some.inj h
    have := roundPack_spec hF x.s (Value.sf_bounds hx (Or.inl hc)).1 x.sf.2
    exact ⟨this.1, this.2.1, this.2.2.1⟩
  · rename_i hc
    obtain rfl := Option.some.inj h
    have := roundPack_spec hF x.s (Value.sf_bounds hx (Or.inr hc)).1 x.sf.2
    exact ⟨this.1, this.2.1, this.2.2.1⟩

theorem addFinite_wf {a b : Value} (ha : a.WF) (hb : b.WF) :
    (addFinite a b).WF ∧ (addFinite a b).fmt = promote a b := by
  unfold addFinite
  simp only
  split
  · exact ⟨zeroOf_wf (promote_legal ha hb) _, rfl⟩
  · rename_i h
    have := roundPack_spec (promote_legal ha hb)
      (decide (alignedSig (alignExp a b) a + alignedSig (alignExp a b) b < 0)) (Int.natAbs_pos.2 h) (alignExp a b)
    exact ⟨this.1, this.2.1⟩

/-- ADD's value is a well-formed value of the promoted format (spec/44 R190, R197). -/
theorem addValue_wf {a b v : Value} (ha : a.WF) (hb : b.WF) (h : addValue a b = some v) :
    v.WF ∧ v.fmt = promote a b := by
  have hP := promote_legal ha hb
  have hn : ∀ {v}, canonNaN (promote a b) false = some v → v.WF ∧ v.fmt = promote a b := fun h =>
    let c := canonNaN_some hP h; ⟨c.1, c.2.1⟩
  unfold addValue at h
  simp only at h
  split at h
  · exact hn h
  · exact hn h
  · split at h
    · obtain rfl := Option.some.inj h; exact ⟨infOf_wf hP _, rfl⟩
    · exact hn h
  · obtain rfl := Option.some.inj h; exact ⟨infOf_wf hP _, rfl⟩
  · obtain rfl := Option.some.inj h; exact ⟨infOf_wf hP _, rfl⟩
  · obtain rfl := Option.some.inj h; exact ⟨zeroOf_wf hP _, rfl⟩
  · obtain rfl := Option.some.inj h; exact addFinite_wf ha hb

/-- MUL's value is a well-formed value of the promoted format (spec/44 R190, R197). -/
theorem mulValue_wf {a b v : Value} (ha : a.WF) (hb : b.WF) (h : mulValue a b = some v) :
    v.WF ∧ v.fmt = promote a b := by
  have hP := promote_legal ha hb
  have hn : ∀ {v}, canonNaN (promote a b) false = some v → v.WF ∧ v.fmt = promote a b := fun h =>
    let c := canonNaN_some hP h; ⟨c.1, c.2.1⟩
  unfold mulValue at h
  simp only at h
  split at h
  · exact hn h
  · exact hn h
  · exact hn h
  · exact hn h
  · obtain rfl := Option.some.inj h; exact ⟨infOf_wf hP _, rfl⟩
  · obtain rfl := Option.some.inj h; exact ⟨infOf_wf hP _, rfl⟩
  · obtain rfl := Option.some.inj h; exact ⟨zeroOf_wf hP _, rfl⟩
  · obtain rfl := Option.some.inj h; exact ⟨zeroOf_wf hP _, rfl⟩
  · obtain rfl := Option.some.inj h
    have hfin : (a.cls = .subnormal ∨ a.cls = .normal) ∧ (b.cls = .subnormal ∨ b.cls = .normal) := by
      cases h1 : a.cls <;> cases h2 : b.cls <;> simp_all
    have pa := (Value.sf_bounds ha hfin.1).1
    have pb := (Value.sf_bounds hb hfin.2).1
    have := roundPack_spec hP (a.s ^^ b.s) (Nat.mul_pos pa pb) (a.sf.2 + b.sf.2)
    exact ⟨this.1, this.2.1⟩

theorem boolScal_le (c : Bool) : (boolScal c).toNat ≤ 52 := by cases c <;> decide

theorem class_code_le (c : Class) : c.code.toNat ≤ 52 := by cases c <;> decide

/-- Every command completes, in one of its endings (R235, R236; spec/30 R86). -/
theorem exec_ends (i : Instr) (s : State) : ∃ t : Ending, t.Fits i ∧ exec i s = .next (t.apply s) := by
  have err : ∀ e, e ≠ CmdError.illegalCmd → ∃ t : Ending, t.Fits i ∧ raiseError e s = .next (t.apply s) :=
    fun e he => ⟨.error e, he, rfl⟩
  have onA : ∀ k : Value → Result,
      ((ofBus s.la).WF → ∃ t : Ending, t.Fits i ∧ k (ofBus s.la) = .next (t.apply s)) →
      ∃ t : Ending, t.Fits i ∧ withA s k = .next (t.apply s) := by
    intro k hk
    by_cases ha : (ofBus s.la).WF
    · rw [withA_of_wf ha]; exact hk ha
    · rw [withA_of_not_wf ha]; exact err _ (by decide)
  have onAB : ∀ k : Value → Value → Result,
      ((ofBus s.la).WF → (ofBus s.lb).WF → ∃ t : Ending, t.Fits i ∧ k (ofBus s.la) (ofBus s.lb) = .next (t.apply s)) →
      ∃ t : Ending, t.Fits i ∧ withAB s k = .next (t.apply s) := by
    intro k hk
    refine onA _ fun ha => ?_
    by_cases hb : (ofBus s.lb).WF
    · rw [if_pos hb]; exact hk ha hb
    · rw [if_neg hb]; exact err _ (by decide)
  have orNaN : i.writes = .r → ∀ o : Option Value, (∀ v, o = some v → v.WF) →
      ∃ t : Ending, t.Fits i ∧ answerOrNoNaN o s = .next (t.apply s) := by
    intro hi o ho
    cases o with
    | none => exact err _ (by decide)
    | some v => exact ⟨.value v, ⟨hi, ho v rfl⟩, rfl⟩
  have width : ∀ {F : Format}, F.Legal → F.eb ≤ 11 ∧ F.mb ≤ 52 := fun h => ⟨h.2.1, h.2.2⟩
  cases i with
  | decode teb tmb =>
    simp only [exec, execDecode]
    split
    · exact err _ (by decide)
    · rename_i h
      split
      · exact err _ (by decide)
      · exact ⟨.value _, ⟨rfl, split_wf (not_not.1 h) _⟩, rfl⟩
  | fromf teb tmb =>
    simp only [exec, execFromf]
    split
    · exact err _ (by decide)
    · rename_i h
      exact orNaN rfl _ fun v hv =>
        (convertTo_wf (not_not.1 h) (split_wf (by decide : F64.Legal) _) hv).1
  | encode =>
    simp only [exec, execEncode]
    exact onA _ fun _ => ⟨.raw _, rfl, rfl⟩
  | tof =>
    simp only [exec, execTof]
    exact onA _ fun _ => ⟨.binary64 _, rfl, rfl⟩
  | neg =>
    simp only [exec, execNeg]
    exact onA _ fun ha => ⟨.value _, ⟨rfl, Value.flipSign_wf ha⟩, rfl⟩
  | abs =>
    simp only [exec, execAbs]
    exact onA _ fun ha => ⟨.value _, ⟨rfl, Value.clearSign_wf ha⟩, rfl⟩
  | classify =>
    simp only [exec, execClassify]
    exact onA _ fun _ => ⟨.scalar _, ⟨rfl, class_code_le _⟩, rfl⟩
  | isnan =>
    simp only [exec, execIsnan]
    exact onA _ fun _ => ⟨.scalar _, ⟨rfl, boolScal_le _⟩, rfl⟩
  | isinf =>
    simp only [exec, execIsinf]
    exact onA _ fun _ => ⟨.scalar _, ⟨rfl, boolScal_le _⟩, rfl⟩
  | iszero =>
    simp only [exec, execIszero]
    exact onA _ fun _ => ⟨.scalar _, ⟨rfl, boolScal_le _⟩, rfl⟩
  | signneg =>
    simp only [exec, execSignneg]
    exact onA _ fun _ => ⟨.scalar _, ⟨rfl, boolScal_le _⟩, rfl⟩
  | getsign =>
    simp only [exec, execGetsign]
    exact onA _ fun _ => ⟨.scalar _, ⟨rfl, boolScal_le _⟩, rfl⟩
  | geteb =>
    simp only [exec, execGeteb]
    refine onA _ fun ha => ⟨.scalar _, ⟨rfl, ?_⟩, rfl⟩
    have := width ha.1
    rw [BitVec.toNat_ofNat]; omega
  | getmb =>
    simp only [exec, execGetmb]
    refine onA _ fun ha => ⟨.scalar _, ⟨rfl, ?_⟩, rfl⟩
    have := width ha.1
    rw [BitVec.toNat_ofNat]; omega
  | add =>
    simp only [exec, execAdd]
    exact onAB _ fun ha hb => orNaN rfl _ fun v hv => (addValue_wf ha hb hv).1
  | sub =>
    simp only [exec, execSub]
    exact onAB _ fun ha hb => orNaN rfl _ fun v hv => (addValue_wf ha (Value.flipSign_wf hb) hv).1
  | mul =>
    simp only [exec, execMul]
    exact onAB _ fun ha hb => orNaN rfl _ fun v hv => (mulValue_wf ha hb hv).1
  | cmpeq =>
    simp only [exec, execCmpeq]
    exact onAB _ fun _ _ => ⟨.scalar _, ⟨rfl, boolScal_le _⟩, rfl⟩
  | cmpne =>
    simp only [exec, execCmpne]
    exact onAB _ fun _ _ => ⟨.scalar _, ⟨rfl, boolScal_le _⟩, rfl⟩
  | cmplt =>
    simp only [exec, execCmplt]
    exact onAB _ fun _ _ => ⟨.scalar _, ⟨rfl, boolScal_le _⟩, rfl⟩
  | cmpgt =>
    simp only [exec, execCmpgt]
    exact onAB _ fun _ _ => ⟨.scalar _, ⟨rfl, boolScal_le _⟩, rfl⟩
  | cmple =>
    simp only [exec, execCmple]
    exact onAB _ fun _ _ => ⟨.scalar _, ⟨rfl, boolScal_le _⟩, rfl⟩
  | cmpge =>
    simp only [exec, execCmpge]
    exact onAB _ fun _ _ => ⟨.scalar _, ⟨rfl, boolScal_le _⟩, rfl⟩

/-- A value result that may be the NaN of a format without NaN, as an ending. -/
def Ending.ofOption : Option Value → Ending
  | some v => .value v
  | none => .error .nanUnrepresentable

/-- An ending that needs operand A. -/
def Ending.onA (la : BusWord) (k : Value → Ending) : Ending :=
  if (ofBus la).WF then k (ofBus la) else .error .invalidOperandA

/-- An ending that needs operands A and B. -/
def Ending.onAB (la lb : BusWord) (k : Value → Value → Ending) : Ending :=
  Ending.onA la fun a => if (ofBus lb).WF then k a (ofBus lb) else .error .invalidOperandB

/-- `Exec` as the pure function of the latches that spec/10 R33 says it is. -/
def endingOf (la lb : BusWord) (lraw lf : Word64) : Instr → Ending
  | .decode teb tmb =>
    if ¬ (Format.mk teb tmb).Legal then .error .illegalWidths
    else if lraw.toNat ≥ 2 ^ (Format.mk teb tmb).width then .error .rawTooWide
    else .value (split lraw.toNat ⟨teb, tmb⟩)
  | .encode => .onA la fun a => .raw (rawWord a)
  | .classify => .onA la fun a => .scalar a.cls.code
  | .isnan => .onA la fun a => .scalar (boolScal (decide (a.cls = .nan)))
  | .isinf => .onA la fun a => .scalar (boolScal (decide (a.cls = .infinity)))
  | .iszero => .onA la fun a => .scalar (boolScal (decide (a.cls = .zero)))
  | .signneg => .onA la fun a => .scalar (boolScal a.s)
  | .getsign => .onA la fun a => .scalar (boolScal a.s)
  | .geteb => .onA la fun a => .scalar (BitVec.ofNat 8 a.fmt.eb)
  | .getmb => .onA la fun a => .scalar (BitVec.ofNat 8 a.fmt.mb)
  | .fromf teb tmb =>
    if ¬ (Format.mk teb tmb).Legal then .error .illegalWidths
    else .ofOption (convertTo ⟨teb, tmb⟩ (ofBinary64 lf))
  | .tof => .onA la fun a => .binary64 (toBinary64 a)
  | .neg => .onA la fun a => .value a.flipSign
  | .abs => .onA la fun a => .value a.clearSign
  | .add => .onAB la lb fun a b => .ofOption (addValue a b)
  | .sub => .onAB la lb fun a b => .ofOption (addValue a b.flipSign)
  | .mul => .onAB la lb fun a b => .ofOption (mulValue a b)
  | .cmpeq => .onAB la lb fun a b => .scalar (boolScal (compareX (fun x y => decide (x = y)) a b))
  | .cmpne => .onAB la lb fun a b => .scalar (boolScal (compareX (fun x y => decide (x ≠ y)) a b))
  | .cmplt => .onAB la lb fun a b => .scalar (boolScal (compareX (fun x y => x.lt y) a b))
  | .cmpgt => .onAB la lb fun a b => .scalar (boolScal (compareX (fun x y => y.lt x) a b))
  | .cmple => .onAB la lb fun a b => .scalar (boolScal (compareX (fun x y => x.lt y || decide (x = y)) a b))
  | .cmpge => .onAB la lb fun a b => .scalar (boolScal (compareX (fun x y => y.lt x || decide (x = y)) a b))

theorem answerOrNoNaN_eq (v : Option Value) (s : State) :
    answerOrNoNaN v s = .next ((Ending.ofOption v).apply s) := by cases v <;> rfl

/-- Every command completes with the ending that the latches alone determine (spec/10 R33, spec/60 R236). -/
theorem exec_eq (i : Instr) (s : State) :
    exec i s = .next ((endingOf s.la s.lb s.lraw s.lf i).apply s) := by
  cases i with
  | decode teb tmb =>
    simp only [exec, execDecode, endingOf]
    split
    · rfl
    · split <;> rfl
  | fromf teb tmb =>
    simp only [exec, execFromf, endingOf]
    split
    · rfl
    · exact answerOrNoNaN_eq _ _
  | add =>
    simp only [exec, execAdd, withAB, withA, endingOf, Ending.onAB, Ending.onA, answerOrNoNaN_eq]
    split
    · split <;> rfl
    · rfl
  | sub =>
    simp only [exec, execSub, withAB, withA, endingOf, Ending.onAB, Ending.onA, answerOrNoNaN_eq]
    split
    · split <;> rfl
    · rfl
  | mul =>
    simp only [exec, execMul, withAB, withA, endingOf, Ending.onAB, Ending.onA, answerOrNoNaN_eq]
    split
    · split <;> rfl
    · rfl
  | cmpeq =>
    simp only [exec, execCmpeq, withAB, withA, endingOf, Ending.onAB, Ending.onA]
    split
    · split <;> rfl
    · rfl
  | cmpne =>
    simp only [exec, execCmpne, withAB, withA, endingOf, Ending.onAB, Ending.onA]
    split
    · split <;> rfl
    · rfl
  | cmplt =>
    simp only [exec, execCmplt, withAB, withA, endingOf, Ending.onAB, Ending.onA]
    split
    · split <;> rfl
    · rfl
  | cmpgt =>
    simp only [exec, execCmpgt, withAB, withA, endingOf, Ending.onAB, Ending.onA]
    split
    · split <;> rfl
    · rfl
  | cmple =>
    simp only [exec, execCmple, withAB, withA, endingOf, Ending.onAB, Ending.onA]
    split
    · split <;> rfl
    · rfl
  | cmpge =>
    simp only [exec, execCmpge, withAB, withA, endingOf, Ending.onAB, Ending.onA]
    split
    · split <;> rfl
    · rfl
  | encode => simp only [exec, execEncode, withA, endingOf, Ending.onA]; split <;> rfl
  | classify => simp only [exec, execClassify, withA, endingOf, Ending.onA]; split <;> rfl
  | isnan => simp only [exec, execIsnan, withA, endingOf, Ending.onA]; split <;> rfl
  | isinf => simp only [exec, execIsinf, withA, endingOf, Ending.onA]; split <;> rfl
  | iszero => simp only [exec, execIszero, withA, endingOf, Ending.onA]; split <;> rfl
  | signneg => simp only [exec, execSignneg, withA, endingOf, Ending.onA]; split <;> rfl
  | getsign => simp only [exec, execGetsign, withA, endingOf, Ending.onA]; split <;> rfl
  | geteb => simp only [exec, execGeteb, withA, endingOf, Ending.onA]; split <;> rfl
  | getmb => simp only [exec, execGetmb, withA, endingOf, Ending.onA]; split <;> rfl
  | tof => simp only [exec, execTof, withA, endingOf, Ending.onA]; split <;> rfl
  | neg => simp only [exec, execNeg, withA, endingOf, Ending.onA]; split <;> rfl
  | abs => simp only [exec, execAbs, withA, endingOf, Ending.onA]; split <;> rfl

/-- COMPLETE always ends in a next state: the command's ending, or the report of an illegal word (R236). -/
theorem complete_ends (s : State) :
    (∃ i t, decode s.lcmd = .ok i ∧ Ending.Fits i t ∧ complete s = .next (t.apply s)) ∨
      (∃ e, decode s.lcmd = .error e) ∧ complete s = .next (s.withError .illegalCmd) := by
  unfold complete
  split
  · rename_i i h
    obtain ⟨t, ht, he⟩ := exec_ends i s
    exact Or.inl ⟨i, t, h, ht, he⟩
  · rename_i e h
    exact Or.inr ⟨⟨e, h⟩, rfl⟩

end Sys2Proof.Machine
end

