-- ==== Sys2Proof/Laws/Step.lean ====
section
/-! SUPPORT. What one step can be, once, and what a run of steps is (spec/70_reset_and_hazards.md R260 to R266). -/

namespace Sys2Proof.Machine

variable {s : State}

/-- A host that reads only registers holding a value meets no NONE. -/
theorem firstNone_eq_none (ps : List OutPort) : s.firstNone ps = none ↔ ∀ p ∈ ps, s.level p ≠ none := by
  induction ps with
  | nil => simp [State.firstNone]
  | cons p ps ih => simp only [State.firstNone]; split <;> simp_all

/-- The port a fault names is one the host reads and holds NONE (spec/10 R29). -/
theorem firstNone_eq_some {ps : List OutPort} {p : OutPort} (h : s.firstNone ps = some p) :
    p ∈ ps ∧ s.level p = none := by
  induction ps with
  | nil => simp [State.firstNone] at h
  | cons q ps ih =>
    simp only [State.firstNone] at h
    split at h
    · rename_i hq
      obtain rfl := Option.some.inj h
      exact ⟨by simp, hq⟩
    · exact ⟨List.mem_cons_of_mem _ (ih h).1, (ih h).2⟩

/-- BUSY and VALID are never NONE (spec/10 R25). -/
theorem level_handshake (p : OutPort) (h : p = .busy ∨ p = .valid) : s.level p ≠ none := by
  rcases h with rfl | rfl <;> simp [State.level]

theorem step_of_reads (h : ReadsSafely s) :
    step s =
      match s.edgeKind with
      | .reset => .next s.later.resetEdge
      | .complete => complete s.later
      | .waiting n => .next (s.later.waitEdge n)
      | .issue => .next (s.later.issueEdge s.now)
      | .idle => .next s.later := by
  have hn := (firstNone_eq_none _).2 h
  cases hk : s.edgeKind <;> simp only [step, hn, hk]

/-- Everything a step can be: a fault on a read of NONE, or one of the five edges. -/
theorem step_cases (s : State) :
    (∃ p ∈ s.now.samples, s.level p = none ∧ step s = .fault (.readOfNone p)) ∨
      ReadsSafely s ∧
        ((s.now.reset = true ∧ step s = .next s.later.resetEdge) ∨
          (s.now.reset = false ∧ s.busy = true ∧ s.wait = 0 ∧ step s = complete s.later) ∨
          (∃ n, s.now.reset = false ∧ s.busy = true ∧ s.wait = n + 1 ∧ step s = .next (s.later.waitEdge n)) ∨
          (s.now.reset = false ∧ s.busy = false ∧ s.now.start = true ∧ step s = .next (s.later.issueEdge s.now)) ∨
          (s.now.reset = false ∧ s.busy = false ∧ s.now.start = false ∧ step s = .next s.later)) := by
  rcases hf : s.firstNone s.now.samples with _ | p
  · right
    have hr : ReadsSafely s := (firstNone_eq_none _).1 hf
    refine ⟨hr, ?_⟩
    have hs := step_of_reads hr
    unfold State.edgeKind at hs
    rcases h1 : s.now.reset with _ | _
    · rcases h2 : s.busy with _ | _
      · rcases h3 : s.now.start with _ | _ <;> simp_all
      · rcases h3 : s.wait with _ | n <;> simp_all
    · simp_all
  · left
    obtain ⟨h1, h2⟩ := firstNone_eq_some hf
    exact ⟨p, h1, h2, by unfold step; rw [hf]⟩

/-- At a COMPLETE edge the step is COMPLETE, with the host's edge taken (R265). -/
theorem complete_step (h1 : ReadsSafely s) (h2 : s.now.reset = false) (h3 : s.busy = true) (h4 : s.wait = 0) :
    step s = complete s.later := by
  rw [step_of_reads h1]
  simp only [State.edgeKind, h2, h3, h4]; rfl

/-- COMPLETE always goes on (R236). -/
theorem complete_next (s : State) : ∃ t, complete s = .next t := by
  rcases complete_ends s with ⟨i, t, hd, hf, hc⟩ | ⟨_, hc⟩ <;> exact ⟨_, hc⟩

theorem run_of_next {M : Host.Core} {k : Nat} {s t : M.State} (h : M.step s = .next t) :
    M.run (k + 1) s = M.run k t := by rw [Host.Core.run, h]

theorem next_of_run {M : Host.Core} {k : Nat} {s t : M.State} (h : M.run (k + 1) s = .next t) :
    ∃ u, M.step s = .next u ∧ M.run k u = .next t := by
  rw [Host.Core.run] at h
  split at h
  · rename_i u hu; exact ⟨u, hu, h⟩
  · cases h
  · cases h

/-- A run goes on from the state its first step reaches. -/
theorem run_succ {k : Nat} {t : State} (h : step s = .next t) :
    Host.Core.run Sys2Proof.core (k + 1) s = Host.Core.run Sys2Proof.core k t :=
  run_of_next (M := Sys2Proof.core) h

/-- Runs compose. -/
theorem run_add {j k : Nat} {t : State} (h : Host.Core.run Sys2Proof.core j s = .next t) :
    Host.Core.run Sys2Proof.core (j + k) s = Host.Core.run Sys2Proof.core k t := by
  induction j generalizing s with
  | zero =>
    obtain rfl : s = t := Host.Outcome.next.inj h
    rw [Nat.zero_add]
  | succ j ih =>
    obtain ⟨u, hu, hr⟩ := next_of_run (M := Sys2Proof.core) h
    rw [Nat.add_right_comm, run_succ hu]
    exact ih hr

end Sys2Proof.Machine
end

