-- ==== Sys2Proof/Laws/HostProgram.lean ====
section
/-! SUPPORT. What one line of a host program does, once (spec/30_encoding.md R84, spec/70_reset_and_hazards.md R265). -/

namespace Sys2Proof.Machine

/-- A host that does nothing lets the latency pass. -/
theorem wait_idle (n : Nat) : ∀ t : State, t.busy = true → t.wait = n → t.host = [] →
    Host.Core.run Sys2Proof.core n t = .next { t with wait := 0 } := by
  induction n with
  | zero => intro t _ hw _; cases t; simp at hw; subst hw; rfl
  | succ n ih =>
    intro t hb hw hh
    have hr : ReadsSafely t := by intro p hp; simp [State.now, hh, HostEdge.idle] at hp
    have h1 : step t = .next (t.later.waitEdge n) := by
      rw [step_of_reads hr]
      simp only [State.edgeKind, State.now, hh, List.headD_nil, HostEdge.idle, hb, hw]; rfl
    rw [run_succ h1, ih (t.later.waitEdge n) hb rfl (by simp [hh])]
    cases t; simp at hh; subst hh; rfl

/-- A line started from an idle unit is COMPLETE of its command on its inputs, whatever the latency. -/
theorem runLine_eq (e : HostEdge) (s : State) (hb : s.busy = false) :
    runLine e s = complete
      { busy := true, valid := false, lcmd := e.cmd, la := e.a, lb := e.b, lraw := e.rawIn, lf := e.fIn,
        r := none, rawOut := none, fOut := none, scal := none, err := none, wait := 0, host := [] } := by
  unfold runLine
  set s0 : State := { s with host := [e.issuing] }
  have hr : ReadsSafely s0 := by intro p hp; simp [State.now, s0, HostEdge.issuing] at hp
  have h1 : step s0 = .next (s0.later.issueEdge e.issuing) := by
    rw [step_of_reads hr]
    simp only [State.edgeKind, s0, hb, State.now, List.headD_cons, HostEdge.issuing]; rfl
  rw [run_succ h1, Config.latency]
  have h2 := wait_idle (Config.extraLatency e.cmd e.a e.b e.rawIn e.fIn) (s0.later.issueEdge e.issuing) rfl rfl rfl
  rw [run_add h2]
  set u : State := { s0.later.issueEdge e.issuing with wait := 0 }
  have h3 : step u = complete u.later :=
    complete_step (by intro p hp; simp [State.now, u, s0, HostEdge.idle] at hp) rfl rfl rfl
  obtain ⟨t, ht⟩ := complete_next u.later
  rw [run_succ (t := t) (by rw [h3, ht])]
  exact ht.symm

end Sys2Proof.Machine
end

