-- ==== Sys2Proof/Laws/PerInstr.lean ====
section
/-! SUPPORT. Per command: its word matches its row of spec/opcode_table.json (spec/30_encoding.md R80). -/

namespace Sys2Proof.Laws.TableRow

/-- Column "mask" of the opcode table. -/
def mask : Instr → CmdWord
  | .decode _ _ | .fromf _ _ => 0xFFFF801F
  | .encode | .classify | .isnan | .isinf | .iszero | .signneg | .getsign | .geteb | .getmb | .tof | .neg | .abs
  | .add | .sub | .mul | .cmpeq | .cmpne | .cmplt | .cmpgt | .cmple | .cmpge => 0xFFFFFFFF

/-- Column "match" of the opcode table. -/
def pattern : Instr → CmdWord
  | .decode _ _ => 0x00000001
  | .encode => 0x00000002
  | .classify => 0x00000003
  | .isnan => 0x00000004
  | .isinf => 0x00000005
  | .iszero => 0x00000006
  | .signneg => 0x00000007
  | .getsign => 0x00000008
  | .geteb => 0x00000009
  | .getmb => 0x0000000A
  | .fromf _ _ => 0x0000000B
  | .tof => 0x0000000C
  | .neg => 0x0000000D
  | .abs => 0x0000000E
  | .add => 0x0000000F
  | .sub => 0x00000010
  | .mul => 0x00000011
  | .cmpeq => 0x00000012
  | .cmpne => 0x00000013
  | .cmplt => 0x00000014
  | .cmpgt => 0x00000015
  | .cmple => 0x00000016
  | .cmpge => 0x00000017

/-- The word of a well-formed command matches its row. -/
def Statement (i : Instr) : Prop := i.wellFormed = true → encode i &&& mask i = pattern i

theorem decode (teb tmb : Nat) : Statement (.decode teb tmb) := by
  intro h
  simp only [Instr.wellFormed, Bool.and_eq_true, decide_eq_true_eq] at h
  have all : ∀ x : Fin 16, ∀ y : Fin 64, encode (.decode x y) &&& mask (.decode x y) = pattern (.decode x y) := by
    decide +kernel
  exact all ⟨teb, h.1⟩ ⟨tmb, h.2⟩

theorem fromf (teb tmb : Nat) : Statement (.fromf teb tmb) := by
  intro h
  simp only [Instr.wellFormed, Bool.and_eq_true, decide_eq_true_eq] at h
  have all : ∀ x : Fin 16, ∀ y : Fin 64, encode (.fromf x y) &&& mask (.fromf x y) = pattern (.fromf x y) := by
    decide +kernel
  exact all ⟨teb, h.1⟩ ⟨tmb, h.2⟩

theorem encode : Statement .encode := fun _ => by decide
theorem classify : Statement .classify := fun _ => by decide
theorem isnan : Statement .isnan := fun _ => by decide
theorem isinf : Statement .isinf := fun _ => by decide
theorem iszero : Statement .iszero := fun _ => by decide
theorem signneg : Statement .signneg := fun _ => by decide
theorem getsign : Statement .getsign := fun _ => by decide
theorem geteb : Statement .geteb := fun _ => by decide
theorem getmb : Statement .getmb := fun _ => by decide
theorem tof : Statement .tof := fun _ => by decide
theorem neg : Statement .neg := fun _ => by decide
theorem abs : Statement .abs := fun _ => by decide
theorem add : Statement .add := fun _ => by decide
theorem sub : Statement .sub := fun _ => by decide
theorem mul : Statement .mul := fun _ => by decide
theorem cmpeq : Statement .cmpeq := fun _ => by decide
theorem cmpne : Statement .cmpne := fun _ => by decide
theorem cmplt : Statement .cmplt := fun _ => by decide
theorem cmpgt : Statement .cmpgt := fun _ => by decide
theorem cmple : Statement .cmple := fun _ => by decide
theorem cmpge : Statement .cmpge := fun _ => by decide

end Sys2Proof.Laws.TableRow
end

