-- ==== Sys2Proof/Tests/Slice0.lean ====
section
/-! SUPPORT. Small tests of the model, and for every statement with hypotheses a concrete witness that meets them. Expected
values come from spec/95_test_vectors.md (its rows V<n>, worked examples W<n>) or from the rule named; command words are
written out from spec/30_encoding.md R70 and R80. -/

namespace Sys2Proof.Tests

open Sys2Proof Sys2Proof.Machine

/-! ### Helpers -/

/-- A command in flight whose COMPLETE is the next edge, with its latches. -/
def flying (cmd : CmdWord) (a b : BusWord) (raw f : Word64) : State :=
  { State.reset with busy := true, lcmd := cmd, la := a, lb := b, lraw := raw, lf := f }

/-- The latches a command finds. -/
def latched (a b : BusWord) (raw f : Word64) : State := flying 0 a b raw f

/-- ERR, SCAL, R, RAW_OUT and F_OUT. -/
abbrev Ports := Option ErrWord × Option ScalWord × Option BusWord × Option Word64 × Option Word64

/-- What the host sees after an outcome. -/
def ports : Result → Option Ports
  | .next t => some (t.err, t.scal, t.r, t.rawOut, t.fOut)
  | .fault _ | .refused _ => none

def okR (w : BusWord) : Option Ports := some (some 0, none, some w, none, none)
def okScal (w : ScalWord) : Option Ports := some (some 0, some w, none, none, none)
def failed (e : ErrWord) (w : ScalWord) : Option Ports := some (some e, some w, none, none, none)

/-- Operand words of spec/95, by the value they hold. -/
def one : BusWord := 0x1030070000000000000
def negZero : BusWord := 0x1038000000000000000
def posZero : BusWord := 0x1030000000000000000
def leastSub : BusWord := 0x1030000000000000001
def maxNormal : BusWord := 0x10300E0000000000007
def posInf : BusWord := 0x10300F0000000000000
def negInf : BusWord := 0x10380F0000000000000
def nanE5M2 : BusWord := 0x14201F0000000000002
def infE5M0 : BusWord := 0x14001F0000000000000
def negInfE5M0 : BusWord := 0x14081F0000000000000
def zeroE5M0 : BusWord := 0x1400000000000000000
/-- E1M0 infinity (R129: the narrowest format). -/
def infE1M0 : BusWord := 0x0400010000000000000

/-! ### WellFormed -/

theorem test_teb_16_is_ill_formed : Instr.wellFormed (.decode 16 0) = false ∧ Instr.wellFormed (.fromf 16 0) = false := by
  decide
theorem test_tmb_64_is_ill_formed : Instr.wellFormed (.decode 0 64) = false ∧ Instr.wellFormed (.fromf 0 64) = false := by
  decide
theorem test_widest_fields_are_well_formed :
    Instr.wellFormed (.decode 15 63) = true ∧ Instr.wellFormed (.fromf 15 63) = true := by decide

/-! ### Decode: words written bit by bit from R70 and R80, fields RSV, TMB, TEB, OP -/

theorem test_word_decode : decode 0b00000000000000000_000011_0100_00001 = .ok (.decode 4 3) := by decide
theorem test_word_encode : decode 0b00000000000000000_000000_0000_00010 = .ok .encode := by decide
theorem test_word_classify : decode 0b00000000000000000_000000_0000_00011 = .ok .classify := by decide
theorem test_word_isnan : decode 0b00000000000000000_000000_0000_00100 = .ok .isnan := by decide
theorem test_word_isinf : decode 0b00000000000000000_000000_0000_00101 = .ok .isinf := by decide
theorem test_word_iszero : decode 0b00000000000000000_000000_0000_00110 = .ok .iszero := by decide
theorem test_word_signneg : decode 0b00000000000000000_000000_0000_00111 = .ok .signneg := by decide
theorem test_word_getsign : decode 0b00000000000000000_000000_0000_01000 = .ok .getsign := by decide
theorem test_word_geteb : decode 0b00000000000000000_000000_0000_01001 = .ok .geteb := by decide
theorem test_word_getmb : decode 0b00000000000000000_000000_0000_01010 = .ok .getmb := by decide
theorem test_word_fromf : decode 0b00000000000000000_110100_1011_01011 = .ok (.fromf 11 52) := by decide
theorem test_word_tof : decode 0b00000000000000000_000000_0000_01100 = .ok .tof := by decide
theorem test_word_neg : decode 0b00000000000000000_000000_0000_01101 = .ok .neg := by decide
theorem test_word_abs : decode 0b00000000000000000_000000_0000_01110 = .ok .abs := by decide
theorem test_word_add : decode 0b00000000000000000_000000_0000_01111 = .ok .add := by decide
theorem test_word_sub : decode 0b00000000000000000_000000_0000_10000 = .ok .sub := by decide
theorem test_word_mul : decode 0b00000000000000000_000000_0000_10001 = .ok .mul := by decide
theorem test_word_cmpeq : decode 0b00000000000000000_000000_0000_10010 = .ok .cmpeq := by decide
theorem test_word_cmpne : decode 0b00000000000000000_000000_0000_10011 = .ok .cmpne := by decide
theorem test_word_cmplt : decode 0b00000000000000000_000000_0000_10100 = .ok .cmplt := by decide
theorem test_word_cmpgt : decode 0b00000000000000000_000000_0000_10101 = .ok .cmpgt := by decide
theorem test_word_cmple : decode 0b00000000000000000_000000_0000_10110 = .ok .cmple := by decide
theorem test_word_cmpge : decode 0b00000000000000000_000000_0000_10111 = .ok .cmpge := by decide

/-- R81: each way of being illegal. -/
theorem test_illegal_words :
    decode 0x00000000 = .error (.unassignedOpcode 0) ∧ decode 0x00000018 = .error (.unassignedOpcode 24) ∧
    decode 0x0000001F = .error (.unassignedOpcode 31) ∧ decode 0x00008001 = .error .reservedBits ∧
    decode 0x8000000F = .error .reservedBits ∧ decode 0x0000002F = .error .targetFieldsNotZero ∧
    decode 0x0000400D = .error .targetFieldsNotZero := by decide

/-- R72: a spelling outside the legal formats is a command. -/
theorem test_illegal_widths_are_commands :
    decode 0x00000601 = .ok (.decode 0 3) ∧ decode 0x000078AB = .ok (.fromf 5 60) := by decide

/-- R84: the two examples. -/
theorem test_assembler : Instr.asm (.decode 4 3) = "DECODE E4M3" ∧ encode (.decode 4 3) = 0x00000681 ∧
    Instr.asm (.fromf 5 5) = "FROMF E5M5" ∧ encode (.fromf 5 5) = 0x00000AAB := by decide

theorem test_table_word : decodeTableWord 32 0x0000000F = some .add ∧ decodeTableWord 32 0x00000018 = none := by decide

/-! ### Meanings -/

/-- V6. -/
theorem test_decode_all_ones :
    ports (exec (.decode 11 52) (latched 0 0 0xFFFFFFFFFFFFFFFF 0)) = okR 0x2F4FFFFFFFFFFFFFFFF := by decide
/-- V11 and V7: the widths are checked before the raw pattern. -/
theorem test_decode_check_order :
    ports (exec (.decode 0 3) (latched 0 0 0xFFFF 0)) = failed 3 1 ∧
      ports (exec (.decode 4 3) (latched 0 0 0x100 0)) = failed 3 2 := by decide
/-- V13. -/
theorem test_encode_negative_zero :
    ports (exec .encode (latched negZero 0 0 0)) = some (some 0, none, none, some 0x80, none) := by decide
/-- V14. -/
theorem test_encode_nan :
    ports (exec .encode (latched 0x14501F0000000000010 0 0 0)) = some (some 0, none, none, some 0x3F0, none) := by
  decide
/-- V17. -/
theorem test_getsign_of_nan : ports (exec .getsign (latched 0x14281F0000000000001 0 0 0)) = okScal 1 := by decide
/-- V18. -/
theorem test_geteb : ports (exec .geteb (latched 0x1870210000000000028 0 0 0)) = okScal 6 := by decide
/-- V20. -/
theorem test_getmb_zero : ports (exec .getmb (latched 0x14000F0000000000000 0 0 0)) = okScal 0 := by decide
/-- V30: at one exponent bit, E = 1 is the infinity. -/
theorem test_classify_narrow : ports (exec .classify (latched 0x0420010000000000000 0 0 0)) = okScal 3 := by decide
/-- V24. -/
theorem test_classify_subnormal : ports (exec .classify (latched 0x1030000000000000007 0 0 0)) = okScal 1 := by
  decide
/-- V34. -/
theorem test_isnan_of_infinity : ports (exec .isnan (latched 0x14201F0000000000000 0 0 0)) = okScal 0 := by decide
/-- V36. -/
theorem test_isinf_of_nan : ports (exec .isinf (latched 0x10300F0000000000007 0 0 0)) = okScal 0 := by decide
/-- V37. -/
theorem test_iszero_of_negative_zero : ports (exec .iszero (latched negZero 0 0 0)) = okScal 1 := by decide
/-- V40. -/
theorem test_signneg_of_nan : ports (exec .signneg (latched 0x10380F0000000000007 0 0 0)) = okScal 1 := by decide
/-- V45: a tie above the largest finite value overflows. -/
theorem test_fromf_tie_overflows :
    ports (exec (.fromf 4 3) (latched 0 0 0 0x406F000000000000)) = okR posInf := by decide
/-- V49: a subnormal tie to even, upward. -/
theorem test_fromf_subnormal_tie :
    ports (exec (.fromf 4 3) (latched 0 0 0 0x3F68000000000000)) = okR 0x1030000000000000002 := by decide
/-- V73: the smallest binary64 subnormal. -/
theorem test_tof_subnormal :
    ports (exec .tof (latched 0x2F40000000000000001 0 0 0)) = some (some 0, none, none, none, some 1) := by decide
/-- V72: the NaN keeps its sign and loses its payload. -/
theorem test_tof_nan :
    ports (exec .tof (latched 0x14281F0000000000001 0 0 0)) = some (some 0, none, none, none, some 0xFFF8000000000000) := by
  decide
/-- V124. -/
theorem test_neg_nan : ports (exec .neg (latched 0x14201F0000000000001 0 0 0)) = okR 0x14281F0000000000001 := by
  decide
/-- V127. -/
theorem test_abs_infinity : ports (exec .abs (latched negInf 0 0 0)) = okR posInf := by decide
/-- V129, W7. -/
theorem test_add_promotes :
    ports (exec .add (latched 0x145010000000000000C 0x1870200000000000020 0 0)) = okR 0x1870210000000000028 := by
  decide
/-- V144. -/
theorem test_add_unrepresentable : ports (exec .add (latched infE5M0 negInfE5M0 0 0)) = failed 4 0 := by decide
/-- V155: the order of the operands. -/
theorem test_sub_order :
    ports (exec .sub (latched 0x1870210000000000058 0x1450100000000000018 0 0)) = okR 0x1870200000000000050 := by
  decide
/-- V151. -/
theorem test_sub_zeros : ports (exec .sub (latched negZero posZero 0 0)) = okR negZero := by decide
/-- V157: 15 times 15 rounds to 224. -/
theorem test_mul_rounds :
    ports (exec .mul (latched 0x10300A0000000000007 0x10300A0000000000007 0 0)) = okR 0x10300E0000000000006 := by
  decide
/-- V160: underflow keeps the sign. -/
theorem test_mul_underflow :
    ports (exec .mul (latched 0x1038000000000000001 0x1030060000000000000 0 0)) = okR negZero := by decide
/-- V87. -/
theorem test_cmpeq_zeros : ports (exec .cmpeq (latched posZero 0x2038000000000000000 0 0)) = okScal 1 := by decide
/-- V106: a NaN is not unequal either. -/
theorem test_cmpne_nan : ports (exec .cmpne (latched nanE5M2 nanE5M2 0 0)) = okScal 0 := by decide
/-- V101. -/
theorem test_cmplt_infinity : ports (exec .cmplt (latched negInf leastSub 0 0)) = okScal 1 := by decide
/-- V120: no rounding before the comparison. -/
theorem test_cmpgt_exact : ports (exec .cmpgt (latched 0x14A00F0000000000001 one 0 0)) = okScal 1 := by decide +kernel
/-- V97. -/
theorem test_cmple_infinities : ports (exec .cmple (latched posInf 0x2F47FF0000000000000 0 0)) = okScal 1 := by
  decide
/-- V86. -/
theorem test_cmpge_less : ports (exec .cmpge (latched 0x1450100000000000018 0x1870210000000000058 0 0)) = okScal 0 := by
  decide +kernel
/-- R236: A is checked before B, and a command that reads no operand checks none. -/
theorem test_operand_checks :
    ports (exec .add (latched 0 0 0 0)) = failed 2 1 ∧ ports (exec .add (latched one 0 0 0)) = failed 2 2 ∧
      ports (exec .neg (latched one 0 0 0)) = okR 0x1038070000000000000 := by decide

/-! ### The step -/

/-- One step of the command word of ADD placed by the loader on a state with good operand latches. -/
theorem test_step_runs_the_fetched_word :
    ports (step (State.withFetchWord { State.reset with la := one, lb := one } 32 0x0000000F)) =
      okR 0x1030080000000000000 := by decide

/-- R231: an illegal word reads no operand. -/
theorem test_step_illegal_word : ports (step (State.reset.withFetchWord 32 0x00000018)) = failed 1 0 := by decide

/-- R264: the step of a START edge from reset is BUSY with the word latched. -/
theorem test_step_issues :
    (match step { State.reset with host := [{ HostEdge.idle with start := true, cmd := 0x0000000F, a := one }] } with
      | .next t => some (t.busy, t.valid, t.lcmd, t.la)
      | .fault _ | .refused _ => none) = some (true, false, 0x0000000F, one) := by rfl

/-- R267: SCAL is NONE after RESET. -/
theorem test_step_faults_on_none :
    (match step { State.reset with host := [{ HostEdge.idle with samples := [.valid, .scal] }] } with
      | .next _ | .refused _ => none
      | .fault p => some p) = some (.readOfNone .scal) := by rfl

/-! ### Witnesses: concrete data that meet every hypothesis of a statement together -/

theorem flying_inv (cmd : CmdWord) (a b : BusWord) (raw f : Word64) (es : List HostEdge) (n : Nat) :
    Inv { flying cmd a b raw f with host := es, wait := n } where
  busyNotValid _ := rfl
  invalidEmpty _ := ⟨rfl, rfl, rfl, rfl, rfl⟩
  validReport h := by cases h
  valueWF _ h := by cases h

theorem reads_nothing {s : State} (h : s.now.samples = []) : ReadsSafely s := by intro p hp; rw [h] at hp; cases hp

theorem reads {s : State} (h : ∀ p ∈ s.now.samples, s.level p ≠ none) : ReadsSafely s := h

theorem number {w : BusWord} {q : ℚ} (h : (ofBus w).val = some (.fin q)) : IsNum w q := h

theorem neg_one (s : State) (h : s.la = one) : exec .neg s = .next (s.withR (ofBus one).flipSign) := by
  have hw : (ofBus s.la).WF := by rw [h]; decide
  simp only [exec, execNeg, withA]
  rw [if_pos hw, h]; rfl

theorem classify_one (s : State) (h : s.la = one) : exec .classify s = .next (s.withScal 2) := by
  have hw : (ofBus s.la).WF := by rw [h]; decide
  simp only [exec, execClassify, withA]
  rw [if_pos hw, h]; rfl

theorem val_one : (ofBus one).val = some (.fin 1) := by decide +kernel

/-- The host at an edge with START high, and with RESET high. -/
def starting : HostEdge := { HostEdge.idle with start := true, cmd := 0x0000000F, a := one, b := one }
def resetting : HostEdge := { HostEdge.idle with reset := true }
def polling : HostEdge := { HostEdge.idle with samples := [.busy, .valid] }
def reading (p : OutPort) : HostEdge := { HostEdge.idle with samples := [p] }

/-- An ADD that completed with OK, and a host that polls and then reads R. -/
def finished (es : List HostEdge) : State :=
  { State.reset with valid := true, r := some one, err := some 0, la := one, lb := posZero, host := es }

theorem witness_DecodeOfEncodeIsTheCommand :
    Instr.wellFormed (.decode 15 63) = true ∧ Instr.wellFormed (.fromf 0 0) = true ∧ Instr.wellFormed .cmpge = true := by
  decide

theorem witness_EncodeOfDecodeIsTheWord : decode 0x00007FEB = .ok (.fromf 15 63) := by decide

theorem witness_OpcodeMapSelectsEachCommand :
    (0x00007FE1 : CmdWord) &&& 0xFFFF801F = 0x01 ∧ (0x00007FEB : CmdWord) &&& 0xFFFF801F = 0x0B ∧
      (0x02 : CmdWord) &&& 0xFFFFFFFF = 0x02 ∧ (0x17 : CmdWord) &&& 0xFFFFFFFF = 0x17 := by decide

theorem witness_StepRunsTheLatchedCommand :
    let s : State := { flying 0x0000000F one one 0 0 with host := [polling] }
    ReadsSafely s ∧ s.now.reset = false ∧ s.busy = true ∧ s.wait = 0 ∧ decode s.lcmd = .ok .add :=
  ⟨reads (by decide), rfl, rfl, rfl, by decide⟩

theorem witness_IllegalWordsAndOnlyTheyRaiseIllegalCmd :
    let s (w : CmdWord) : State := flying w 0 0 0 0
    (∀ w, ReadsSafely (s w) ∧ (s w).now.reset = false ∧ (s w).busy = true ∧ (s w).wait = 0) ∧
      IllegalWord 0x00000000 ∧ IllegalWord 0x00000018 ∧ IllegalWord 0x0000001F ∧ IllegalWord 0x00008001 ∧
      IllegalWord 0x00000022 ∧ ¬ IllegalWord 0x00000001 ∧ ¬ IllegalWord 0x00000017 ∧ ¬ IllegalWord 0x00007FEB ∧
      step (s 0x00000017) = .next ((s 0x00000017).later.withError .invalidOperandA) :=
  ⟨fun _ => ⟨reads_nothing rfl, rfl, rfl, rfl⟩, by decide, by decide, by decide, by decide, by decide, by decide,
    by decide, by decide, rfl⟩

theorem witness_ResetEdgeTakesTheResetValues :
    let s : State := { flying 0x0000000F one one 0 0 with host := [resetting], wait := 3 }
    ReadsSafely s ∧ s.now.reset = true := ⟨reads_nothing rfl, rfl⟩

theorem witness_ResetAbandonsTheCommandInFlight :
    let es := [polling, resetting, polling]
    let s : State := { flying 0x0000000F one one 0 0 with host := resetting :: es }
    s.busy = true ∧ s.host = resetting :: es ∧ resetting.reset = true ∧ resetting.samples = [] ∧
      ∀ x ∈ es, x.start = false ∧ ∀ p ∈ x.samples, p = .busy ∨ p = .valid := by
  refine ⟨rfl, rfl, rfl, rfl, ?_⟩
  decide

theorem witness_IssueLatchesEveryInput :
    let s : State := finished [{ starting with samples := [.valid, .err, .r] }]
    ReadsSafely s ∧ s.now.reset = false ∧ s.now.start = true ∧ s.busy = false := ⟨reads (by decide), rfl, rfl, rfl⟩

theorem witness_StartWhileBusyDoesNothing :
    let s (n : Nat) : State := { flying 0x0000000F one one 0 0 with host := [starting], wait := n }
    (∀ n, ReadsSafely (s n) ∧ (s n).now.reset = false ∧ (s n).busy = true) ∧
      HostEdge.idle.reset = false ∧ HostEdge.idle.samples = (s 0).now.samples ∧ (s 1).wait = 0 + 1 ∧ (s 0).wait = 0 :=
  ⟨fun _ => ⟨reads_nothing rfl, rfl, rfl⟩, rfl, rfl, rfl, rfl⟩

theorem witness_ResultsAreHeldUntilIssueOrReset :
    let s := finished []
    s.busy = false ∧
      ∀ x ∈ [polling, reading .r, HostEdge.idle], x.reset = false ∧ x.start = false ∧ ∀ p ∈ x.samples, s.level p ≠ none :=
  ⟨rfl, by decide⟩

theorem witness_OnlyAReadOfNoneFaults :
    (∃ p ∈ (finished [reading .scal]).now.samples, (finished [reading .scal]).level p = none) ∧
      ReadsSafely (finished [reading .r]) := ⟨by decide, reads (by decide)⟩

theorem witness_ReadHazardsFault_before_valid :
    let s : State := { flying 0x0000000F one one 0 0 with host := [reading .err], wait := 0 }
    Inv s ∧ s.valid = false ∧ .err ∈ s.now.samples ∧ OutPort.err ≠ .busy ∧ OutPort.err ≠ .valid :=
  ⟨flying_inv _ _ _ _ _ _ _, rfl, by decide, by decide, by decide⟩

theorem witness_ReadHazardsFault_other_register :
    let s (p : OutPort) : State := { flying 0 one one 0 0 with host := [reading p], wait := 0 }
    let t (p : OutPort) : State := (s p).withScal 2
    let u (p : OutPort) : State := (s p).withR (ofBus one).flipSign
    (∀ p, Inv (s p) ∧ (s p).busy = true ∧ exec .classify (s p) = .next (t p) ∧ exec .neg (s p) = .next (u p) ∧
      p ∈ (t p).now.samples ∧ p ∈ (u p).now.samples ∧ (u p).err = some 0) ∧
      Instr.classify.writes ≠ .r ∧ Instr.classify.writes ≠ .rawOut ∧ Instr.classify.writes ≠ .fOut ∧
      Instr.neg.writes ≠ .scal :=
  ⟨fun p => ⟨flying_inv _ _ _ _ _ _ _, rfl, classify_one _ rfl, neg_one _ rfl, List.mem_singleton.2 rfl,
    List.mem_singleton.2 rfl, rfl⟩, by decide, by decide, by decide, by decide⟩

theorem witness_ReadHazardsFault_after_an_error :
    let s : State := { flying 0 0 0 0 0 with host := [reading .r], wait := 0 }
    let t : State := s.withError .invalidOperandA
    Inv s ∧ s.busy = true ∧ exec .neg s = .next t ∧ .r ∈ t.now.samples ∧ t.err ≠ some 0 :=
  ⟨flying_inv _ _ _ _ _ _ _, rfl, rfl, by decide, by decide⟩

theorem witness_EveryStepKeepsTheInvariant :
    let s : State := { flying 0x0000000D one one 0 0 with host := [], wait := 0 }
    Inv s ∧ step s = .next (s.withR (ofBus one).flipSign) := ⟨flying_inv _ _ _ _ _ _ _, rfl⟩

theorem witness_EveryAcceptedCommandCompletesWithExec :
    let es := List.replicate (Config.latency starting.cmd starting.a starting.b starting.rawIn starting.fIn) polling
    let s : State := finished (starting :: (es ++ [HostEdge.idle]))
    s.busy = false ∧ s.host = starting :: (es ++ [HostEdge.idle]) ∧ starting.reset = false ∧ starting.start = true ∧
      ReadsSafely s ∧ es.length = Config.latency starting.cmd starting.a starting.b starting.rawIn starting.fIn ∧
      ∀ x ∈ es, x.reset = false ∧ ∀ p ∈ x.samples, p = .busy ∨ p = .valid := by
  refine ⟨rfl, rfl, rfl, rfl, reads_nothing rfl, List.length_replicate, fun x hx => ?_⟩
  obtain rfl := List.eq_of_mem_replicate hx
  exact ⟨rfl, by decide⟩

theorem witness_OutcomeDependsOnTheLatchesOnly :
    let s : State := { flying 0x0000000D one one 0 0 with host := [], wait := 0 }
    let s' : State := { flying 0x0000000D one one 0 0 with host := [starting], wait := 7 }
    Inv s ∧ Inv s' ∧ s.busy = true ∧ s'.busy = true ∧ s'.lcmd = s.lcmd ∧ s'.la = s.la ∧ s'.lb = s.lb ∧
      s'.lraw = s.lraw ∧ s'.lf = s.lf ∧ complete s = .next (s.withR (ofBus one).flipSign) ∧
      complete s' = .next (s'.withR (ofBus one).flipSign) :=
  ⟨flying_inv _ _ _ _ _ _ _, flying_inv _ _ _ _ _ _ _, rfl, rfl, rfl, rfl, rfl, rfl, rfl, rfl, rfl⟩

theorem witness_IdleLatchesAreNeverRead :
    let s := finished [starting]
    s.busy = false ∧ step s = .next (s.later.issueEdge starting) ∧ (s.later.issueEdge starting).busy = true ∧
      step (finished [reading .scal]) = .fault (.readOfNone .scal) := ⟨rfl, rfl, rfl, rfl⟩

theorem witness_CommandsUseWhatTheyListOnly :
    let s := latched one 0 0 0
    let t := s.withR (ofBus one).flipSign
    exec .neg s = .next t ∧ (Instr.neg.readsA = true → one = s.la) ∧ (Instr.neg.readsB = true → negZero = s.lb) ∧
      (Instr.neg.readsRaw = true → (1 : Word64) = s.lraw) ∧ (Instr.neg.readsF = true → (1 : Word64) = s.lf) ∧
      t.err = some 0 ∧ Instr.neg.writes = .r :=
  ⟨rfl, fun _ => rfl, fun h => absurd h (by decide), fun h => absurd h (by decide), fun h => absurd h (by decide), rfl, rfl⟩

theorem witness_CommandFrame :
    let s := latched one 0 0 0
    exec .classify s = .next (s.withScal 2) ∧ Instr.classify.writes ≠ .r ∧ Instr.classify.writes ≠ .rawOut ∧
      Instr.classify.writes ≠ .fOut ∧ exec .neg s = .next (s.withR (ofBus one).flipSign) ∧ Instr.neg.writes ≠ .scal ∧
      (s.withR (ofBus one).flipSign).err = some 0 ∧ exec .add s = .next (s.withError .invalidOperandB) ∧
      (s.withError .invalidOperandB).err ≠ some 0 :=
  ⟨rfl, by decide, by decide, by decide, rfl, by decide, rfl, rfl, by decide⟩

/-- The check at its bounds: eb 0 and 12, mb 53, E = 2^eb, M = 2^mb. -/
theorem witness_MalformedOperandsRaiseInvalidOperand :
    Instr.encode.readsA = true ∧ ¬ BusOK 0 ∧ ¬ BusOK 0x3000000000000000000 ∧ ¬ BusOK 0x1350000000000000000 ∧
      ¬ BusOK 0x1030100000000000000 ∧ ¬ BusOK 0x1030000000000000008 ∧ Instr.cmpge.readsB = true ∧ BusOK one ∧
      BusOK 0x2F4FFFFFFFFFFFFFFFF ∧ BusOK infE1M0 := by decide

theorem witness_BadFormatsRaiseFormatError :
    (0 = 0 ∨ 0 > 11 ∨ 0 > 52) ∧ (12 = 0 ∨ 12 > 11 ∨ 0 > 52) ∧ (11 = 0 ∨ 11 > 11 ∨ 53 > 52) ∧
      (1 ≤ 1 ∧ 1 ≤ 11 ∧ 0 ≤ 52 ∧ ∃ k, 1 + 1 + 0 ≤ k ∧ (latched 0 0 0x4 0).lraw.getLsbD k = true) ∧
      (1 ≤ 11 ∧ 11 ≤ 11 ∧ 51 ≤ 52 ∧ ∃ k, 1 + 11 + 51 ≤ k ∧ (latched 0 0 0x8000000000000000 0).lraw.getLsbD k = true) :=
  ⟨by decide, by decide, by decide, ⟨by decide, by decide, by decide, 2, by decide, by decide⟩,
    ⟨by decide, by decide, by decide, 63, by decide, by decide⟩⟩

theorem witness_NaNWithoutMantissaIsUnrepresentable :
    (∀ teb ∈ [1, 11], 1 ≤ teb ∧ teb ≤ 11) ∧ (0xFFF0000000000001 : Word64).extractLsb' 52 11 = 0x7FF ∧
      (0xFFF0000000000001 : Word64).extractLsb' 0 52 ≠ 0 ∧
      (BusOK infE5M0 ∧ BusOK negInfE5M0 ∧ (ofBus infE5M0).cls = .infinity ∧ (ofBus negInfE5M0).cls = .infinity ∧
        (ofBus infE5M0).s ≠ (ofBus negInfE5M0).s ∧ busMb infE5M0 = 0 ∧ busMb negInfE5M0 = 0) ∧
      (BusOK zeroE5M0 ∧ (ofBus zeroE5M0).cls = .zero ∧ busMb zeroE5M0 = 0) ∧ BusOK one ∧ ¬ busMb one = 0 := by decide

theorem witness_CommandsAreTotalOnGoodOperands :
    Instr.cmple.readsA = true ∧ Instr.cmple ≠ .add ∧ Instr.cmple ≠ .sub ∧ Instr.cmple ≠ .mul ∧ BusOK nanE5M2 ∧
      (Instr.cmple.readsB = true → BusOK infE5M0) := by decide

theorem witness_DecodeSplitsTheRawPattern :
    (15 < 16 ∧ 63 < 64) ∧ (¬ (1 ≤ 0 ∧ 0 ≤ 11 ∧ 0 ≤ 52) ∧ ¬ (1 ≤ 12 ∧ 12 ≤ 11 ∧ 0 ≤ 52) ∧ ¬ (1 ≤ 11 ∧ 11 ≤ 11 ∧ 53 ≤ 52)) ∧
      (1 ≤ 1 ∧ 1 ≤ 11 ∧ 0 ≤ 52 ∧ (0x4 : Word64).toNat ≥ 2 ^ (1 + 1 + 0)) ∧
      (1 ≤ 1 ∧ 1 ≤ 11 ∧ 0 ≤ 52 ∧ (0x3 : Word64).toNat < 2 ^ (1 + 1 + 0)) ∧
      (1 ≤ 11 ∧ 11 ≤ 11 ∧ 52 ≤ 52 ∧ (0xFFFFFFFFFFFFFFFF : Word64).toNat < 2 ^ (1 + 11 + 52)) := by decide

theorem witness_EncodePacksTheFields : BusOK 0x2F4FFFFFFFFFFFFFFFF ∧ BusOK infE1M0 := by decide

theorem witness_AccessorsReadTheFields : BusOK 0x2F4FFFFFFFFFFFFFFFF ∧ BusOK infE1M0 := by decide

theorem witness_CodecRoundTrip :
    let s := latched negZero 0 0x80 0
    BusOK s.la ∧ exec .encode s = .next (s.withRawOut 0x80) ∧
      exec (.decode 4 3) s = .next (s.withR (split 0x80 ⟨4, 3⟩)) ∧ (s.withR (split 0x80 ⟨4, 3⟩)).err = some 0 :=
  ⟨by decide, by rfl, by rfl, rfl⟩

theorem witness_WidestFormatIsBinary64 :
    BusOK 0x2F43FF0000000000000 ∧ busEb 0x2F43FF0000000000000 = 11 ∧ busMb 0x2F43FF0000000000000 = 52 ∧
      (ofBus 0x2F43FF0000000000000).cls ≠ .nan := by decide

/-- One operand per row of R120, the normal ones at both ends. -/
theorem witness_ClassifyFollowsTheClassTable :
    (BusOK negZero ∧ BusOK leastSub ∧ BusOK 0x1030010000000000000 ∧ BusOK maxNormal ∧ BusOK posInf ∧ BusOK nanE5M2 ∧ BusOK infE1M0) ∧
      (busE negZero = 0 ∧ busM negZero = 0) ∧ (busE leastSub = 0 ∧ busM leastSub ≠ 0) ∧
      (1 ≤ busE 0x1030010000000000000 ∧ busE 0x1030010000000000000 ≤ 2 ^ busEb 0x1030010000000000000 - 1 - 1) ∧
      (1 ≤ busE maxNormal ∧ busE maxNormal ≤ 2 ^ busEb maxNormal - 1 - 1) ∧
      (busE posInf = 2 ^ busEb posInf - 1 ∧ busM posInf = 0) ∧ (busE infE1M0 = 2 ^ busEb infE1M0 - 1 ∧ busM infE1M0 = 0) ∧
      (busE nanE5M2 = 2 ^ busEb nanE5M2 - 1 ∧ busM nanE5M2 ≠ 0) := by decide

theorem witness_PredicatesFollowTheFields :
    (BusOK negZero ∧ BusOK nanE5M2 ∧ BusOK posInf ∧ BusOK one) ∧ (busE nanE5M2 = 2 ^ busEb nanE5M2 - 1 ∧ busM nanE5M2 ≠ 0) ∧
      ¬ (busE posInf = 2 ^ busEb posInf - 1 ∧ busM posInf ≠ 0) ∧ (busE posInf = 2 ^ busEb posInf - 1 ∧ busM posInf = 0) ∧
      ¬ (busE nanE5M2 = 2 ^ busEb nanE5M2 - 1 ∧ busM nanE5M2 = 0) ∧ (busE negZero = 0 ∧ busM negZero = 0) ∧
      ¬ (busE one = 0 ∧ busM one = 0) ∧ negZero.getLsbD 63 = true ∧ one.getLsbD 63 = false := by decide

theorem witness_NarrowFormatsLackClasses :
    let s (w : BusWord) := latched w 0 0 0
    BusOK infE1M0 ∧ exec .classify (s infE1M0) = .next ((s infE1M0).withScal 3) ∧ busEb infE1M0 = 1 ∧ busMb infE1M0 = 0 ∧
      BusOK zeroE5M0 ∧ exec .classify (s zeroE5M0) = .next ((s zeroE5M0).withScal 0) ∧ busMb zeroE5M0 = 0 :=
  ⟨by decide, rfl, by decide, by decide, by decide, rfl, by decide⟩

theorem witness_FiniteValuesLieInTheRange :
    (let v : Value := ofBus leastSub; v.WF ∧ v.val = some (.fin (1 / 512)) ∧ (1 / 512 : ℚ) ≠ 0 ∧ 2 ≤ v.fmt.eb) ∧
      (let v : Value := ⟨true, 0, 7, ⟨1, 3⟩⟩; v.WF ∧ v.val = some (.fin (-7 / 4)) ∧ (-7 / 4 : ℚ) ≠ 0 ∧ v.fmt.eb = 1) ∧
      (Format.Legal ⟨2, 0⟩ ∧ 2 ≤ (Format.mk 2 0).eb) ∧
      (Format.Legal ⟨1, 1⟩ ∧ (Format.mk 1 1).eb = 1 ∧ 1 ≤ (Format.mk 1 1).mb) := by decide +kernel

theorem witness_RoundPackRoundsToNearestEven : Format.Legal ⟨1, 0⟩ ∧ Format.Legal ⟨11, 52⟩ ∧ 0 < 1 := by decide

/-- 1 in E4M3 is correctly rounded to itself. -/
theorem witness_RoundedValueIsUnique : (1 : ℚ) ≠ 0 ∧ RoundsTo ⟨4, 3⟩ 1 (ofBus one) := by
  refine ⟨one_ne_zero, by decide, by decide, by decide +kernel, 1, ⟨?_, ?_, ?_⟩, Or.inl ⟨?_, by decide +kernel⟩⟩
  · exact Or.inr ⟨ofBus one, by decide, by decide, by decide +kernel⟩
  · intro g' _; rw [sub_self, abs_zero]; exact abs_nonneg _
  · intro g' _ hne h
    rw [sub_self, abs_zero, abs_eq_zero, sub_eq_zero] at h
    exact absurd h.symm hne
  · rw [show (Format.mk 4 3).bias = 7 from rfl]; norm_num

theorem witness_UnderflowAndOverflowThresholds :
    Format.Legal ⟨1, 0⟩ ∧ Format.Legal ⟨4, 3⟩ ∧ 0 < 1 ∧ 2 ≤ (Format.mk 4 3).eb := by decide

theorem witness_WiderFormatsEmbedExactly :
    (ofBus leastSub).WF ∧ ((ofBus leastSub).cls = .subnormal ∨ (ofBus leastSub).cls = .normal) ∧
      (ofBus maxNormal).WF ∧ ((ofBus maxNormal).cls = .subnormal ∨ (ofBus maxNormal).cls = .normal) ∧
      Format.Legal ⟨4, 3⟩ ∧ (ofBus maxNormal).fmt.eb ≤ 4 ∧ (ofBus maxNormal).fmt.mb ≤ 3 ∧
      (ofBus leastSub).fmt.eb ≤ 4 ∧ (ofBus leastSub).fmt.mb ≤ 3 := by decide

theorem witness_GuardRoundStickyRoundsAlike : 2 ≤ 2 := by decide

theorem witness_FromfOfSpecialInputs :
    (1 ≤ 1 ∧ 1 ≤ 11 ∧ 52 ≤ 52 ∧ 1 ≤ 52) ∧
      ((0xFFF0000000000001 : Word64).extractLsb' 52 11 = 0x7FF ∧ (0xFFF0000000000001 : Word64).extractLsb' 0 52 ≠ 0) ∧
      ((0xFFF0000000000000 : Word64).extractLsb' 52 11 = 0x7FF ∧ (0xFFF0000000000000 : Word64).extractLsb' 0 52 = 0) ∧
      ((0x8000000000000000 : Word64).extractLsb' 52 11 = 0 ∧ (0x8000000000000000 : Word64).extractLsb' 0 52 = 0) := by
  decide

/-- 1, and the subnormal -2^-1023. -/
theorem witness_FromfRoundsFiniteInputs :
    (1 ≤ 11 ∧ 11 ≤ 11 ∧ 0 ≤ 52) ∧ (ofBinary64 0x3FF0000000000000).val = some (.fin 1) ∧ (1 : ℚ) ≠ 0 ∧
      (ofBinary64 0x8008000000000000).val = some (.fin (-(1 / (2 ^ 1023 : Nat)))) ∧
      (-(1 / (2 ^ 1023 : Nat)) : ℚ) ≠ 0 := by decide +kernel

theorem witness_TofOfSpecialValues :
    (BusOK negZero ∧ BusOK posInf ∧ BusOK nanE5M2) ∧ (busE nanE5M2 = 2 ^ busEb nanE5M2 - 1 ∧ busM nanE5M2 ≠ 0) ∧
      (busE posInf = 2 ^ busEb posInf - 1 ∧ busM posInf = 0) ∧ (busE negZero = 0 ∧ busM negZero = 0) := by decide

theorem witness_TofIsExactOnFiniteValues :
    BusOK leastSub ∧ IsNum leastSub (1 / 512) ∧ BusOK negZero ∧ IsNum negZero 0 :=
  ⟨by decide, number (by decide +kernel), by decide, number (by decide +kernel)⟩

theorem witness_TofOfFromfGivesTheInputBack :
    (1 ≤ 4 ∧ 4 ≤ 11 ∧ 3 ≤ 52 ∧ 1 ≤ 3) ∧
      (∃ u : Value, u.WF ∧ u.fmt = ⟨4, 3⟩ ∧ u.val ≠ none ∧ u.val = (ofBinary64 0x406E000000000000).val) ∧
      (ofBinary64 0xFFF0000000000001).cls = .nan :=
  ⟨by decide, ⟨ofBus maxNormal, by decide, by decide, by decide +kernel, by decide +kernel⟩, by decide⟩

theorem witness_FromfOfTofGivesTheOperandBack :
    BusOK leastSub ∧ (ofBus leastSub).cls ≠ .nan ∧ BusOK nanE5M2 ∧ (ofBus nanE5M2).cls = .nan := by decide

theorem witness_CvtRoundsOnce :
    State.reset.busy = false ∧ BusOK leastSub ∧ IsNum leastSub (1 / 512) ∧ (1 / 512 : ℚ) ≠ 0 ∧ 1 ≤ 1 ∧ 1 ≤ 11 ∧ 0 ≤ 52 :=
  ⟨rfl, by decide, number (by decide +kernel), by norm_num, by decide, by decide, by decide⟩

theorem witness_ComparisonsCompareRealValues :
    BusOK nanE5M2 ∧ (ofBus nanE5M2).val = none ∧ BusOK posInf ∧ (ofBus posInf).val = some .posInf ∧ BusOK negZero ∧
      (ofBus negZero).val = some (.fin 0) := by decide

theorem witness_ComparisonLaws :
    BusOK one ∧ BusOK negZero ∧ BusOK posInf ∧ (ofBus one).cls ≠ .nan ∧ (ofBus negZero).cls ≠ .nan ∧
      (ofBus posInf).cls ≠ .nan := by decide

theorem witness_AlignedComparatorDecidesTheOrder :
    (ofBus leastSub).WF ∧ (ofBus one).WF ∧ (ofBus leastSub).val = some (.fin (1 / 512)) ∧
      (ofBus one).val = some (.fin 1) ∧ (1 / 512 : ℚ) ≠ 0 ∧ (1 : ℚ) ≠ 0 := by decide +kernel

theorem witness_ComparisonAgreesWithBinary64 :
    let s := latched negInf nanE5M2 0 0
    let t : State := { s with la := nanE5M2 }
    BusOK s.la ∧ BusOK s.lb ∧ Instr.cmpne ∈ [Instr.cmpeq, .cmpne, .cmplt, .cmpgt, .cmple, .cmpge] ∧
      exec .tof s = .next (s.withFOut 0xFFF0000000000000) ∧
      (s.withFOut 0xFFF0000000000000).fOut = some 0xFFF0000000000000 ∧
      exec .tof t = .next (t.withFOut 0x7FF8000000000000) ∧
      (t.withFOut 0x7FF8000000000000).fOut = some 0x7FF8000000000000 :=
  ⟨by decide, by decide, by decide, by rfl, rfl, by rfl, rfl⟩

theorem witness_NegAndAbsChangeTheSignBitOnly : BusOK nanE5M2 ∧ BusOK negZero := by decide

theorem witness_NegationLaws :
    let s := latched nanE5M2 0 0 0
    BusOK s.la ∧ exec .neg s = .next (s.withR (ofBus nanE5M2).flipSign) := ⟨by decide, by rfl⟩

theorem witness_AddOfSpecialValues :
    (BusOK one ∧ BusOK posInf ∧ BusOK negInf ∧ BusOK nanE5M2) ∧ (ofBus nanE5M2).cls = .nan ∧ (ofBus posInf).cls = .infinity ∧
      (ofBus negInf).cls = .infinity ∧ (ofBus posInf).s = (ofBus posInf).s ∧ (ofBus posInf).s ≠ (ofBus negInf).s ∧
      1 ≤ max (busMb posInf) (busMb negInf) ∧ (ofBus one).val ≠ none ∧ (ofBus one).cls ≠ .infinity :=
  ⟨by decide, by decide, by decide, by decide, rfl, by decide, by decide, by rw [val_one]; simp, by decide⟩

theorem witness_AddRoundsTheExactSumOnce :
    (BusOK posZero ∧ BusOK negZero ∧ BusOK one ∧ BusOK 0x1038070000000000000 ∧ BusOK leastSub) ∧ IsNum posZero 0 ∧ IsNum negZero 0 ∧
      IsNum one 1 ∧ IsNum 0x1038070000000000000 (-1) ∧ (1 : ℚ) ≠ 0 ∧ (1 : ℚ) + -1 = 0 ∧ IsNum leastSub (1 / 512) ∧
      (1 : ℚ) + 1 / 512 ≠ 0 :=
  ⟨by decide +kernel, number (by decide +kernel), number (by decide +kernel), number (by decide +kernel),
    number (by decide +kernel), by norm_num, by norm_num, number (by decide +kernel), by norm_num⟩

theorem witness_NonzeroSumsNeverUnderflow :
    let s := latched leastSub posZero 0 0
    BusOK s.la ∧ BusOK s.lb ∧ IsNum s.la (1 / 512) ∧ IsNum s.lb 0 ∧ (1 / 512 : ℚ) + 0 ≠ 0 ∧
      exec .add s = .next (s.withR (addFinite (ofBus leastSub) (ofBus posZero))) :=
  ⟨by decide, by decide, number (by decide +kernel), number (by decide +kernel), by norm_num, by rfl⟩

theorem witness_SubIsAddOfTheNegated : BusOK infE5M0 ∧ BusOK one := by decide

theorem witness_SubRoundsTheExactDifferenceOnce :
    (BusOK posZero ∧ BusOK negZero ∧ BusOK one ∧ BusOK leastSub) ∧ IsNum posZero 0 ∧ IsNum negZero 0 ∧ IsNum one 1 ∧
      (1 : ℚ) ≠ 0 ∧ (1 : ℚ) - 1 = 0 ∧ IsNum leastSub (1 / 512) ∧ (1 : ℚ) - 1 / 512 ≠ 0 :=
  ⟨by decide +kernel, number (by decide +kernel), number (by decide +kernel), number (by decide +kernel), by norm_num,
    by norm_num, number (by decide +kernel), by norm_num⟩

theorem witness_MulOfSpecialValues :
    (BusOK one ∧ BusOK posZero ∧ BusOK posInf ∧ BusOK nanE5M2) ∧ (ofBus nanE5M2).cls = .nan ∧ (ofBus posInf).cls = .infinity ∧
      (ofBus posZero).cls = .zero ∧ 1 ≤ max (busMb posInf) (busMb posZero) ∧ 1 ≤ max (busMb posZero) (busMb posInf) ∧
      (ofBus one).cls ≠ .nan ∧ (ofBus one).cls ≠ .zero ∧ (ofBus one).cls ≠ .infinity := by decide

theorem witness_MulRoundsTheExactProductOnce :
    BusOK leastSub ∧ BusOK one ∧ IsNum leastSub (1 / 512) ∧ IsNum one 1 ∧ (1 / 512 : ℚ) * 1 ≠ 0 :=
  ⟨by decide, by decide, number (by decide +kernel), number (by decide +kernel), by norm_num⟩

theorem witness_AddAndMulCommute : BusOK infE5M0 ∧ BusOK zeroE5M0 ∧ (Instr.mul = .add ∨ Instr.mul = .mul) := by decide

theorem witness_ResultFormatsArePromoted :
    let s := latched posInf nanE5M2 0 0
    let t := s.withR (ofBus 0x14301F0000000000004)
    BusOK s.la ∧ BusOK s.lb ∧ exec .add s = .next t ∧ exec .sub s = .next t ∧ exec .mul s = .next t ∧ t.err = some 0 ∧
      exec .neg s = .next (s.withR (ofBus posInf).flipSign) ∧ exec .abs s = .next (s.withR (ofBus posInf).clearSign) :=
  ⟨by decide, by decide, by rfl, by rfl, by rfl, rfl, by rfl, by rfl⟩

end Sys2Proof.Tests
end

/-! The opcode map, the illegal words and the inputs and outputs of each command (spec/30_encoding.md R80, R81, R86). -/

namespace Sys2Proof.Proofs

open Sys2Proof Sys2Proof.Machine

/-! ### The opcode map (R80) -/

/-- The mask of DECODE and FROMF keeps the opcode. -/
theorem opField_and_targetMask (w : CmdWord) : opField (w &&& 0xFFFF801F) = opField w := by
  have hmask : (0xFFFF801F : CmdWord).extractLsb' 0 5 = BitVec.allOnes 5 := by decide
  rw [opField, BitVec.extractLsb'_and, hmask, BitVec.and_allOnes, opField]

/-- The mask of DECODE and FROMF keeps the reserved bits. -/
theorem rsvField_and_targetMask (w : CmdWord) : rsvField (w &&& 0xFFFF801F) = rsvField w := by
  have hmask : (0xFFFF801F : CmdWord).extractLsb' 15 17 = BitVec.allOnes 17 := by decide
  rw [rsvField, BitVec.extractLsb'_and, hmask, BitVec.and_allOnes, rsvField]

/-- A word that matches under the mask of DECODE and FROMF an opcode with target fields is that command. -/
theorem decode_of_targetMask {w p : CmdWord} {i : Instr} (h : w &&& 0xFFFF801F = p) (hrsv : rsvField p = 0)
    (htarget : hasTarget (opField p) = true) (hi : instrOf (opField p) (tebField w) (tmbField w) = some i) :
    decode w = .ok i := by
  subst h
  rw [rsvField_and_targetMask] at hrsv
  rw [opField_and_targetMask] at htarget hi
  exact decode_eq_ok.2 ⟨hrsv, hi, .inl htarget⟩

/-- The mask of the 21 other commands keeps the whole word. -/
theorem and_wordMask (w : CmdWord) : w &&& 0xFFFFFFFF = w := BitVec.and_allOnes

/-- Settles O4: the masks keep the fields that the decoder tests, and the 21 whole words are decoded one by one. -/
theorem opcodeMapSelectsEachCommand : Obligations.OpcodeMapSelectsEachCommand := by
  unfold Obligations.OpcodeMapSelectsEachCommand
  refine ⟨fun w h => ?_, fun w h => ?_, ?_⟩
  · exact decode_of_targetMask h (by decide) (by decide) rfl
  · exact decode_of_targetMask h (by decide) (by decide) rfl
  · simp only [and_wordMask, forall_eq]
    decide

/-! ### The illegal words (R81) -/

/-- The opcodes that R71 leaves unassigned. -/
theorem instrOf_eq_none {op teb tmb : Nat} : instrOf op teb tmb = none ↔ op = 0 ∨ 0x18 ≤ op := by
  constructor
  · intro h
    by_contra hop
    have hlo : 1 ≤ op := by omega
    have hhi : op < 0x18 := by omega
    interval_cases op <;> cases h
  · rintro (rfl | hop)
    · rfl
    · obtain ⟨n, rfl⟩ := Nat.exists_eq_add_of_le' hop
      rfl

/-- TEB and TMB are the two halves of bits 14..5 (R70). -/
theorem targetBits_eq_zero {w : CmdWord} : w.extractLsb' 5 10 = 0 ↔ tebField w = 0 ∧ tmbField w = 0 := by
  rw [tebField_eq, tmbField_eq, ← BitVec.toNat_inj, BitVec.extractLsb'_toNat, Nat.shiftRight_eq_div_pow]
  simp only [BitVec.ofNat_eq_ofNat, BitVec.toNat_ofNat]
  omega

/-- DECODE and FROMF are the commands with target fields (R70). -/
theorem hasTarget_opField_eq_false {w : CmdWord} :
    hasTarget (opField w) = false ↔ w.extractLsb' 0 5 ≠ 0x01 ∧ w.extractLsb' 0 5 ≠ 0x0B := by
  simp [hasTarget, opField, ← BitVec.toNat_inj]

/-- R81 bit by bit is R81 field by field. -/
theorem illegalWord_iff_fields {w : CmdWord} :
    IllegalWord w ↔ (opField w = 0 ∨ 0x18 ≤ opField w) ∨ rsvField w ≠ 0 ∨
      hasTarget (opField w) = false ∧ (tebField w ≠ 0 ∨ tmbField w ≠ 0) := by
  have hop : w.extractLsb' 0 5 = 0 ↔ opField w = 0 := by simp [opField, ← BitVec.toNat_inj]
  have hrsv : w.extractLsb' 15 17 = 0 ↔ rsvField w = 0 := by simp [rsvField, ← BitVec.toNat_inj]
  rw [IllegalWord, hop, ne_eq, hrsv, ne_eq _ 0, targetBits_eq_zero, hasTarget_opField_eq_false, and_assoc,
    not_and_or, opField]

/-- The decoder rejects exactly the illegal words of R81. -/
theorem exists_decode_eq_error_iff {w : CmdWord} : (∃ e, decode w = .error e) ↔ IllegalWord w := by
  rw [illegalWord_iff_fields, ← instrOf_eq_none (teb := tebField w) (tmb := tmbField w)]
  unfold decode
  split
  · simp [*]
  · split
    · simp [*]
    · split <;> simp_all

/-! ### How a command ends: ERR and the result registers (R86, spec/60 R230) -/

/-- ERR after an ending. -/
def errCode : Ending → ErrWord
  | .value _ | .raw _ | .binary64 _ | .scalar _ => 0
  | .error e => e.code

theorem apply_err (t : Ending) (s : State) : (t.apply s).err = some (errCode t) := by cases t <;> rfl

theorem code_ne_zero (e : CmdError) : e.code ≠ 0 := by cases e <;> decide

theorem code_eq_one_iff {e : CmdError} : e.code = 1 ↔ e = .illegalCmd := by cases e <;> decide

/-- No command reports ILLEGAL_CMD. -/
theorem errCode_ne_one {i : Instr} {t : Ending} (h : t.Fits i) : errCode t ≠ 1 := by
  cases t with
  | error e => exact fun hc => h (code_eq_one_iff.1 hc)
  | value | raw | binary64 | scalar => exact fun hc : (0 : ErrWord) = 1 => absurd hc (by decide)

theorem exec_err_ne_one {i : Instr} {s t : State} (h : exec i s = .next t) : t.err ≠ some 1 := by
  obtain ⟨e, hfits, he⟩ := exec_ends i s
  obtain rfl := Host.Outcome.next.inj (he.symm.trans h)
  rw [apply_err]
  exact fun hc => errCode_ne_one hfits (Option.some.inj hc)

/-- After OK the register that the command names holds a value, and the three others stand as before. -/
def WritesOnly (i : Instr) (s t : State) : Prop :=
  (if i.writes = .r then t.r ≠ none else t.r = s.r) ∧
  (if i.writes = .rawOut then t.rawOut ≠ none else t.rawOut = s.rawOut) ∧
  (if i.writes = .fOut then t.fOut ≠ none else t.fOut = s.fOut) ∧
  (if i.writes = .scal then t.scal ≠ none else t.scal = s.scal)

theorem apply_writesOnly {i : Instr} {t : Ending} (s : State) (hfits : t.Fits i) (hok : errCode t = 0) :
    WritesOnly i s (t.apply s) := by
  cases t with
  | value v => simp [WritesOnly, Ending.apply, hfits.1]
  | raw w => simp [WritesOnly, Ending.apply, show i.writes = .rawOut from hfits]
  | binary64 w => simp [WritesOnly, Ending.apply, show i.writes = .fOut from hfits]
  | scalar w => simp [WritesOnly, Ending.apply, hfits.1]
  | error e => exact absurd hok (code_ne_zero e)

/-- Settles O6: the decoder rejects exactly R81's words, and no command's own error report has the code 1. -/
theorem illegalWordsAndOnlyTheyRaiseIllegalCmd : Obligations.IllegalWordsAndOnlyTheyRaiseIllegalCmd := by
  unfold Obligations.IllegalWordsAndOnlyTheyRaiseIllegalCmd
  intro s hreads hreset hbusy hwait
  have hstep : step s = complete s.later := complete_step hreads hreset hbusy hwait
  constructor
  · intro hill
    obtain ⟨e, he⟩ := exists_decode_eq_error_iff.2 hill
    rw [hstep, complete, State.later_lcmd, he]
    rfl
  · intro hlegal
    cases hd : decode s.lcmd with
    | error e => exact absurd (exists_decode_eq_error_iff.1 ⟨e, hd⟩) hlegal
    | ok i =>
      have hexec : step s = exec i s.later := by rw [hstep, complete, State.later_lcmd, hd]
      exact ⟨⟨i, rfl, hexec⟩, fun t ht => exec_err_ne_one (hexec.symm.trans ht)⟩

/-! ### The inputs a command reads (R86) -/

/-- An ending does not depend on the latches that the command does not list. -/
theorem endingOf_congr (i : Instr) {a a' b b' : BusWord} {x x' f f' : Word64} (hA : i.readsA = true → a' = a)
    (hB : i.readsB = true → b' = b) (hX : i.readsRaw = true → x' = x) (hF : i.readsF = true → f' = f) :
    endingOf a' b' x' f' i = endingOf a b x f i := by
  cases i with
  | decode => obtain rfl := hX rfl; rfl
  | fromf => obtain rfl := hF rfl; rfl
  | encode | classify | isnan | isinf | iszero | signneg | getsign | geteb | getmb | tof | neg | abs =>
    obtain rfl := hA rfl; rfl
  | add | sub | mul | cmpeq | cmpne | cmplt | cmpgt | cmple | cmpge =>
    obtain rfl := hA rfl; obtain rfl := hB rfl; rfl

/-- An ending leaves the operand latches as they stand. -/
theorem apply_operandLatches (t : Ending) (s : State) (a b : BusWord) (x f : Word64) :
    t.apply { s with la := a, lb := b, lraw := x, lf := f } =
      { t.apply s with la := a, lb := b, lraw := x, lf := f } := by cases t <;> rfl

/-- Other bits in the latches of unlisted inputs change nothing else in the outcome. -/
theorem exec_unlistedInputs {i : Instr} {s t : State} {a b : BusWord} {x f : Word64} (h : exec i s = .next t)
    (hA : i.readsA = true → a = s.la) (hB : i.readsB = true → b = s.lb) (hX : i.readsRaw = true → x = s.lraw)
    (hF : i.readsF = true → f = s.lf) :
    exec i { s with la := a, lb := b, lraw := x, lf := f } =
      .next { t with la := a, lb := b, lraw := x, lf := f } := by
  rw [exec_eq] at h
  obtain rfl := Host.Outcome.next.inj h
  rw [exec_eq, endingOf_congr i hA hB hX hF, apply_operandLatches]

/-- Every command answers a next state with an ERR code, and with OK it writes the register it names only. -/
theorem exec_writesOnly (i : Instr) (s : State) :
    ∃ t, exec i s = .next t ∧ t.err ≠ none ∧ (t.err = some 0 → WritesOnly i s t) := by
  obtain ⟨e, hfits, he⟩ := exec_ends i s
  refine ⟨e.apply s, he, ?_, fun hok => ?_⟩
  · rw [apply_err]
    exact Option.some_ne_none _
  · rw [apply_err] at hok
    exact apply_writesOnly s hfits (Option.some.inj hok)

/-- Settles O19: the table row by row, then the ending as a function of the listed latches, and its write set. -/
theorem commandsUseWhatTheyListOnly : Obligations.CommandsUseWhatTheyListOnly := by
  unfold Obligations.CommandsUseWhatTheyListOnly
  refine ⟨fun teb tmb => ?_, fun i s t a b x f h hA hB hX hF => exec_unlistedInputs h hA hB hX hF, exec_writesOnly⟩
  simp [Instr.readsA, Instr.readsB, Instr.readsRaw, Instr.readsF, Instr.writes]

end Sys2Proof.Proofs

/-! The BitFieldCodec: DECODE, ENCODE and the three accessors (spec/40_codec.md R100 to R106). -/

namespace Sys2Proof.Proofs

open Sys2Proof Sys2Proof.Machine

/-! ### The operand check and the words of DECODE -/

/-- The operand check of R75 asks for a well-formed value. -/
theorem busOK_iff_wf {w : BusWord} : BusOK w ↔ (ofBus w).WF := by
  constructor
  · rintro ⟨heb, heb', hmb, he, hm⟩
    exact ⟨⟨heb, heb', hmb⟩, he, hm⟩
  · rintro ⟨⟨heb, heb', hmb⟩, he, hm⟩
    exact ⟨heb, heb', hmb, he, hm⟩

/-- A command on operand A goes on with the value of A's word once the check of R75 holds. -/
theorem withA_of_busOK {s : State} (h : BusOK s.la) (k : Value → Result) : withA s k = k (ofBus s.la) :=
  withA_of_wf (busOK_iff_wf.1 h) k

/-- A word put together from fields in range decodes to the command of its opcode, when that has target fields (R70). -/
theorem decode_targetWord {op teb tmb : Nat} {i : Instr} (hop : op < 32) (hteb : teb < 16) (htmb : tmb < 64)
    (htarget : hasTarget op = true) (hi : instrOf op teb tmb = some i) :
    decode (BitVec.ofNat 32 (op + 32 * teb + 512 * tmb)) = .ok i := by
  have hw : (BitVec.ofNat 32 (op + 32 * teb + 512 * tmb)).toNat = op + 32 * teb + 512 * tmb := by
    rw [BitVec.toNat_ofNat]
    omega
  rw [decode_eq_ok, opField_eq, tebField_eq, tmbField_eq, rsvField_eq, hw,
    show (op + 32 * teb + 512 * tmb) % 32 = op by omega,
    show (op + 32 * teb + 512 * tmb) / 32 % 16 = teb by omega,
    show (op + 32 * teb + 512 * tmb) / 512 % 64 = tmb by omega]
  exact ⟨by omega, hi, .inl htarget⟩

/-! ### DECODE (R102) -/

section Decode

variable {s : State} {teb tmb : Nat}

theorem exec_decode_of_not_legal (h : ¬ (Format.mk teb tmb).Legal) :
    exec (.decode teb tmb) s = .next (s.withError .illegalWidths) := if_pos h

theorem exec_decode_of_legal (h : (Format.mk teb tmb).Legal) :
    exec (.decode teb tmb) s =
      if s.lraw.toNat ≥ 2 ^ (Format.mk teb tmb).width then .next (s.withError .rawTooWide)
      else .next (s.withR (split s.lraw.toNat ⟨teb, tmb⟩)) := if_neg (not_not.2 h)

end Decode

/-- Settles O25: the fields of the word one by one, then the three branches of R102's pseudocode. -/
theorem decodeSplitsTheRawPattern : Obligations.DecodeSplitsTheRawPattern := by
  unfold Obligations.DecodeSplitsTheRawPattern
  refine ⟨fun teb tmb hteb htmb => decode_targetWord (by decide) hteb htmb rfl rfl,
    fun s teb tmb => ⟨fun hwidths => ?_, fun heb heb' hmb hwide => ?_, fun heb heb' hmb hfits => ?_⟩⟩
  · exact exec_decode_of_not_legal hwidths
  · rw [exec_decode_of_legal ⟨heb, heb', hmb⟩]
    exact if_pos hwide
  · rw [exec_decode_of_legal ⟨heb, heb', hmb⟩]
    exact if_neg (Nat.not_le.2 hfits)

/-! ### ENCODE (R103) -/

/-- `Pack` (R101) of the value of a bus word, from the fields of the word. -/
theorem pack_ofBus (w : BusWord) :
    pack (ofBus w) = (w.getLsbD 63).toNat * 2 ^ (busEb w + busMb w) + busE w * 2 ^ busMb w + busM w := by
  rw [Bool.toNat, Bool.cond_eq_ite]
  rfl

theorem exec_encode_of_busOK {s : State} (h : BusOK s.la) :
    exec .encode s = .next (s.withRawOut (rawWord (ofBus s.la))) := by
  rw [exec, execEncode, withA_of_busOK h, answerRawOut]

/-- Settles O26: the packed number is `Pack` of the operand, whose bound is R101's. -/
theorem encodePacksTheFields : Obligations.EncodePacksTheFields := by
  unfold Obligations.EncodePacksTheFields
  refine ⟨by decide, fun s hok => ?_⟩
  rw [← pack_ofBus]
  exact ⟨exec_encode_of_busOK hok, pack_lt (busOK_iff_wf.1 hok)⟩

/-! ### GETSIGN, GETEB and GETMB (R104 to R106) -/

/-- A bit on SCAL (R79) is that bit of the word, zero-extended. -/
theorem boolScal_getLsbD (w : BusWord) (k : Nat) : boolScal (w.getLsbD k) = (w.extractLsb' k 1).setWidth 8 := by
  have hbit : ∀ x : BitVec 1, boolScal (x == 1) = x.setWidth 8 := by decide
  rw [BitVec.getLsbD_eq_extractLsb']
  exact hbit _

section Accessors

variable {s : State} (h : BusOK s.la)
include h

theorem exec_getsign_of_busOK : exec .getsign s = .next (s.withScal ((s.la.extractLsb' 63 1).setWidth 8)) := by
  rw [exec, execGetsign, withA_of_busOK h, answerScal, ← boolScal_getLsbD, ofBus]

theorem exec_geteb_of_busOK : exec .geteb s = .next (s.withScal ((s.la.extractLsb' 70 4).setWidth 8)) := by
  rw [exec, execGeteb, withA_of_busOK h, answerScal, ← BitVec.ofNat_toNat, ofBus]

theorem exec_getmb_of_busOK : exec .getmb s = .next (s.withScal ((s.la.extractLsb' 64 6).setWidth 8)) := by
  rw [exec, execGetmb, withA_of_busOK h, answerScal, ← BitVec.ofNat_toNat, ofBus]

end Accessors

/-- Settles O27: each accessor puts one field of the checked operand on SCAL. -/
theorem accessorsReadTheFields : Obligations.AccessorsReadTheFields := by
  unfold Obligations.AccessorsReadTheFields
  exact ⟨by decide, fun s hok => ⟨exec_getsign_of_busOK hok, exec_geteb_of_busOK hok, exec_getmb_of_busOK hok⟩⟩

end Sys2Proof.Proofs

/-! The ValueClassifier: CLASSIFY, the three class predicates and SIGNNEG (spec/41_classify.md R120 to R128). -/

namespace Sys2Proof.Proofs

open Sys2Proof Sys2Proof.Machine

/-! ### The rows of the class table (R120) for a well-formed value

The exponent field of all ones is never the field 0, also at `eb = 1`, so no row needs the two told apart. -/

theorem eall_pos {F : Format} (h : F.Legal) : 0 < F.eall := by
  rw [Format.eall_eq h.1]
  exact Nat.succ_pos _

section ClassTable

variable {v : Value} (h : v.WF)
include h

theorem cls_eq_normal_iff_of_wf : v.cls = .normal ↔ 1 ≤ v.e ∧ v.e ≤ v.fmt.eall - 1 := by
  obtain ⟨hlegal, he, -⟩ := h
  have hpos := eall_pos hlegal
  have hle : v.e ≤ v.fmt.eall := Nat.le_sub_one_of_lt he
  rw [Value.cls_normal]
  omega

theorem e_ne_zero_of_eq_eall (he : v.e = v.fmt.eall) : v.e ≠ 0 := he ▸ (eall_pos h.1).ne'

theorem cls_eq_infinity_iff_of_wf : v.cls = .infinity ↔ v.e = v.fmt.eall ∧ v.m = 0 :=
  Value.cls_infinity.trans (and_iff_right_of_imp fun hrow => e_ne_zero_of_eq_eall h hrow.1)

theorem cls_eq_nan_iff_of_wf : v.cls = .nan ↔ v.e = v.fmt.eall ∧ v.m ≠ 0 :=
  Value.cls_nan.trans (and_iff_right_of_imp fun hrow => e_ne_zero_of_eq_eall h hrow.1)

end ClassTable

/-! ### CLASSIFY (R124) -/

theorem exec_classify_of_cls {s : State} (h : BusOK s.la) (c : Machine.Class) (hc : (ofBus s.la).cls = c) :
    exec .classify s = .next (s.withScal c.code) := by
  rw [exec, execClassify, withA_of_busOK h, answerScal, hc]

/-- Settles O30: each clause is one row of the class table, read from the fields of the checked operand. -/
theorem classifyFollowsTheClassTable : Obligations.ClassifyFollowsTheClassTable := by
  unfold Obligations.ClassifyFollowsTheClassTable
  refine ⟨by decide, fun s hok => ?_⟩
  have hwf := busOK_iff_wf.1 hok
  refine ⟨fun he hm => ?zero, fun he hm => ?subnormal, fun hlo hhi => ?normal, fun he hm => ?infinity,
    fun he hm => ?nan⟩
  case zero => exact exec_classify_of_cls hok .zero (Value.cls_zero.2 ⟨he, hm⟩)
  case subnormal => exact exec_classify_of_cls hok .subnormal (Value.cls_subnormal.2 ⟨he, hm⟩)
  case normal => exact exec_classify_of_cls hok .normal ((cls_eq_normal_iff_of_wf hwf).2 ⟨hlo, hhi⟩)
  case infinity => exact exec_classify_of_cls hok .infinity ((cls_eq_infinity_iff_of_wf hwf).2 ⟨he, hm⟩)
  case nan => exact exec_classify_of_cls hok .nan ((cls_eq_nan_iff_of_wf hwf).2 ⟨he, hm⟩)

/-! ### ISNAN, ISINF, ISZERO and SIGNNEG (R125 to R128) -/

/-- A command that puts `bool(c)` on SCAL (R79) answers 0x01 where `p`, equivalent to `c`, holds, and 0x00 elsewhere. -/
theorem exec_answers_of_iff {i : Instr} {s : State} {c : Bool} {p : Prop}
    (hexec : exec i s = .next (s.withScal (boolScal c))) (hc : c = true ↔ p) :
    (p → exec i s = .next (s.withScal 1)) ∧ (¬ p → exec i s = .next (s.withScal 0)) := by
  rw [hexec, boolScal]
  constructor
  · intro hp
    rw [if_pos (hc.2 hp)]
  · intro hp
    rw [if_neg (hp ∘ hc.1)]

section Predicates

variable {s : State} (h : BusOK s.la)
include h

theorem exec_isnan_of_busOK :
    exec .isnan s = .next (s.withScal (boolScal (decide ((ofBus s.la).cls = .nan)))) := by
  rw [exec, execIsnan, withA_of_busOK h, answerScal]

theorem exec_isinf_of_busOK :
    exec .isinf s = .next (s.withScal (boolScal (decide ((ofBus s.la).cls = .infinity)))) := by
  rw [exec, execIsinf, withA_of_busOK h, answerScal]

theorem exec_iszero_of_busOK :
    exec .iszero s = .next (s.withScal (boolScal (decide ((ofBus s.la).cls = .zero)))) := by
  rw [exec, execIszero, withA_of_busOK h, answerScal]

theorem exec_signneg_of_busOK : exec .signneg s = .next (s.withScal (boolScal (s.la.getLsbD 63))) := by
  rw [exec, execSignneg, withA_of_busOK h, answerScal, ofBus]

end Predicates

/-- Settles O31: each predicate answers a class, whose row of the class table is the condition on the fields; SIGNNEG
answers the sign bit itself. -/
theorem predicatesFollowTheFields : Obligations.PredicatesFollowTheFields := by
  unfold Obligations.PredicatesFollowTheFields
  refine ⟨by decide, fun s hok => ?_⟩
  have hwf := busOK_iff_wf.1 hok
  refine ⟨?isnan, ?isinf, ?iszero, ?signneg⟩
  case isnan =>
    exact exec_answers_of_iff (exec_isnan_of_busOK hok) (decide_eq_true_iff.trans (cls_eq_nan_iff_of_wf hwf))
  case isinf =>
    exact exec_answers_of_iff (exec_isinf_of_busOK hok) (decide_eq_true_iff.trans (cls_eq_infinity_iff_of_wf hwf))
  case iszero => exact exec_answers_of_iff (exec_iszero_of_busOK hok) (decide_eq_true_iff.trans Value.cls_zero)
  case signneg =>
    rw [← Bool.not_eq_true]
    exact exec_answers_of_iff (exec_signneg_of_busOK hok) Iff.rfl

end Sys2Proof.Proofs

/-! The ComparisonEngine: the six comparisons (spec/43_compare.md R170 to R176). -/

namespace Sys2Proof.Proofs

open Sys2Proof Sys2Proof.Machine

/-! ### The order of the extended rationals (R170)

The comparators of the model are Mathlib's order of ℚ with a bottom and a top. -/

theorem ordered_inj {x y : ExtRat} : ordered x = ordered y ↔ x = y := by
  cases x <;> cases y <;> simp [ordered]

theorem extRat_lt_iff {x y : ExtRat} : x.lt y = true ↔ ordered x < ordered y := by
  cases x with
  | negInf => cases y <;> simp [ordered, ExtRat.lt]
  | fin q =>
    cases y with
    | negInf | fin => simp [ordered, ExtRat.lt]
    | posInf => exact iff_of_true rfl (WithBot.coe_lt_coe.2 (WithTop.coe_lt_top q))
  | posInf => cases y <;> simp [ordered, ExtRat.lt]

theorem extRat_eq_iff {x y : ExtRat} : decide (x = y) = true ↔ ordered x = ordered y :=
  decide_eq_true_iff.trans ordered_inj.symm

theorem extRat_ne_iff {x y : ExtRat} : decide (x ≠ y) = true ↔ ordered x ≠ ordered y :=
  decide_eq_true_iff.trans ordered_inj.symm.not

theorem extRat_le_iff {x y : ExtRat} : (x.lt y || decide (x = y)) = true ↔ ordered x ≤ ordered y := by
  rw [Bool.or_eq_true, extRat_lt_iff, extRat_eq_iff, le_iff_lt_or_eq]

theorem extRat_ge_iff {x y : ExtRat} : (y.lt x || decide (x = y)) = true ↔ ordered y ≤ ordered x := by
  rw [Bool.or_eq_true, extRat_lt_iff, extRat_eq_iff, le_iff_lt_or_eq, eq_comm]

/-! ### `X(a)` against `X(b)` -/

theorem compareX_of_nan {a b : Value} (h : a.val = none ∨ b.val = none) (p : ExtRat → ExtRat → Bool) :
    compareX p a b = false := by
  obtain ha | hb := h
  · rw [compareX, ha]
  · rw [compareX, hb]
    cases a.val <;> rfl

theorem compareX_of_val {a b : Value} {x y : ExtRat} (ha : a.val = some x) (hb : b.val = some y)
    (p : ExtRat → ExtRat → Bool) : compareX p a b = p x y := by
  rw [compareX, ha, hb]

/-! ### The six commands (R171 to R176) -/

/-- A command that reads A and B on the value bus goes on with both values once the check of R75 holds for both. -/
theorem withAB_of_busOK {s : State} (ha : BusOK s.la) (hb : BusOK s.lb) (k : Value → Value → Result) :
    withAB s k = k (ofBus s.la) (ofBus s.lb) := withAB_of_wf (busOK_iff_wf.1 ha) (busOK_iff_wf.1 hb) k

/-- The pseudocode that R171 to R176 share: the command `i` puts on SCAL whether `p` holds of `X(a)` and `X(b)`. -/
def IsComparison (i : Instr) (p : ExtRat → ExtRat → Bool) : Prop :=
  ∀ s : State, exec i s = withAB s fun a b => answerScal (boolScal (compareX p a b)) s

theorem isComparison_cmpeq : IsComparison .cmpeq fun x y => decide (x = y) := fun _ => rfl

theorem isComparison_cmpne : IsComparison .cmpne fun x y => decide (x ≠ y) := fun _ => rfl

theorem isComparison_cmplt : IsComparison .cmplt fun x y => x.lt y := fun _ => rfl

theorem isComparison_cmpgt : IsComparison .cmpgt fun x y => y.lt x := fun _ => rfl

theorem isComparison_cmple : IsComparison .cmple fun x y => x.lt y || decide (x = y) := fun _ => rfl

theorem isComparison_cmpge : IsComparison .cmpge fun x y => y.lt x || decide (x = y) := fun _ => rfl

section Comparison

variable {i : Instr} {p : ExtRat → ExtRat → Bool} (hi : IsComparison i p) {s : State} (ha : BusOK s.la)
  (hb : BusOK s.lb)
include hi ha hb

theorem IsComparison.exec_of_busOK :
    exec i s = .next (s.withScal (boolScal (compareX p (ofBus s.la) (ofBus s.lb)))) := by
  rw [hi, withAB_of_busOK ha hb, answerScal]

/-- With a NaN operand the answer is 0x00, whatever the relation. -/
theorem IsComparison.exec_of_nan (h : (ofBus s.la).val = none ∨ (ofBus s.lb).val = none) :
    exec i s = .next (s.withScal 0) := by
  rw [hi.exec_of_busOK ha hb, compareX_of_nan h, boolScal, if_neg Bool.false_ne_true]

/-- Without a NaN the answer is the relation `q` that `p` decides. -/
theorem IsComparison.exec_of_val {x y : ExtRat} {q : Prop} (hx : (ofBus s.la).val = some x)
    (hy : (ofBus s.lb).val = some y) (hq : p x y = true ↔ q) :
    (q → exec i s = .next (s.withScal 1)) ∧ (¬ q → exec i s = .next (s.withScal 0)) :=
  exec_answers_of_iff (hi.exec_of_busOK ha hb) (by rw [compareX_of_val hx hy, hq])

end Comparison

/-- Settles O46: every comparison answers its relation on `X(a)` and `X(b)`, which is Mathlib's on their images, and
0x00 where an operand has no `X`. -/
theorem comparisonsCompareRealValues : Obligations.ComparisonsCompareRealValues := by
  unfold Obligations.ComparisonsCompareRealValues
  refine ⟨by decide, fun s ha hb => ⟨fun hnan => ?nan, fun x y hx hy => ?real⟩⟩
  case nan =>
    exact ⟨isComparison_cmpeq.exec_of_nan ha hb hnan, isComparison_cmpne.exec_of_nan ha hb hnan,
      isComparison_cmplt.exec_of_nan ha hb hnan, isComparison_cmpgt.exec_of_nan ha hb hnan,
      isComparison_cmple.exec_of_nan ha hb hnan, isComparison_cmpge.exec_of_nan ha hb hnan⟩
  case real =>
    exact ⟨isComparison_cmpeq.exec_of_val ha hb hx hy extRat_eq_iff,
      isComparison_cmpne.exec_of_val ha hb hx hy extRat_ne_iff,
      isComparison_cmplt.exec_of_val ha hb hx hy extRat_lt_iff,
      isComparison_cmpgt.exec_of_val ha hb hx hy extRat_lt_iff,
      isComparison_cmple.exec_of_val ha hb hx hy extRat_le_iff,
      isComparison_cmpge.exec_of_val ha hb hx hy extRat_ge_iff⟩

end Sys2Proof.Proofs

/-! The ArithmeticEngine: NEG, ABS, SUB against ADD, and the format of the results (spec/44_arith.md R190 to R196). -/

namespace Sys2Proof.Proofs

open Sys2Proof Sys2Proof.Machine

/-! ### The sign bit of a value bus word (R74)

Bit 63 stands apart from the four other fields, so a change of that bit alone is a change of the value's sign alone. -/

/-- A word that agrees with `w` outside bit 63 stands for the value of `w` with the sign of its own bit 63 (R75). -/
theorem ofBus_of_agree_off_sign {u w : BusWord} {sgn : Bool} (hoff : ∀ i < 74, i ≠ 63 → u.getLsbD i = w.getLsbD i)
    (hsgn : u.getLsbD 63 = sgn) : ofBus u = { ofBus w with s := sgn } := by
  have hfield : ∀ lo len, (63 < lo ∧ lo + len ≤ 74 ∨ lo + len ≤ 63) →
      u.extractLsb' lo len = w.extractLsb' lo len := by
    intro lo len hapart
    apply BitVec.eq_of_getLsbD_eq
    intro i hi
    rw [BitVec.getLsbD_extractLsb', BitVec.getLsbD_extractLsb', hoff (lo + i) (by omega) (by omega)]
  simp only [ofBus, hsgn, hfield 52 11 (by omega), hfield 0 52 (by omega), hfield 70 4 (by omega),
    hfield 64 6 (by omega)]

theorem getLsbD_signBit (i : Nat) : (0x8000000000000000 : BusWord).getLsbD i = decide (i = 63) := by
  rw [show (0x8000000000000000 : BusWord) = BitVec.twoPow 74 63 by decide, BitVec.getLsbD_twoPow]
  simp [eq_comm]

theorem ofBus_xor_signBit (w : BusWord) : ofBus (w ^^^ 0x8000000000000000) = (ofBus w).flipSign := by
  have hbit : ∀ i, (w ^^^ 0x8000000000000000).getLsbD i = (w.getLsbD i ^^ decide (i = 63)) := fun i => by
    rw [BitVec.getLsbD_xor, getLsbD_signBit]
  refine ofBus_of_agree_off_sign (fun i _ hi => ?_) ?_
  · rw [hbit, decide_eq_false hi, Bool.xor_false]
  · rw [hbit, decide_eq_true rfl, Bool.xor_true, ofBus]

theorem ofBus_clear_signBit (w : BusWord) : ofBus (w &&& ~~~0x8000000000000000) = (ofBus w).clearSign := by
  have hbit : ∀ i < 74, (w &&& ~~~0x8000000000000000).getLsbD i = (w.getLsbD i && !decide (i = 63)) := fun i hi => by
    rw [BitVec.getLsbD_and, BitVec.getLsbD_not, getLsbD_signBit, decide_eq_true hi, Bool.true_and]
  refine ofBus_of_agree_off_sign (fun i hlt hi => ?_) ?_
  · rw [hbit i hlt, decide_eq_false hi, Bool.not_false, Bool.and_true]
  · rw [hbit 63 (by decide), decide_eq_true rfl, Bool.not_true, Bool.and_false]

theorem toBus_flipSign_ofBus (w : BusWord) : toBus (ofBus w).flipSign = w ^^^ 0x8000000000000000 := by
  rw [← ofBus_xor_signBit, toBus_ofBus]

theorem toBus_clearSign_ofBus (w : BusWord) : toBus (ofBus w).clearSign = w &&& ~~~0x8000000000000000 := by
  rw [← ofBus_clear_signBit, toBus_ofBus]

/-! ### NEG and ABS (R192, R193) -/

section SignCommands

variable {s : State} (h : BusOK s.la)
include h

theorem exec_neg_of_busOK : exec .neg s = .next (s.withR (ofBus s.la).flipSign) := by
  rw [exec, execNeg, withA_of_busOK h, answerR]

theorem exec_abs_of_busOK : exec .abs s = .next (s.withR (ofBus s.la).clearSign) := by
  rw [exec, execAbs, withA_of_busOK h, answerR]

end SignCommands

/-- Settles O50: the word of the operand with its sign changed is the operand's word with bit 63 changed. -/
theorem negAndAbsChangeTheSignBitOnly : Obligations.NegAndAbsChangeTheSignBitOnly := by
  unfold Obligations.NegAndAbsChangeTheSignBitOnly
  refine ⟨by decide, fun s hok => ⟨?neg, ?abs⟩⟩
  case neg =>
    rw [exec_neg_of_busOK hok, ← toBus_flipSign_ofBus]
    rfl
  case abs =>
    rw [exec_abs_of_busOK hok, ← toBus_clearSign_ofBus]
    rfl

/-! ### SUB is ADD of the negated operand (R195) -/

/-- The ending of SUB is the ending of ADD on the B word with bit 63 flipped, operand errors included. -/
theorem endingOf_sub_eq_add (a b : BusWord) (x f : Word64) :
    endingOf a b x f .sub = endingOf a (b ^^^ 0x8000000000000000) x f .add := by
  rw [endingOf, endingOf, Ending.onAB, Ending.onAB, ofBus_xor_signBit]
  rfl

/-- An ending leaves the latch of B as it stands and does not depend on it. -/
theorem apply_with_lb (t : Ending) (s : State) (b : BusWord) :
    t.apply { s with lb := b } = { t.apply s with lb := b } := by cases t <;> rfl

/-- Settles O55: both commands end alike, and the ending keeps the flipped word in the latch of B. -/
theorem subIsAddOfTheNegated : Obligations.SubIsAddOfTheNegated := by
  unfold Obligations.SubIsAddOfTheNegated
  refine ⟨by decide, fun s _ _ => ⟨_, exec_eq .sub s, ?_⟩⟩
  rw [exec_eq, endingOf_sub_eq_add, apply_with_lb]

/-! ### The format of the results (R190) -/

/-- R holds a well-formed value bus word of the format `F`. -/
def HoldsWordOf (F : Format) (t : State) : Prop :=
  ∃ w, t.r = some w ∧ BusOK w ∧ busEb w = F.eb ∧ busMb w = F.mb

theorem withR_holdsWordOf {v : Value} (h : v.WF) (s : State) : HoldsWordOf v.fmt (s.withR v) := by
  have hfmt : (ofBus (toBus v)).fmt = v.fmt := by rw [ofBus_toBus h]
  exact ⟨toBus v, rfl, busOK_toBus h, congrArg Format.eb hfmt, congrArg Format.mb hfmt⟩

/-- A command that ends with a value or with NAN_UNREPRESENTABLE has, after OK, written a value of the format `F`, when
all its values are of that format. -/
theorem holdsWordOf_of_answerOrNoNaN {o : Option Value} {F : Format} {s t : State}
    (ho : ∀ v, o = some v → v.WF ∧ v.fmt = F) (h : answerOrNoNaN o s = .next t) (hok : t.err = some 0) :
    HoldsWordOf F t := by
  cases o with
  | none =>
    obtain rfl := Host.Outcome.next.inj h
    exact absurd (Option.some.inj hok) (code_ne_zero .nanUnrepresentable)
  | some v =>
    obtain rfl := Host.Outcome.next.inj h
    obtain ⟨hwf, rfl⟩ := ho v rfl
    exact withR_holdsWordOf hwf s

/-- ADD, SUB and MUL write values of the promoted format. -/
theorem binaryResult_holdsPromoted {s t : State} {i : Instr} (hi : i = .add ∨ i = .sub ∨ i = .mul)
    (ha : BusOK s.la) (hb : BusOK s.lb) (h : exec i s = .next t) (hok : t.err = some 0) :
    HoldsWordOf (promote (ofBus s.la) (ofBus s.lb)) t := by
  have hA := busOK_iff_wf.1 ha
  have hB := busOK_iff_wf.1 hb
  obtain rfl | rfl | rfl := hi
  case inl =>
    rw [exec, execAdd, withAB_of_busOK ha hb] at h
    exact holdsWordOf_of_answerOrNoNaN (fun _ => addValue_wf hA hB) h hok
  case inr.inl =>
    rw [exec, execSub, withAB_of_busOK ha hb] at h
    rw [← promote_flipSign]
    exact holdsWordOf_of_answerOrNoNaN (fun _ => addValue_wf hA (Value.flipSign_wf hB)) h hok
  case inr.inr =>
    rw [exec, execMul, withAB_of_busOK ha hb] at h
    exact holdsWordOf_of_answerOrNoNaN (fun _ => mulValue_wf hA hB) h hok

/-- NEG and ABS write a value of the operand's format. -/
theorem signResult_holdsOperandFormat {s t : State} {i : Instr} (hi : i = .neg ∨ i = .abs) (ha : BusOK s.la)
    (h : exec i s = .next t) : HoldsWordOf (ofBus s.la).fmt t := by
  have hA := busOK_iff_wf.1 ha
  obtain rfl | rfl := hi
  case inl =>
    obtain rfl := Host.Outcome.next.inj ((exec_neg_of_busOK ha).symm.trans h)
    exact withR_holdsWordOf (Value.flipSign_wf hA) s
  case inr =>
    obtain rfl := Host.Outcome.next.inj ((exec_abs_of_busOK ha).symm.trans h)
    exact withR_holdsWordOf (Value.clearSign_wf hA) s

/-- Settles O60: the values of ADD, SUB and MUL are well-formed in the promoted format, and a sign change keeps the
format. -/
theorem resultFormatsArePromoted : Obligations.ResultFormatsArePromoted := by
  unfold Obligations.ResultFormatsArePromoted
  exact fun s t i ha => ⟨fun hi hb h hok => binaryResult_holdsPromoted hi ha hb h hok,
    fun hi h => signResult_holdsOperandFormat hi ha h⟩

end Sys2Proof.Proofs

/-! The errors that operands raise: INVALID_OPERAND, FORMAT_ERROR and NAN_UNREPRESENTABLE (spec/60_exceptions.md R232 to
R234). -/

namespace Sys2Proof.Proofs

open Sys2Proof Sys2Proof.Machine

/-! ### INVALID_OPERAND (R232)

The check of A stands before everything else a command does with its operands, and the check of B directly after it. -/

section MalformedOperands

variable {a b : BusWord}

theorem onA_of_not_busOK (ha : ¬ BusOK a) (k : Value → Ending) : Ending.onA a k = .error .invalidOperandA :=
  if_neg (ha ∘ busOK_iff_wf.2)

theorem onAB_of_not_busOK_right (ha : BusOK a) (hb : ¬ BusOK b) (k : Value → Value → Ending) :
    Ending.onAB a b k = .error .invalidOperandB := by
  rw [Ending.onAB, Ending.onA, if_pos (busOK_iff_wf.1 ha), if_neg (hb ∘ busOK_iff_wf.2)]

variable {i : Instr} {x f : Word64}

theorem endingOf_of_malformedA (hi : i.readsA = true) (ha : ¬ BusOK a) :
    endingOf a b x f i = .error .invalidOperandA := by
  cases i with
  | decode | fromf => cases hi
  | encode | classify | isnan | isinf | iszero | signneg | getsign | geteb | getmb | tof | neg | abs
  | add | sub | mul | cmpeq | cmpne | cmplt | cmpgt | cmple | cmpge =>
    rw [endingOf]
    exact onA_of_not_busOK ha _

theorem endingOf_of_malformedB (hi : i.readsB = true) (ha : BusOK a) (hb : ¬ BusOK b) :
    endingOf a b x f i = .error .invalidOperandB := by
  cases i with
  | decode | fromf | encode | classify | isnan | isinf | iszero | signneg | getsign | geteb | getmb | tof | neg
  | abs => cases hi
  | add | sub | mul | cmpeq | cmpne | cmplt | cmpgt | cmple | cmpge =>
    rw [endingOf]
    exact onAB_of_not_busOK_right ha hb _

end MalformedOperands

/-- Settles O21: the ending of a command that reads a malformed operand is the report of the first operand check that
fails. -/
theorem malformedOperandsRaiseInvalidOperand : Obligations.MalformedOperandsRaiseInvalidOperand := by
  unfold Obligations.MalformedOperandsRaiseInvalidOperand
  refine fun i s => ⟨fun hi ha => ?malformedA, fun hi ha hb => ?malformedB⟩
  case malformedA =>
    rw [exec_eq, endingOf_of_malformedA hi ha]
    rfl
  case malformedB =>
    rw [exec_eq, endingOf_of_malformedB hi ha hb]
    rfl

/-! ### FORMAT_ERROR (R233) -/

theorem not_legal_iff {teb tmb : Nat} : ¬ (Format.mk teb tmb).Legal ↔ teb = 0 ∨ teb > 11 ∨ tmb > 52 := by
  simp only [Format.Legal, Config.ebMax, Config.mbMax]
  omega

theorem exec_fromf_of_not_legal {s : State} {teb tmb : Nat} (h : ¬ (Format.mk teb tmb).Legal) :
    exec (.fromf teb tmb) s = .next (s.withError .illegalWidths) := if_pos h

/-- A pattern with a bit set at or above bit `n` is no `n`-bit number. -/
theorem two_pow_le_toNat_of_getLsbD {w : Word64} {n k : Nat} (hk : n ≤ k) (hbit : w.getLsbD k = true) :
    2 ^ n ≤ w.toNat :=
  (Nat.pow_le_pow_right two_pos hk).trans (Nat.ge_two_pow_of_testBit hbit)

/-- Settles O22: both commands check the target widths first, and a set bit at or above `W(F_t)` makes the pattern of
DECODE too wide. -/
theorem badFormatsRaiseFormatError : Obligations.BadFormatsRaiseFormatError := by
  unfold Obligations.BadFormatsRaiseFormatError
  refine fun s teb tmb => ⟨fun hwidths => ?widths, fun heb heb' hmb ⟨k, hk, hbit⟩ => ?raw⟩
  case widths =>
    have hillegal := not_legal_iff.2 hwidths
    exact ⟨exec_decode_of_not_legal hillegal, exec_fromf_of_not_legal hillegal⟩
  case raw =>
    rw [exec_decode_of_legal ⟨heb, heb', hmb⟩]
    exact if_pos (two_pow_le_toNat_of_getLsbD hk hbit)

/-! ### NAN_UNREPRESENTABLE (R234): when the value of a command is none -/

theorem promote_mb_eq_zero {a b : Value} : (promote a b).mb = 0 ↔ a.fmt.mb = 0 ∧ b.fmt.mb = 0 := Nat.max_eq_zero_iff

/-- The canonical NaN of the promoted format is missing exactly when both operands have no mantissa. -/
theorem canonNaN_promote_eq_none {a b : Value} {sgn : Bool} :
    canonNaN (promote a b) sgn = none ↔ a.fmt.mb = 0 ∧ b.fmt.mb = 0 := canonNaN_none.trans promote_mb_eq_zero

/-- A NaN operand has a mantissa, so the NaN it makes is representable. -/
theorem canonNaN_promote_ne_none_of_nan {a b : Value} {sgn : Bool}
    (h : a.WF ∧ a.cls = .nan ∨ b.WF ∧ b.cls = .nan) : canonNaN (promote a b) sgn ≠ none := by
  intro hnone
  obtain ⟨hmbA, hmbB⟩ := canonNaN_promote_eq_none.1 hnone
  obtain ⟨hwf, hnan⟩ | ⟨hwf, hnan⟩ := h
  · exact Value.mb_pos_of_nan hwf hnan hmbA
  · exact Value.mb_pos_of_nan hwf hnan hmbB

theorem convertTo_eq_none_of_nan {F : Format} {x : Value} (hx : x.cls = .nan) (hF : F.mb = 0) :
    convertTo F x = none := by
  rw [convertTo, hx]
  exact canonNaN_none.2 hF

section NoValue

variable {a b : Value} (ha : a.WF) (hb : b.WF)
include ha hb

/-- ADD has no value exactly for infinities of opposite sign without a mantissa (R194). -/
theorem addValue_eq_none : addValue a b = none ↔
    (a.cls = .infinity ∧ b.cls = .infinity ∧ a.s ≠ b.s) ∧ a.fmt.mb = 0 ∧ b.fmt.mb = 0 := by
  unfold addValue
  simp only
  split
  case h_1 hA => simp [hA, canonNaN_promote_ne_none_of_nan (.inl ⟨ha, hA⟩)]
  case h_2 hB _ => simp [hB, canonNaN_promote_ne_none_of_nan (.inr ⟨hb, hB⟩)]
  case h_3 hA hB =>
    split
    case isTrue hs => simp [hs]
    case isFalse hs => simp [hA, hB, hs, canonNaN_promote_eq_none]
  -- In the four other cases there is a value, and not both operands are infinities.
  all_goals simp_all

/-- MUL has no value exactly for an infinity and a zero without a mantissa (R196). -/
theorem mulValue_eq_none : mulValue a b = none ↔
    (a.cls = .infinity ∧ b.cls = .zero ∨ a.cls = .zero ∧ b.cls = .infinity) ∧ a.fmt.mb = 0 ∧ b.fmt.mb = 0 := by
  unfold mulValue
  simp only
  split
  case h_1 hA => simp [hA, canonNaN_promote_ne_none_of_nan (.inl ⟨ha, hA⟩)]
  case h_2 hB _ => simp [hB, canonNaN_promote_ne_none_of_nan (.inr ⟨hb, hB⟩)]
  case h_3 hA hB => simp [hA, hB, canonNaN_promote_eq_none]
  case h_4 hA hB => simp [hA, hB, canonNaN_promote_eq_none]
  -- In the five other cases there is a value, and the operands are no infinity and zero.
  all_goals simp_all

end NoValue

/-! ### NAN_UNREPRESENTABLE (R234): the four commands -/

theorem ofBinary64_e (w : Word64) : (ofBinary64 w).e = (w.extractLsb' 52 11).toNat := by
  rw [BitVec.extractLsb'_toNat, Nat.shiftRight_eq_div_pow, ofBinary64]
  rfl

theorem ofBinary64_m (w : Word64) : (ofBinary64 w).m = (w.extractLsb' 0 52).toNat := by
  rw [BitVec.extractLsb'_toNat, Nat.shiftRight_zero, ofBinary64]
  rfl

/-- A binary64 pattern with the exponent field of all ones and a mantissa field other than 0 is a NaN (R78, R120). -/
theorem cls_ofBinary64_of_nan {w : Word64} (he : w.extractLsb' 52 11 = 0x7FF) (hm : w.extractLsb' 0 52 ≠ 0) :
    (ofBinary64 w).cls = .nan := by
  rw [Value.cls_nan, ofBinary64_e, ofBinary64_m, he]
  exact ⟨by decide, rfl, fun h => hm (BitVec.eq_of_toNat_eq h)⟩

/-- A command whose outcome is `answerOrNoNaN o` reports NAN_UNREPRESENTABLE where `o` is none and ends with OK elsewhere. -/
theorem answerOrNoNaN_outcome {r : Result} {o : Option Value} {s : State} {p : Prop} (hr : r = answerOrNoNaN o s)
    (ho : o = none ↔ p) :
    (p → r = .next (s.withError .nanUnrepresentable)) ∧ (¬ p → ∃ t, r = .next t ∧ t.err = some 0) := by
  subst hr
  cases o with
  | none => exact ⟨fun _ => rfl, fun hp => absurd (ho.1 rfl) hp⟩
  | some v => exact ⟨fun hp => absurd (ho.2 hp) (Option.some_ne_none v), fun _ => ⟨s.withR v, rfl, State.withR_err s v⟩⟩

theorem exec_fromf_of_legal {s : State} {teb tmb : Nat} (h : (Format.mk teb tmb).Legal) :
    exec (.fromf teb tmb) s = answerOrNoNaN (convertTo ⟨teb, tmb⟩ (ofBinary64 s.lf)) s := if_neg (not_not.2 h)

section BinaryCommands

variable {s : State} (ha : BusOK s.la) (hb : BusOK s.lb)
include ha hb

theorem exec_add_of_busOK : exec .add s = answerOrNoNaN (addValue (ofBus s.la) (ofBus s.lb)) s := by
  rw [exec, execAdd, withAB_of_busOK ha hb]

theorem exec_sub_of_busOK : exec .sub s = answerOrNoNaN (addValue (ofBus s.la) (ofBus s.lb).flipSign) s := by
  rw [exec, execSub, withAB_of_busOK ha hb]

theorem exec_mul_of_busOK : exec .mul s = answerOrNoNaN (mulValue (ofBus s.la) (ofBus s.lb)) s := by
  rw [exec, execMul, withAB_of_busOK ha hb]

end BinaryCommands

/-- SUB has no value exactly for infinities of the same sign without a mantissa (R195). -/
theorem addValue_flipSign_eq_none {a b : Value} (ha : a.WF) (hb : b.WF) : addValue a b.flipSign = none ↔
    (a.cls = .infinity ∧ b.cls = .infinity ∧ a.s = b.s) ∧ a.fmt.mb = 0 ∧ b.fmt.mb = 0 := by
  rw [addValue_eq_none ha (Value.flipSign_wf hb), Value.flipSign_cls, Value.flipSign_s, Value.flipSign_fmt,
    ne_eq, Bool.not_eq_not]

/-- Settles O23: each command answers with its value or with NAN_UNREPRESENTABLE, and the cases in which it has no
value are R234's. -/
theorem nanWithoutMantissaIsUnrepresentable : Obligations.NaNWithoutMantissaIsUnrepresentable := by
  unfold Obligations.NaNWithoutMantissaIsUnrepresentable
  refine fun s => ⟨fun teb heb heb' he hm => ?fromf, fun ha hb => ?binary⟩
  case fromf =>
    rw [exec_fromf_of_legal ⟨heb, heb', Nat.zero_le _⟩, convertTo_eq_none_of_nan (cls_ofBinary64_of_nan he hm) rfl]
    rfl
  case binary =>
    have hA := busOK_iff_wf.1 ha
    have hB := busOK_iff_wf.1 hb
    obtain ⟨addErr, addOk⟩ := answerOrNoNaN_outcome (exec_add_of_busOK ha hb) (addValue_eq_none hA hB)
    obtain ⟨subErr, subOk⟩ := answerOrNoNaN_outcome (exec_sub_of_busOK ha hb) (addValue_flipSign_eq_none hA hB)
    obtain ⟨mulErr, mulOk⟩ := answerOrNoNaN_outcome (exec_mul_of_busOK ha hb) (mulValue_eq_none hA hB)
    exact ⟨addErr, addOk, subErr, subOk, mulErr, mulOk⟩

end Sys2Proof.Proofs

/-! The edges of the handshake and the faults on reads (spec/70_reset_and_hazards.md R260 to R267). -/

namespace Sys2Proof.Proofs

open Sys2Proof Sys2Proof.Machine

/-! ### One equation per edge that is no COMPLETE (R260, R264, R265) -/

section Edges

variable {s : State} (hreads : ReadsSafely s)
include hreads

theorem step_of_reset (hreset : s.now.reset = true) : step s = .next s.later.resetEdge := by
  have hkind : s.edgeKind = .reset := by simp [State.edgeKind, hreset]
  rw [step_of_reads hreads, hkind]

theorem step_of_wait_succ {n : Nat} (hreset : s.now.reset = false) (hbusy : s.busy = true) (hwait : s.wait = n + 1) :
    step s = .next (s.later.waitEdge n) := by
  have hkind : s.edgeKind = .waiting n := by simp [State.edgeKind, hreset, hbusy, hwait]
  rw [step_of_reads hreads, hkind]

theorem step_of_start (hreset : s.now.reset = false) (hstart : s.now.start = true) (hbusy : s.busy = false) :
    step s = .next (s.later.issueEdge s.now) := by
  have hkind : s.edgeKind = .issue := by simp [State.edgeKind, hreset, hbusy, hstart]
  rw [step_of_reads hreads, hkind]

end Edges

/-! ### RESET (R260, R261) -/

/-- The reset values of spec/10 R32, which leave the latches open. -/
def Cleared (s : State) : Prop :=
  s.busy = false ∧ s.valid = false ∧ s.r = none ∧ s.rawOut = none ∧ s.fOut = none ∧ s.scal = none ∧ s.err = none

theorem resetEdge_cleared (s : State) : Cleared s.resetEdge := ⟨rfl, rfl, rfl, rfl, rfl, rfl, rfl⟩

/-- Settles O7: RESET comes first among the edges. -/
theorem resetEdgeTakesTheResetValues : Obligations.ResetEdgeTakesTheResetValues := by
  unfold Obligations.ResetEdgeTakesTheResetValues
  intro s hreads hreset
  obtain ⟨hbusy, hvalid, hr, hraw, hf, hscal, herr⟩ := resetEdge_cleared s.later
  exact ⟨s.later.resetEdge, step_of_reset hreads hreset, hbusy, hvalid, hr, hraw, hf, hscal, herr, rfl⟩

/-- Without a START no command begins in a cleared machine, and BUSY and VALID can always be read. -/
theorem step_keeps_cleared {s : State} (h : Cleared s) (hstart : s.now.start = false)
    (hsamples : ∀ p ∈ s.now.samples, p = .busy ∨ p = .valid) :
    ∃ t, step s = .next t ∧ Cleared t ∧ t.host = s.host.tail := by
  have notBusy : s.busy ≠ true := by simp [h.1]
  rcases step_cases s with ⟨p, hp, hnone, -⟩ | ⟨-, hedge⟩
  · exact absurd hnone (level_handshake p (hsamples p hp))
  · rcases hedge with ⟨-, hreset⟩ | ⟨-, hbusy, -⟩ | ⟨-, -, hbusy, -⟩ | ⟨-, -, hissue, -⟩ | ⟨-, -, -, hidle⟩
    · exact ⟨_, hreset, resetEdge_cleared _, rfl⟩
    · exact absurd hbusy notBusy
    · exact absurd hbusy notBusy
    · simp [hstart] at hissue
    · exact ⟨_, hidle, h, rfl⟩

/-- A cleared machine stays cleared for as long as the host gives no START. -/
theorem run_keeps_cleared {es : List HostEdge} {s : State} (h : Cleared s) (hhost : s.host = es)
    (hes : ∀ x ∈ es, x.start = false ∧ ∀ p ∈ x.samples, p = .busy ∨ p = .valid) :
    ∃ t, Host.Core.run core es.length s = .next t ∧ Cleared t := by
  induction es generalizing s with
  | nil => exact ⟨s, rfl, h⟩
  | cons e es ih =>
    obtain ⟨he, hrest⟩ := List.forall_mem_cons.1 hes
    have hnow : s.now = e := by rw [State.now, hhost]; rfl
    obtain ⟨t, hstep, ht, htail⟩ := step_keeps_cleared h (hnow ▸ he.1) (hnow ▸ he.2)
    rw [List.length_cons, run_succ hstep]
    exact ih ht (by rw [htail, hhost, List.tail_cons]) hrest

/-- Settles O8: the RESET edge clears the machine, and then, by induction over the edges, it stays cleared. -/
theorem resetAbandonsTheCommandInFlight : Obligations.ResetAbandonsTheCommandInFlight := by
  unfold Obligations.ResetAbandonsTheCommandInFlight
  intro s e es _ hhost hreset hsamples hes
  have hnow : s.now = e := by rw [State.now, hhost]; rfl
  have hreads : ReadsSafely s := by simp [ReadsSafely, hnow, hsamples]
  have hstep := step_of_reset hreads (hnow ▸ hreset)
  rw [run_succ hstep]
  exact run_keeps_cleared (resetEdge_cleared _) (by simp [hhost]) hes

/-! ### ISSUE (R264) -/

/-- Settles O9: the number of edges to wait is the free latency of the words that are latched. -/
theorem issueLatchesEveryInput : Obligations.IssueLatchesEveryInput := by
  unfold Obligations.IssueLatchesEveryInput
  intro s hreads hreset hstart hbusy
  exact ⟨_, step_of_start hreads hreset hstart hbusy⟩

/-! ### A START while busy (R266) -/

/-- What the host drives while a command is in flight has no effect, RESET and the ports it reads aside. -/
theorem step_ignores_inputs_while_busy {s : State} {e : HostEdge} (hreads : ReadsSafely s)
    (hreset : s.now.reset = false) (hbusy : s.busy = true) (he : e.reset = false) (hsamples : e.samples = s.now.samples) :
    step { s with host := e :: s.host.tail } = step s := by
  have hreads' : ReadsSafely { s with host := e :: s.host.tail } := by
    intro p hp
    have hlevel : State.level { s with host := e :: s.host.tail } p = s.level p := by cases p <;> rfl
    rw [hlevel]
    exact hreads p (hsamples ▸ hp)
  by_cases hwait : s.wait = 0
  · exact (complete_step hreads' he hbusy hwait).trans (complete_step hreads hreset hbusy hwait).symm
  · obtain ⟨n, hwait⟩ := Nat.exists_eq_add_one_of_ne_zero hwait
    exact (step_of_wait_succ hreads' he hbusy hwait).trans (step_of_wait_succ hreads hreset hbusy hwait).symm

/-- COMPLETE clears BUSY and writes no latch. -/
theorem complete_keeps_latches (s : State) :
    ∃ t, complete s = .next t ∧ t.busy = false ∧ t.lcmd = s.lcmd ∧ t.la = s.la ∧ t.lb = s.lb ∧ t.lraw = s.lraw ∧
      t.lf = s.lf := by
  rcases complete_ends s with ⟨i, e, -, -, hc⟩ | ⟨-, hc⟩
  · refine ⟨_, hc, ?_⟩
    cases e <;> exact ⟨rfl, rfl, rfl, rfl, rfl, rfl⟩
  · exact ⟨_, hc, rfl, rfl, rfl, rfl, rfl, rfl⟩

/-- Settles O10: while BUSY the step is COMPLETE or a waiting edge, and neither looks at START or at the data ports. -/
theorem startWhileBusyDoesNothing : Obligations.StartWhileBusyDoesNothing := by
  unfold Obligations.StartWhileBusyDoesNothing
  intro s hreads hreset hbusy
  refine ⟨fun e => step_ignores_inputs_while_busy hreads hreset hbusy,
    fun n hwait => step_of_wait_succ hreads hreset hbusy hwait, fun hwait => ?_⟩
  rw [complete_step hreads hreset hbusy hwait]
  exact complete_keeps_latches s.later

/-! ### Reads of NONE (R267) -/

/-- A read of a port that holds NONE stops the machine, which names such a port. -/
theorem step_faults_on_none {s : State} {p : OutPort} (hp : p ∈ s.now.samples) (hnone : s.level p = none) :
    ∃ q ∈ s.now.samples, s.level q = none ∧ step s = .fault (.readOfNone q) := by
  rcases step_cases s with hfault | ⟨hreads, -⟩
  · exact hfault
  · exact absurd hnone (hreads p hp)

/-- While VALID is 0 every result register is NONE (spec/10 R29). -/
theorem level_eq_none_of_not_valid {s : State} (hinv : Inv s) (hvalid : s.valid = false) {p : OutPort}
    (hbusyPort : p ≠ .busy) (hvalidPort : p ≠ .valid) : s.level p = none := by
  obtain ⟨hr, hraw, hf, hscal, herr⟩ := hinv.invalidEmpty hvalid
  cases p with
  | busy => exact absurd rfl hbusyPort
  | valid => exact absurd rfl hvalidPort
  | r => simp [State.level, hr]
  | rawOut => simp [State.level, hraw]
  | fOut => simp [State.level, hf]
  | scal => simp [State.level, hscal]
  | err => simp [State.level, herr]

/-- Only an error report leaves an ERR other than OK. -/
theorem eq_withError_of_err_ne_zero {i : Instr} {s t : State} (h : exec i s = .next t) (herr : t.err ≠ some 0) :
    ∃ e, t = s.withError e := by
  rw [exec_eq] at h
  obtain rfl := Host.Outcome.next.inj h
  cases he : endingOf s.la s.lb s.lraw s.lf i with
  | error e => exact ⟨e, rfl⟩
  | value | raw | binary64 | scalar => rw [he] at herr; exact absurd rfl herr

/-- A register that a command does not write stands as before: with OK any but the one it names (spec/30 R86), with an
error any but ERR and SCAL (spec/60 R235). -/
theorem exec_keeps_unwritten {i : Instr} {s t : State} (h : exec i s = .next t) :
    (i.writes ≠ .r ∨ t.err ≠ some 0 → t.r = s.r) ∧
    (i.writes ≠ .rawOut ∨ t.err ≠ some 0 → t.rawOut = s.rawOut) ∧
    (i.writes ≠ .fOut ∨ t.err ≠ some 0 → t.fOut = s.fOut) ∧
    (i.writes ≠ .scal → t.err = some 0 → t.scal = s.scal) := by
  by_cases herr : t.err = some 0
  · obtain ⟨t', ht', -, honly⟩ := exec_writesOnly i s
    obtain rfl := Host.Outcome.next.inj (h.symm.trans ht')
    obtain ⟨hr, hraw, hf, hscal⟩ := honly herr
    have ofOk : ∀ {p : Prop}, p ∨ t.err ≠ some 0 → p := fun h => h.resolve_right (not_not.2 herr)
    exact ⟨fun hw => (if_neg (ofOk hw)).mp hr, fun hw => (if_neg (ofOk hw)).mp hraw,
      fun hw => (if_neg (ofOk hw)).mp hf, fun hw _ => (if_neg hw).mp hscal⟩
  · obtain ⟨e, rfl⟩ := eq_withError_of_err_ne_zero h herr
    exact ⟨fun _ => rfl, fun _ => rfl, fun _ => rfl, fun _ hok => absurd hok herr⟩

/-- Settles O13: every result register is NONE before VALID, also while a command is in flight, and the registers that
the command does not write are still NONE when it has completed. -/
theorem readHazardsFault : Obligations.ReadHazardsFault := by
  unfold Obligations.ReadHazardsFault
  refine ⟨fun s hinv hvalid p hp hpb hpv => step_faults_on_none hp (level_eq_none_of_not_valid hinv hvalid hpb hpv),
    fun s t i hinv hbusy hexec => ?_⟩
  obtain ⟨hr, hraw, hf, hscal, -⟩ := hinv.invalidEmpty (hinv.busyNotValid hbusy)
  obtain ⟨keepsR, keepsRaw, keepsF, keepsScal⟩ := exec_keeps_unwritten hexec
  refine ⟨fun hp hw => ?_, fun hp hw => ?_, fun hp hw => ?_, fun hp hw hok => ?_⟩
  · exact step_faults_on_none hp (by simp [State.level, keepsR hw, hr])
  · exact step_faults_on_none hp (by simp [State.level, keepsRaw hw, hraw])
  · exact step_faults_on_none hp (by simp [State.level, keepsF hw, hf])
  · exact step_faults_on_none hp (by simp [State.level, keepsScal hw hok, hscal])

end Sys2Proof.Proofs

/-! The command word and the command it stands for (spec/30_encoding.md R70 to R73, R80 to R82). -/

namespace Sys2Proof.Proofs

open Sys2Proof Sys2Proof.Machine

/-- A command is well-formed when its target format fits the fields TEB and TMB (R72). -/
theorem wellFormed_iff_target_fits {i : Instr} :
    i.wellFormed = true ↔ (targetOf i).1 < 16 ∧ (targetOf i).2 < 64 := by
  cases i <;> simp [Instr.wellFormed, targetOf]

/-- An opcode selects the command with that opcode, and with the target fields of the word where it has any (R80). -/
theorem opcode_of_instrOf {op teb tmb : Nat} {i : Instr} (h : instrOf op teb tmb = some i) :
    opcode i = op ∧ (hasTarget op = true → targetOf i = (teb, tmb)) ∧ (hasTarget op = false → targetOf i = (0, 0)) := by
  unfold instrOf at h
  split at h <;> cases h <;> simp [opcode, targetOf, hasTarget]

/-- Settles O2: DECODE and FROMF word by their fields, and the 21 words without target fields one by one. -/
theorem decodeOfEncodeIsTheCommand : Obligations.DecodeOfEncodeIsTheCommand := by
  unfold Obligations.DecodeOfEncodeIsTheCommand
  intro i hi
  obtain ⟨hteb, htmb⟩ := wellFormed_iff_target_fits.1 hi
  cases i with
  | decode => exact decode_targetWord (op := 0x01) (by decide) hteb htmb rfl rfl
  | fromf => exact decode_targetWord (op := 0x0B) (by decide) hteb htmb rfl rfl
  | encode | classify | isnan | isinf | iszero | signneg | getsign | geteb | getmb | tof | neg | abs | add | sub
  | mul | cmpeq | cmpne | cmplt | cmpgt | cmple | cmpge => decide

/-- The target of a decoded command is the target fields of its word (R72, R81). -/
theorem targetOf_decode {w : CmdWord} {i : Instr} (h : decode w = .ok i) : targetOf i = (tebField w, tmbField w) := by
  obtain ⟨-, hinstr, hfields⟩ := decode_eq_ok.1 h
  obtain ⟨-, htarget, hnoTarget⟩ := opcode_of_instrOf hinstr
  cases hop : hasTarget (opField w) with
  | true => exact htarget hop
  | false =>
    obtain ⟨hteb, htmb⟩ := hfields.resolve_left (by simp [hop])
    rw [hnoTarget hop, hteb, htmb]

/-- Settles O3: the opcode and the target of the command are the fields of the word, and the other bits are 0. -/
theorem encodeOfDecodeIsTheWord : Obligations.EncodeOfDecodeIsTheWord := by
  unfold Obligations.EncodeOfDecodeIsTheWord
  intro w i h
  have htarget := targetOf_decode h
  obtain ⟨hrsv, hinstr, -⟩ := decode_eq_ok.1 h
  have hop := (opcode_of_instrOf hinstr).1
  constructor
  · rw [wellFormed_iff_target_fits, htarget, tebField_eq, tmbField_eq]
    exact ⟨Nat.mod_lt _ (by decide), Nat.mod_lt _ (by decide)⟩
  · have hw := word_eq_fields w
    rw [hrsv, Nat.mul_zero, Nat.add_zero] at hw
    rw [encode, hop, htarget, ← hw, BitVec.ofNat_toNat, BitVec.setWidth_eq]

/-- Settles O1: eight closed words. -/
theorem sampleWordsDecodeToTheirCommands : Obligations.SampleWordsDecodeToTheirCommands := by
  unfold Obligations.SampleWordsDecodeToTheirCommands
  decide

end Sys2Proof.Proofs

/-! The handshake over one edge and over many: the invariant, idle edges, and the run of an accepted command
(spec/10_state.md R26 to R33, spec/60_exceptions.md R235, spec/70_reset_and_hazards.md R264 to R269). -/

namespace Sys2Proof.Proofs

open Sys2Proof Sys2Proof.Machine

/-! ### Steps without a fault -/

/-- Settles O5: the COMPLETE edge runs the command that LCMD decodes to. -/
theorem stepRunsTheLatchedCommand : Obligations.StepRunsTheLatchedCommand := by
  unfold Obligations.StepRunsTheLatchedCommand
  intro s i hreads hreset hbusy hwait hdecode
  rw [complete_step hreads hreset hbusy hwait, complete, State.later_lcmd, hdecode]
  rfl

/-- A step that reads no NONE goes on (R267). -/
theorem step_next_of_reads {s : State} (hreads : ReadsSafely s) : ∃ t, step s = .next t := by
  rcases step_cases s with ⟨p, hp, hnone, -⟩ | ⟨-, hedge⟩
  · exact absurd hnone (hreads p hp)
  · rcases hedge with ⟨-, h⟩ | ⟨-, -, -, h⟩ | ⟨_, -, -, -, h⟩ | ⟨-, -, -, h⟩ | ⟨-, -, -, h⟩
    · exact ⟨_, h⟩
    · rw [h]
      exact complete_next _
    · exact ⟨_, h⟩
    · exact ⟨_, h⟩
    · exact ⟨_, h⟩

/-- Settles O12: the one fault is the read of a NONE, and each of the five edges answers a next state. -/
theorem onlyAReadOfNoneFaults : Obligations.OnlyAReadOfNoneFaults := by
  unfold Obligations.OnlyAReadOfNoneFaults
  exact fun s => ⟨fun ⟨_, hp, hnone⟩ => step_faults_on_none hp hnone, step_next_of_reads⟩

/-- A step that goes on has read no NONE. -/
theorem reads_of_step_next {s t : State} (h : step s = .next t) : ReadsSafely s := by
  rcases step_cases s with ⟨p, -, -, hfault⟩ | ⟨hreads, -⟩
  · rw [hfault] at h
    cases h
  · exact hreads

/-- The fault of a step names the first port read that holds NONE. -/
theorem step_eq_fault_iff {s : State} {f : Fault} :
    step s = .fault f ↔ ∃ p, f = .readOfNone p ∧ s.firstNone s.now.samples = some p := by
  cases hfirst : s.firstNone s.now.samples with
  | some p => simp [step, hfirst, eq_comm]
  | none =>
    obtain ⟨t, ht⟩ := step_next_of_reads ((firstNone_eq_none _).1 hfirst)
    simp [ht]

/-! ### The invariant (spec/10 R26 to R29) -/

/-- A state that is not VALID and whose result registers hold NONE meets the invariant. -/
theorem inv_of_empty {s : State} (hvalid : s.valid = false)
    (hempty : s.r = none ∧ s.rawOut = none ∧ s.fOut = none ∧ s.scal = none ∧ s.err = none) : Inv s where
  busyNotValid _ := hvalid
  invalidEmpty _ := hempty
  validReport hv := by simp [hvalid] at hv
  valueWF w hw := by simp [hempty.1] at hw

/-- Settles O14: RESET leaves every result register at NONE. -/
theorem resetStateMeetsTheInvariant : Obligations.ResetStateMeetsTheInvariant := by
  unfold Obligations.ResetStateMeetsTheInvariant
  exact ⟨inv_of_empty rfl ⟨rfl, rfl, rfl, rfl, rfl⟩, rfl, rfl, rfl, rfl, rfl, rfl, rfl⟩

/-- The invariant says nothing of the time left, the host and the latches. -/
theorem inv_congr {s t : State} (h : Inv s) (hbusy : t.busy = s.busy) (hvalid : t.valid = s.valid) (hr : t.r = s.r)
    (hraw : t.rawOut = s.rawOut) (hf : t.fOut = s.fOut) (hscal : t.scal = s.scal) (herr : t.err = s.err) : Inv t where
  busyNotValid := by rw [hbusy, hvalid]; exact h.busyNotValid
  invalidEmpty := by rw [hvalid, hr, hraw, hf, hscal, herr]; exact h.invalidEmpty
  validReport := by
    rw [hvalid, resultsHeld, hr, hraw, hf, hscal, herr]
    exact h.validReport
  valueWF := by rw [hr]; exact h.valueWF

/-- Every error is one of the reports of R230. -/
theorem report_mem (e : CmdError) : (e.code, e.info) ∈ errorReports := by cases e <;> decide

/-- The result registers before COMPLETE, while the command is in flight (spec/10 R29). -/
def NoResults (s : State) : Prop := s.r = none ∧ s.rawOut = none ∧ s.fOut = none ∧ s.scal = none

theorem noResults_of_busy {s : State} (h : Inv s) (hbusy : s.busy = true) : NoResults s := by
  obtain ⟨hr, hraw, hf, hscal, -⟩ := h.invalidEmpty (h.busyNotValid hbusy)
  exact ⟨hr, hraw, hf, hscal⟩

theorem inv_withError {s : State} (h : NoResults s) (e : CmdError) : Inv (s.withError e) where
  busyNotValid hb := by simp at hb
  invalidEmpty hv := by simp at hv
  validReport _ :=
    have ⟨hr, hraw, hf, _⟩ := h
    .inr ⟨hr, hraw, hf, e.code, e.info, rfl, rfl, report_mem e⟩
  valueWF w hw := by simp [h.1] at hw

/-- A completion with OK meets the invariant when one register holds the result, in the range of its kind. -/
theorem inv_of_ok {s : State} (hbusy : s.busy = false) (hvalid : s.valid = true) (herr : s.err = some 0)
    (hheld : resultsHeld s = 1) (hscal : ∀ x, s.scal = some x → x.toNat ≤ 52)
    (hr : ∀ w, s.r = some w → (ofBus w).WF ∧ toBus (ofBus w) = w) : Inv s where
  busyNotValid hb := by simp [hbusy] at hb
  invalidEmpty hv := by simp [hvalid] at hv
  validReport _ := .inl ⟨herr, hheld, hscal⟩
  valueWF := hr

/-- A command that completes after ISSUE left NONE everywhere meets the invariant: it wrote one register, with a
well-formed value or a scalar up to 52, or an error report. -/
theorem inv_apply {i : Instr} {t : Ending} {s : State} (hfits : t.Fits i) (h : NoResults s) : Inv (t.apply s) := by
  have ⟨hr, hraw, hf, hscal⟩ := h
  cases t with
  | error e => exact inv_withError h e
  | value v =>
    refine inv_of_ok rfl rfl rfl (by simp [Ending.apply, resultsHeld, hraw, hf, hscal])
      (by simp [Ending.apply, hscal]) fun w hw => ?_
    obtain rfl : toBus v = w := Option.some.inj hw
    exact ⟨by rw [ofBus_toBus hfits.2]; exact hfits.2, toBus_ofBus _⟩
  | raw w =>
    exact inv_of_ok rfl rfl rfl (by simp [Ending.apply, resultsHeld, hr, hf, hscal]) (by simp [Ending.apply, hscal])
      (by simp [Ending.apply, hr])
  | binary64 w =>
    exact inv_of_ok rfl rfl rfl (by simp [Ending.apply, resultsHeld, hr, hraw, hscal]) (by simp [Ending.apply, hscal])
      (by simp [Ending.apply, hr])
  | scalar w =>
    exact inv_of_ok rfl rfl rfl (by simp [Ending.apply, resultsHeld, hr, hraw, hf])
      (fun x hx => Option.some.inj hx ▸ hfits.2) (by simp [Ending.apply, hr])

theorem inv_complete {s t : State} (h : NoResults s) (hc : complete s = .next t) : Inv t := by
  rcases complete_ends s with ⟨i, e, -, hfits, he⟩ | ⟨-, he⟩
  · obtain rfl := Host.Outcome.next.inj (he.symm.trans hc)
    exact inv_apply hfits h
  · obtain rfl := Host.Outcome.next.inj (he.symm.trans hc)
    exact inv_withError h _

/-- Settles O15: RESET and ISSUE leave NONE everywhere, a waiting and an idle edge leave the registers as they are, and
COMPLETE adds one result or one report to registers that hold NONE. -/
theorem everyStepKeepsTheInvariant : Obligations.EveryStepKeepsTheInvariant := by
  unfold Obligations.EveryStepKeepsTheInvariant
  intro s t hinv hstep
  rcases step_cases s with ⟨p, -, -, h⟩ | ⟨-, hedge⟩
  · rw [h] at hstep
    cases hstep
  · rcases hedge with ⟨-, h⟩ | ⟨-, hbusy, -, h⟩ | ⟨n, -, -, -, h⟩ | ⟨-, -, -, h⟩ | ⟨-, -, -, h⟩
    · obtain rfl := Host.Outcome.next.inj (h.symm.trans hstep)
      exact inv_of_empty rfl ⟨rfl, rfl, rfl, rfl, rfl⟩
    · exact inv_complete (s := s.later) (noResults_of_busy (s := s) hinv hbusy) (h.symm.trans hstep)
    · obtain rfl := Host.Outcome.next.inj (h.symm.trans hstep)
      exact inv_congr hinv rfl rfl rfl rfl rfl rfl rfl
    · obtain rfl := Host.Outcome.next.inj (h.symm.trans hstep)
      exact inv_of_empty rfl ⟨rfl, rfl, rfl, rfl, rfl⟩
    · obtain rfl := Host.Outcome.next.inj (h.symm.trans hstep)
      exact inv_congr hinv rfl rfl rfl rfl rfl rfl rfl

/-! ### Idle edges (R247, R265) -/

theorem step_of_idle {s : State} (hreads : ReadsSafely s) (hreset : s.now.reset = false) (hstart : s.now.start = false)
    (hbusy : s.busy = false) : step s = .next s.later := by
  have hkind : s.edgeKind = .idle := by simp [State.edgeKind, hreset, hbusy, hstart]
  rw [step_of_reads hreads, hkind]

/-- Settles O11, by induction over the edges. -/
theorem resultsAreHeldUntilIssueOrReset : Obligations.ResultsAreHeldUntilIssueOrReset := by
  unfold Obligations.ResultsAreHeldUntilIssueOrReset
  intro s es rest hbusy hes
  induction es with
  | nil => rfl
  | cons e es ih =>
    obtain ⟨⟨hreset, hstart, hsamples⟩, hrest⟩ := List.forall_mem_cons.1 hes
    have hreads : ReadsSafely { s with host := (e :: es) ++ rest } := fun p hp => by
      have hlevel : State.level { s with host := (e :: es) ++ rest } p = s.level p := by cases p <;> rfl
      rw [hlevel]
      exact hsamples p hp
    rw [List.length_cons, run_succ (step_of_idle hreads hreset hstart hbusy)]
    exact ih hrest

/-- What a port shows does not depend on the latches and the time left (spec/10 R25). -/
theorem level_withLatches (s : State) (c : CmdWord) (a b : BusWord) (x f : Word64) (n : Nat) (p : OutPort) :
    State.level { s with lcmd := c, la := a, lb := b, lraw := x, lf := f, wait := n } p = s.level p := by
  cases p <;> rfl

theorem firstNone_congr {s t : State} (h : ∀ p, t.level p = s.level p) (ps : List OutPort) :
    t.firstNone ps = s.firstNone ps := by
  induction ps with
  | nil => rfl
  | cons p ps ih => rw [State.firstNone, State.firstNone, h, ih]

/-- Settles O18: a fault depends on the ports alone, and RESET, ISSUE and an idle edge read no latch. -/
theorem idleLatchesAreNeverRead : Obligations.IdleLatchesAreNeverRead := by
  unfold Obligations.IdleLatchesAreNeverRead
  intro s c a b x f n hbusy s'
  have hlevel : ∀ p, s'.level p = s.level p := level_withLatches s c a b x f n
  have hfault : ∀ p, step s = .fault p ↔ step s' = .fault p := fun p => by
    rw [step_eq_fault_iff, step_eq_fault_iff, firstNone_congr hlevel]
    rfl
  refine ⟨hfault, fun t ht => ?_⟩
  have hreads : ReadsSafely s := reads_of_step_next ht
  have hreads' : ReadsSafely s' := fun p hp => hlevel p ▸ hreads p hp
  cases hreset : s.now.reset with
  | true =>
    obtain rfl := Host.Outcome.next.inj ((step_of_reset hreads hreset).symm.trans ht)
    exact ⟨_, step_of_reset hreads' hreset, rfl, rfl, rfl, rfl, rfl, rfl, rfl, rfl, fun _ => rfl⟩
  | false =>
    cases hstart : s.now.start with
    | true =>
      obtain rfl := Host.Outcome.next.inj ((step_of_start hreads hreset hstart hbusy).symm.trans ht)
      exact ⟨_, step_of_start hreads' hreset hstart hbusy, rfl, rfl, rfl, rfl, rfl, rfl, rfl, rfl, fun _ => rfl⟩
    | false =>
      obtain rfl := Host.Outcome.next.inj ((step_of_idle hreads hreset hstart hbusy).symm.trans ht)
      refine ⟨_, step_of_idle hreads' hreset hstart hbusy, rfl, rfl, rfl, rfl, rfl, rfl, rfl, rfl, fun hb => ?_⟩
      simp [hbusy] at hb

/-! ### An accepted command (R265, R268, R269) -/

/-- While a command is in flight, edges without RESET that read BUSY and VALID at most lead to its COMPLETE. -/
theorem run_until_complete {es rest : List HostEdge} {s : State} (hbusy : s.busy = true) (hhost : s.host = es ++ rest)
    (hlen : es.length = s.wait + 1)
    (hes : ∀ x ∈ es, x.reset = false ∧ ∀ p ∈ x.samples, p = .busy ∨ p = .valid) :
    Host.Core.run core es.length s = complete { s with wait := 0, host := rest } := by
  induction es generalizing s with
  | nil => simp at hlen
  | cons e es ih =>
    obtain ⟨⟨hreset, hsamples⟩, hrest⟩ := List.forall_mem_cons.1 hes
    have hnow : s.now = e := by rw [State.now, hhost]; rfl
    have hreads : ReadsSafely s := fun p hp => level_handshake p (hsamples p (hnow ▸ hp))
    rw [← hnow] at hreset
    rw [List.length_cons]
    cases hwait : s.wait with
    | zero =>
      obtain rfl : es = [] := by simpa [hwait] using hlen
      have hlast : s.later = { s with wait := 0, host := rest } := by rw [State.later, hhost, ← hwait]; rfl
      obtain ⟨t, ht⟩ := complete_next s.later
      rw [List.length_nil, run_succ ((complete_step hreads hreset hbusy hwait).trans ht), ← hlast, ht]
      rfl
    | succ n =>
      rw [run_succ (step_of_wait_succ hreads hreset hbusy hwait)]
      exact ih (s := s.later.waitEdge n) hbusy (by simp [hhost]) (by simpa [hwait] using hlen) hrest

/-- COMPLETE sets VALID and an ERR code (R265). -/
theorem complete_sets_valid {s t : State} (h : complete s = .next t) :
    t.busy = false ∧ t.valid = true ∧ t.err ≠ none := by
  rcases complete_ends s with ⟨i, e, -, -, hc⟩ | ⟨-, hc⟩
  · obtain rfl := Host.Outcome.next.inj (hc.symm.trans h)
    exact ⟨by cases e <;> rfl, by cases e <;> rfl, by simp [apply_err]⟩
  · obtain rfl := Host.Outcome.next.inj (hc.symm.trans h)
    exact ⟨rfl, rfl, by simp⟩

/-- Settles O16: ISSUE latches the words, and `run_until_complete` runs the `LAT` edges after it. -/
theorem everyAcceptedCommandCompletesWithExec : Obligations.EveryAcceptedCommandCompletesWithExec := by
  unfold Obligations.EveryAcceptedCommandCompletesWithExec
  intro s e es rest hbusy hhost hreset hstart hreads hlen hes
  have hnow : s.now = e := by rw [State.now, hhost]; rfl
  have hissue : step s = .next (s.later.issueEdge e) :=
    hnow ▸ step_of_start hreads (hnow ▸ hreset) (hnow ▸ hstart) hbusy
  have hrun := run_until_complete (s := s.later.issueEdge e) (rest := rest) rfl (by simp [hhost]) hlen hes
  obtain ⟨t, ht⟩ := complete_next { s.later.issueEdge e with wait := 0, host := rest }
  refine ⟨t, ?_, ht, complete_sets_valid ht⟩
  rw [run_succ hissue]
  exact hrun.trans ht

end Sys2Proof.Proofs

/-! What a completion depends on and what it leaves unchanged (spec/10_state.md R29 to R33, spec/60_exceptions.md R235,
R238). -/

namespace Sys2Proof.Proofs

open Sys2Proof Sys2Proof.Machine

/-! ### The outcome as a function of the latches (R31, R33) -/

/-- `Exec` (spec/60 R236), the illegal words included, as a function of the latches of a state. -/
def completionOf (s : State) : Ending :=
  match decode s.lcmd with
  | .ok i => endingOf s.la s.lb s.lraw s.lf i
  | .error _ => .error .illegalCmd

theorem complete_eq (s : State) : complete s = .next ((completionOf s).apply s) := by
  unfold complete completionOf
  cases decode s.lcmd with
  | ok i => exact exec_eq i s
  | error e => rfl

/-- Two machines whose result registers hold NONE show the same results and handshake after the same ending. -/
theorem apply_ports_congr (e : Ending) {s s' : State} (h : NoResults s) (h' : NoResults s') :
    (e.apply s').r = (e.apply s).r ∧ (e.apply s').rawOut = (e.apply s).rawOut ∧ (e.apply s').fOut = (e.apply s).fOut ∧
      (e.apply s').scal = (e.apply s).scal ∧ (e.apply s').err = (e.apply s).err ∧
      (e.apply s').busy = (e.apply s).busy ∧ (e.apply s').valid = (e.apply s).valid := by
  obtain ⟨hr, hraw, hf, hscal⟩ := h
  obtain ⟨hr', hraw', hf', hscal'⟩ := h'
  cases e <;> simp [Ending.apply, hr, hraw, hf, hscal, hr', hraw', hf', hscal']

/-- Settles O17: the ending is a function of the latches, and both machines hold NONE before it. -/
theorem outcomeDependsOnTheLatchesOnly : Obligations.OutcomeDependsOnTheLatchesOnly := by
  unfold Obligations.OutcomeDependsOnTheLatchesOnly
  intro s s' t t' hinv hinv' hbusy hbusy' hcmd ha hb hraw hf ht ht'
  have hsame : completionOf s' = completionOf s := by rw [completionOf, hcmd, ha, hb, hraw, hf, completionOf]
  obtain rfl := Host.Outcome.next.inj ((complete_eq s).symm.trans ht)
  obtain rfl := Host.Outcome.next.inj ((complete_eq s').symm.trans ht')
  rw [hsame]
  exact apply_ports_congr _ (noResults_of_busy hinv hbusy) (noResults_of_busy hinv' hbusy')

/-! ### The frame (R29, R235, R265) -/

theorem exec_handshake_and_inputs {i : Instr} {s t : State} (h : exec i s = .next t) :
    t.lcmd = s.lcmd ∧ t.la = s.la ∧ t.lb = s.lb ∧ t.lraw = s.lraw ∧ t.lf = s.lf ∧ t.wait = s.wait ∧ t.host = s.host ∧
      t.busy = false ∧ t.valid = true := by
  rw [exec_eq] at h
  obtain rfl := Host.Outcome.next.inj h
  cases endingOf s.la s.lb s.lraw s.lf i <;> exact ⟨rfl, rfl, rfl, rfl, rfl, rfl, rfl, rfl, rfl⟩

/-- Settles O20: the registers the command does not write stand as before, and an error is a report. -/
theorem commandFrame : Obligations.CommandFrame := by
  unfold Obligations.CommandFrame
  intro i s t h
  obtain ⟨hcmd, ha, hb, hraw, hf, hwait, hhost, hbusy, hvalid⟩ := exec_handshake_and_inputs h
  obtain ⟨keepsR, keepsRaw, keepsF, keepsScal⟩ := exec_keeps_unwritten h
  refine ⟨hcmd, ha, hb, hraw, hf, hwait, hhost, hbusy, hvalid, keepsR ∘ .inl, keepsRaw ∘ .inl, keepsF ∘ .inl, keepsScal,
    fun herr => ?_⟩
  obtain ⟨e, rfl⟩ := eq_withError_of_err_ne_zero h herr
  exact ⟨rfl, rfl, rfl, e.code, e.info, rfl, rfl, report_mem e⟩

/-! ### Totality (R238) -/

theorem onA_of_busOK {a : BusWord} (ha : BusOK a) (k : Value → Ending) : Ending.onA a k = k (ofBus a) :=
  if_pos (busOK_iff_wf.1 ha)

theorem onAB_of_busOK {a b : BusWord} (ha : BusOK a) (hb : BusOK b) (k : Value → Value → Ending) :
    Ending.onAB a b k = k (ofBus a) (ofBus b) := by
  rw [Ending.onAB, onA_of_busOK ha, if_pos (busOK_iff_wf.1 hb)]

/-- On well-formed operands only the commands that may need a NaN or a legal target can end with an error. -/
theorem errCode_endingOf_of_busOK {i : Instr} {a b : BusWord} {x f : Word64} (hreads : i.readsA = true)
    (hadd : i ≠ .add) (hsub : i ≠ .sub) (hmul : i ≠ .mul) (ha : BusOK a) (hb : i.readsB = true → BusOK b) :
    errCode (endingOf a b x f i) = 0 := by
  cases i with
  | decode | fromf => cases hreads
  | add => exact absurd rfl hadd
  | sub => exact absurd rfl hsub
  | mul => exact absurd rfl hmul
  | encode | classify | isnan | isinf | iszero | signneg | getsign | geteb | getmb | tof | neg | abs =>
    rw [endingOf, onA_of_busOK ha]
    rfl
  | cmpeq | cmpne | cmplt | cmpgt | cmple | cmpge =>
    rw [endingOf, onAB_of_busOK ha (hb rfl)]
    rfl

/-- Settles O24: the ending of such a command is a result, and every ending sets VALID. -/
theorem commandsAreTotalOnGoodOperands : Obligations.CommandsAreTotalOnGoodOperands := by
  unfold Obligations.CommandsAreTotalOnGoodOperands
  intro i s hreads hadd hsub hmul ha hb
  obtain ⟨-, -, -, -, -, -, -, -, hvalid⟩ := exec_handshake_and_inputs (exec_eq i s)
  exact ⟨_, exec_eq i s, by rw [apply_err, errCode_endingOf_of_busOK hreads hadd hsub hmul ha hb], hvalid⟩

/-! ### DECODE and ENCODE (spec/40 R107) -/

/-- DECODE with OK had legal widths and a pattern that fits them (R102). -/
theorem eq_split_of_exec_decode {s t : State} {teb tmb : Nat} (h : exec (.decode teb tmb) s = .next t)
    (hok : t.err = some 0) :
    (Format.mk teb tmb).Legal ∧ s.lraw.toNat < 2 ^ (Format.mk teb tmb).width ∧
      t = s.withR (split s.lraw.toNat ⟨teb, tmb⟩) := by
  by_cases hlegal : (Format.mk teb tmb).Legal
  · rw [exec_decode_of_legal hlegal] at h
    split at h
    · obtain rfl := Host.Outcome.next.inj h
      exact absurd (Option.some.inj hok) (code_ne_zero .rawTooWide)
    · rename_i hfits
      exact ⟨hlegal, Nat.lt_of_not_le hfits, (Host.Outcome.next.inj h).symm⟩
  · rw [exec_decode_of_not_legal hlegal] at h
    obtain rfl := Host.Outcome.next.inj h
    exact absurd (Option.some.inj hok) (code_ne_zero .illegalWidths)

/-- DECODE, to its own format, of the raw pattern of a well-formed value. -/
theorem exec_decode_rawWord {s : State} {v : Value} (hv : v.WF) :
    exec (.decode v.fmt.eb v.fmt.mb) { s with lraw := rawWord v } = .next ({ s with lraw := rawWord v }.withR v) := by
  rw [exec_decode_of_legal hv.1]
  dsimp only
  rw [rawWord_toNat hv, if_neg (Nat.not_le.2 (pack_lt hv)), split_pack hv]

/-- Settles O28: Split and Pack are inverse, and a value bus word is the word of the value it stands for. -/
theorem codecRoundTrip : Obligations.CodecRoundTrip := by
  unfold Obligations.CodecRoundTrip
  refine ⟨fun s t ha h => ?_, fun s t teb tmb h hok => ?_⟩
  · obtain rfl := Host.Outcome.next.inj ((exec_encode_of_busOK ha).symm.trans h)
    refine ⟨_, rfl, _, exec_decode_rawWord (busOK_iff_wf.1 ha), ?_, rfl⟩
    rw [State.withR_r, toBus_ofBus]
  · obtain ⟨hlegal, hfits, rfl⟩ := eq_split_of_exec_decode h hok
    have hwf := split_wf hlegal s.lraw.toNat
    refine ⟨_, rfl, _, exec_encode_of_busOK (busOK_toBus hwf), ?_, rfl⟩
    rw [State.withRawOut_rawOut, ofBus_toBus hwf, rawWord, pack_split hfits, BitVec.ofNat_toNat, BitVec.setWidth_eq]

/-! ### The classes of the narrowest formats (spec/41 R129) -/

theorem code_injective {c d : Machine.Class} (h : c.code = d.code) : c = d := by
  revert h
  cases c <;> cases d <;> decide

theorem not_normal_of_eb_eq_one {v : Value} (h : v.WF) (heb : v.fmt.eb = 1) : v.cls ≠ .normal := by
  rw [ne_eq, cls_eq_normal_iff_of_wf h, Format.eall, heb]
  omega

theorem m_eq_zero_of_mb_eq_zero {v : Value} (h : v.WF) (hmb : v.fmt.mb = 0) : v.m = 0 := by
  obtain ⟨-, -, hm⟩ := h
  rwa [hmb, Nat.pow_zero, Nat.lt_one_iff] at hm

/-- Settles O32: `EALL - 1` is 0 at `eb = 1`, and 0 is the only mantissa field at `mb = 0`. -/
theorem narrowFormatsLackClasses : Obligations.NarrowFormatsLackClasses := by
  unfold Obligations.NarrowFormatsLackClasses
  intro s t ha h
  have hwf := busOK_iff_wf.1 ha
  obtain rfl := Host.Outcome.next.inj ((exec_classify_of_cls ha _ rfl).symm.trans h)
  have hscal : ∀ c : Machine.Class, (s.withScal (ofBus s.la).cls.code).scal = some c.code → (ofBus s.la).cls = c :=
    fun c hc => code_injective (Option.some.inj hc)
  refine ⟨fun heb hc => ?_, fun hmb => ⟨fun hc => ?_, fun hc => ?_⟩⟩
  · exact not_normal_of_eb_eq_one hwf heb (hscal .normal hc)
  · exact (Value.cls_subnormal.1 (hscal .subnormal hc)).2 (m_eq_zero_of_mb_eq_zero hwf hmb)
  · exact Value.mb_pos_of_nan hwf (hscal .nan hc) hmb

end Sys2Proof.Proofs

/-! Rounding to nearest even: RoundPack against the grid of a format, the thresholds, exactness, and the range of the
finite values (spec/42_convert.md R142 to R144, R149; spec/41_classify.md R129). -/

namespace Sys2Proof.Proofs

open Sys2Proof Sys2Proof.Machine

/-! ### Guard, round and sticky bit (R149) -/

/-- Settles O38: the remainder is `2^(k-1)` times the guard bit, `2^(k-2)` times the round bit and what the sticky bit
stands for, so its comparison with the half `2^(k-1)` is decided by the three bits. -/
theorem guardRoundStickyRoundsAlike : Obligations.GuardRoundStickyRoundsAlike := by
  unfold Obligations.GuardRoundStickyRoundsAlike
  intro S k hk
  obtain ⟨j, rfl⟩ := Nat.exists_eq_add_of_le' hk
  have hguard : S % 2 ^ (j + 2) = _ := Nat.mod_pow_succ (k := j + 1)
  have hround : S % 2 ^ (j + 1) = _ := Nat.mod_pow_succ (k := j)
  have hsticky : S % 2 ^ j < 2 ^ j := Nat.mod_lt _ (by positivity)
  have hhalf : 2 ^ (j + 1) = 2 * 2 ^ j := by ring
  have hup : (S.testBit (j + 1) && (S.testBit j || decide (S % 2 ^ j ≠ 0) || S / 2 ^ (j + 2) % 2 == 1)) = true ↔
      S % 2 ^ (j + 2) > 2 ^ (j + 1) ∨ S % 2 ^ (j + 2) = 2 ^ (j + 1) ∧ S / 2 ^ (j + 2) % 2 = 1 := by
    rw [Nat.testBit_eq_decide_div_mod_eq, Nat.testBit_eq_decide_div_mod_eq]
    rcases Nat.mod_two_eq_zero_or_one (S / 2 ^ (j + 1)) with hg | hg <;>
      rcases Nat.mod_two_eq_zero_or_one (S / 2 ^ j) with hr | hr <;>
      simp [hg, hr] at hguard hround ⊢ <;> omega
  simp only [guardRoundSticky, shiftRoundEven, Nat.add_sub_cancel, show j + 2 - 1 = j + 1 from rfl, hup]

/-! ### The grid (R143) -/

section Grid

variable {F : Format} (hF : F.Legal) {x g h : ℚ}

include hF in
theorem inGrid_neg : InGrid F (-g) ↔ InGrid F g := by rw [inGrid_iff hF, inGrid_iff hF, abs_neg]

theorem ulpAt_neg : ulpAt F (-x) = ulpAt F x := by rw [ulpAt, abs_neg, ulpAt]

include hF in
/-- Rounding is symmetric in the sign. -/
theorem nearestEven_neg (hg : NearestEven F x g) : NearestEven F (-x) (-g) := by
  obtain ⟨hgrid, hmin, htie⟩ := hg
  have hdist : ∀ y, |-x - y| = |x - -y| := fun y => by rw [← abs_neg]; congr 1; ring
  refine ⟨(inGrid_neg hF).2 hgrid, fun g' hg' => ?_, fun g' hg' hne heq => ?_⟩
  · rw [hdist, hdist, neg_neg]
    exact hmin _ ((inGrid_neg hF).2 hg')
  · rw [hdist, hdist, neg_neg] at heq
    obtain ⟨n, hn⟩ := htie _ ((inGrid_neg hF).2 hg') (fun h => hne (by rw [← h, neg_neg])) heq
    exact ⟨-n, by rw [ulpAt_neg, hn]; push_cast; ring⟩

include hF in
theorem nearestEven_signed (s : Bool) (hg : NearestEven F x g) :
    NearestEven F ((if s then -1 else 1) * x) ((if s then -1 else 1) * g) := by
  cases s with
  | false => simpa using hg
  | true => simpa using nearestEven_neg hF hg

include hF in
/-- Multiples of a unit no finer than the smallest subnormal, with at most `mb + 1` bits, are on the grid. -/
theorem inGrid_of_multiple {n : Nat} {p : ℤ} (hn : n < 2 ^ (F.mb + 1)) (hp : F.emin - F.mb ≤ p)
    (hle : (n : ℚ) * 2 ^ p ≤ 2 ^ ((F.bias : ℤ) + 1)) : InGrid F (n * 2 ^ p) := by
  have habs : |(n : ℚ) * 2 ^ p| = n * 2 ^ p := abs_of_nonneg (by positivity)
  exact (inGrid_iff hF _).2 ⟨habs.symm ▸ hle, n, p, hn, hp, habs⟩

include hF in
theorem le_of_inGrid (hg : InGrid F g) : g ≤ 2 ^ ((F.bias : ℤ) + 1) := (le_abs_self g).trans ((inGrid_iff hF g).1 hg).1

include hF in
theorem inGrid_zero : InGrid F 0 := by
  have h := inGrid_of_multiple hF (n := 0) (p := F.emin - F.mb) (by positivity) le_rfl (by simp; positivity)
  simpa using h

/-- A binade has fewer than `2^(mb+1)` units. -/
theorem lt_two_pow_mul_ulpAt (hx : 0 < x) : x < 2 ^ (F.mb + 1) * ulpAt F x := by
  rw [ulpAt, abs_of_pos hx, ← zpow_natCast, ← zpow_add₀ two_ne_zero]
  calc x < ((2 : ℕ) : ℚ) ^ (Int.log 2 x + 1) := Int.lt_zpow_succ_log_self (by decide) x
    _ ≤ 2 ^ (((F.mb + 1 : ℕ) : ℤ) + (max (Int.log 2 x) F.emin - F.mb)) := by
      push_cast
      exact zpow_le_zpow_right₀ one_le_two (by omega)

include hF in
theorem nonneg_of_nearestEven (hx : 0 < x) (hg : NearestEven F x g) : 0 ≤ g := by
  obtain ⟨-, hmin, -⟩ := hg
  have h0 := (le_abs_self (x - g)).trans (hmin 0 (inGrid_zero hF))
  rw [sub_zero, abs_of_pos hx] at h0
  linarith

include hF in
/-- The odd multiple of the unit after an even one of at most `mb + 1` bits is on the grid, if it is in the range. -/
theorem inGrid_odd_multiple {k : Nat} (hbits : 2 * k < 2 ^ (F.mb + 1))
    (hle : ((2 * k + 1 : ℕ) : ℚ) * ulpAt F x ≤ 2 ^ ((F.bias : ℤ) + 1)) :
    InGrid F (((2 * k + 1 : ℕ) : ℚ) * ulpAt F x) :=
  inGrid_of_multiple hF (by rw [pow_succ] at hbits ⊢; omega) (by omega) hle

include hF in
/-- Of two neighbours equally near to `x` only one is an even multiple of the unit: between two even multiples stands an
odd one, which is nearer. -/
theorem nearestEven_not_lt (hx : 0 < x) (hg : NearestEven F x g) (hh : NearestEven F x h) : ¬ g < h := by
  intro hlt
  have hgNonneg := nonneg_of_nearestEven hF hx hg
  obtain ⟨hgGrid, hgMin, hgTie⟩ := hg
  obtain ⟨hhGrid, hhMin, hhTie⟩ := hh
  have hdist : |x - h| = |x - g| := le_antisymm (hhMin g hgGrid) (hgMin h hhGrid)
  have hmid : x - h = -(x - g) := (abs_eq_abs.1 hdist).resolve_left (by linarith)
  obtain ⟨n, hn⟩ := hgTie h hhGrid hlt.ne' hdist
  obtain ⟨m, hm⟩ := hhTie g hgGrid hlt.ne hdist.symm
  have hu : 0 < ulpAt F x := by rw [ulpAt]; positivity
  have hnNonneg : 0 ≤ n := by
    have : (0 : ℚ) ≤ 2 * n := nonneg_of_mul_nonneg_left (hn ▸ hgNonneg) hu
    exact_mod_cast (by linarith : (0 : ℚ) ≤ n)
  obtain ⟨k, rfl⟩ := Int.eq_ofNat_of_zero_le hnNonneg
  have hkm : ((k : ℤ) : ℚ) + 1 ≤ m := by
    have : (2 : ℚ) * (k : ℤ) < 2 * m := lt_of_mul_lt_mul_right (by rwa [← hn, ← hm]) hu.le
    exact_mod_cast (by linarith : ((k : ℤ) : ℚ) < m)
  have hbits : 2 * k < 2 ^ (F.mb + 1) := by
    have hlt' : (2 * (k : ℤ) : ℚ) * ulpAt F x < 2 ^ (F.mb + 1) * ulpAt F x := by
      rw [← hn]
      linarith [lt_two_pow_mul_ulpAt (F := F) hx]
    exact_mod_cast lt_of_mul_lt_mul_right hlt' hu.le
  have hodd : ((2 * k + 1 : ℕ) : ℚ) * ulpAt F x = g + ulpAt F x := by rw [hn]; push_cast; ring
  have hbelow : g + 2 * ulpAt F x ≤ h := by
    rw [hn, hm]
    nlinarith
  have hgrid := inGrid_odd_multiple hF hbits (by rw [hodd]; linarith [le_of_inGrid hF hhGrid])
  have hnear := hgMin _ hgrid
  rw [hodd, abs_of_pos (by linarith : 0 < x - g)] at hnear
  exact absurd (abs_lt.2 ⟨by linarith, by linarith⟩) (not_lt.2 hnear)

include hF in
theorem nearestEven_unique (hx : x ≠ 0) (hg : NearestEven F x g) (hh : NearestEven F x h) : g = h := by
  have ofPos : ∀ {x g h : ℚ}, 0 < x → NearestEven F x g → NearestEven F x h → g = h := fun hx hg hh =>
    le_antisymm (not_lt.1 (nearestEven_not_lt hF hx hh hg)) (not_lt.1 (nearestEven_not_lt hF hx hg hh))
  rcases lt_or_gt_of_ne hx with hneg | hpos
  · exact neg_injective (ofPos (neg_pos.2 hneg) (nearestEven_neg hF hg) (nearestEven_neg hF hh))
  · exact ofPos hpos hg hh

end Grid

/-- Settles O35: the grid element is unique, and a value is determined by its format, its sign and its number. -/
theorem roundedValueIsUnique : Obligations.RoundedValueIsUnique := by
  unfold Obligations.RoundedValueIsUnique
  rintro F x u v hx ⟨huWF, rfl, hus, g, hg, hu⟩ ⟨hvWF, hvfmt, hvs, h, hh, hv⟩
  obtain rfl := nearestEven_unique huWF.1 hx hg hh
  rcases hu with ⟨hne, huval⟩ | ⟨heq, hu⟩ <;> rcases hv with ⟨hne', hvval⟩ | ⟨heq', hv⟩
  · exact Value.val_inj huWF hvWF hvfmt.symm (hus.trans hvs.symm) (by simp [huval]) (huval.trans hvval.symm)
  · exact absurd heq' hne
  · exact absurd heq hne'
  · exact hu.trans hv.symm

/-! ### RoundPack (R142, R143) -/

/-- The multiple of the unit in the last place that RoundPack packs: `N * 2^q` of R142. -/
def rounded (F : Format) (S : Nat) (Q : ℤ) : ℚ := roundSig S Q (ulpExp F S Q) * 2 ^ ulpExp F S Q

section RoundPack

variable {F : Format} (hF : F.Legal) {S : Nat} (hS : 0 < S) (Q : ℤ)

include hS in
theorem significand_pos : (0 : ℚ) < S * 2 ^ Q := by
  have : (0 : ℚ) < S := by exact_mod_cast hS
  positivity

include hS in
theorem ulpAt_significand : ulpAt F (S * 2 ^ Q) = 2 ^ ulpExp F S Q := by
  rw [ulpAt, abs_of_pos (significand_pos hS Q), log_of_significand hS, ulpExp]

include hS in
/-- The packed multiple is at least as near as every grid element, and a tie makes it even. -/
theorem rounded_nearest (hF : F.Legal) {g : ℚ} (hg : InGrid F g) :
    |(S : ℚ) * 2 ^ Q - rounded F S Q| ≤ |(S : ℚ) * 2 ^ Q - g| ∧
      (g ≠ rounded F S Q → |(S : ℚ) * 2 ^ Q - g| = |(S : ℚ) * 2 ^ Q - rounded F S Q| →
        Even (roundSig S Q (ulpExp F S Q))) := by
  obtain ⟨-, n, p, hn, hp, habs⟩ := (inGrid_iff hF g).1 hg
  obtain ⟨hmin, htie⟩ := roundSig_nearest_of_grid F hS Q hn hp
  rw [← habs] at hmin htie
  have hpos := significand_pos hS Q
  have hfold : |(S : ℚ) * 2 ^ Q - (|g|)| ≤ |(S : ℚ) * 2 ^ Q - g| := by
    have h := abs_abs_sub_abs_le ((S : ℚ) * 2 ^ Q) g
    rwa [abs_of_pos hpos] at h
  refine ⟨hmin.trans hfold, fun hne heq => htie (le_antisymm hmin (hfold.trans heq.le)) fun hmag => hne ?_⟩
  -- Equal magnitudes at equal distances from a positive number have the same sign.
  rcases abs_eq_abs.1 heq with h | h
  · exact sub_right_injective h
  · have hnonneg : 0 ≤ rounded F S Q := by rw [rounded]; positivity
    change |g| = rounded F S Q at hmag
    rcases abs_cases g with ⟨hg, -⟩ | ⟨hg, -⟩
    · rw [← hmag, hg]
    · linarith

include hF hS

/-- Up to the first value beyond the format the packed multiple is the nearest grid element. -/
theorem nearestEven_rounded (hle : rounded F S Q ≤ 2 ^ ((F.bias : ℤ) + 1)) :
    NearestEven F (S * 2 ^ Q) (rounded F S Q) := by
  refine ⟨?_, fun g hg => (rounded_nearest hS Q hF hg).1, fun g hg hne heq => ?_⟩
  · obtain ⟨hwf, hfmt, -, ⟨-, hval⟩ | ⟨hge, -⟩⟩ := roundPack_spec hF false hS Q
    · exact .inr ⟨_, hwf, hfmt, by simpa [rounded] using hval⟩
    · exact .inl (by rw [le_antisymm hle hge, abs_of_pos (by positivity)])
  · obtain ⟨k, hk⟩ := (rounded_nearest hS Q hF hg).2 hne heq
    exact ⟨k, by rw [ulpAt_significand hS, rounded, hk]; push_cast; ring⟩

/-- Beyond the first value beyond the format, that value is the nearest grid element. -/
theorem nearestEven_overflow (hlt : 2 ^ ((F.bias : ℤ) + 1) < rounded F S Q) :
    NearestEven F (S * 2 ^ Q) (2 ^ ((F.bias : ℤ) + 1)) := by
  have hgrid : InGrid F (2 ^ ((F.bias : ℤ) + 1)) := .inl (abs_of_pos (by positivity))
  have hbeyond : (2 : ℚ) ^ ((F.bias : ℤ) + 1) ≤ S * 2 ^ Q := by
    by_contra hlow
    have h := (rounded_nearest hS Q hF hgrid).1
    rw [abs_of_neg (by linarith), abs_of_neg (by linarith)] at h
    linarith
  have hdist : ∀ g, InGrid F g → |(S : ℚ) * 2 ^ Q - g| = S * 2 ^ Q - g := fun g hg =>
    abs_of_nonneg (sub_nonneg.2 ((le_of_inGrid hF hg).trans hbeyond))
  refine ⟨hgrid, fun g hg => ?_, fun g hg hne heq => absurd ?_ hne⟩
  · rw [hdist _ hgrid, hdist g hg]
    linarith [le_of_inGrid hF hg]
  · rw [hdist _ hgrid, hdist g hg] at heq
    linarith

end RoundPack

theorem signed_neg_iff {s : Bool} {x : ℚ} (hx : 0 < x) : s = decide ((if s then -1 else 1) * x < 0) := by
  cases s
  · simp [hx.le]
  · simp [hx]

theorem abs_signed (s : Bool) (x : ℚ) : |(if s then -1 else 1) * x| = |x| := by cases s <;> simp

/-- Settles O34: below the first value beyond the format the result is the packed multiple, from there on an infinity. -/
theorem roundPackRoundsToNearestEven : Obligations.RoundPackRoundsToNearestEven := by
  unfold Obligations.RoundPackRoundsToNearestEven
  intro F s S Q hF hS
  have hsign := signed_neg_iff (s := s) (significand_pos hS Q)
  have hbound : (0 : ℚ) < 2 ^ ((F.bias : ℤ) + 1) := by positivity
  obtain ⟨hwf, hfmt, hs, hcases⟩ := roundPack_spec hF s hS Q
  refine ⟨hwf, hfmt, hs.trans hsign, ?_⟩
  rcases hcases with ⟨hlt, hval⟩ | ⟨hge, hinf⟩
  · have hnonneg : 0 ≤ rounded F S Q := by rw [rounded]; positivity
    refine ⟨_, nearestEven_signed hF s (nearestEven_rounded hF hS Q hlt.le), .inl ⟨?_, hval⟩⟩
    rw [abs_signed, abs_of_nonneg hnonneg]
    exact hlt.ne
  · refine ⟨(if s then -1 else 1) * 2 ^ ((F.bias : ℤ) + 1), nearestEven_signed hF s ?_, .inr ⟨?_, ?_⟩⟩
    · rcases hge.eq_or_lt with heq | hlt
      · rw [heq]
        exact nearestEven_rounded hF hS Q heq.ge
      · exact nearestEven_overflow hF hS Q hlt
    · rw [abs_signed, abs_of_pos hbound]
    · rw [hinf, ← hsign]

end Sys2Proof.Proofs

/-! Where rounding is exact, underflows and overflows, and the range of the finite values (spec/42_convert.md R142, R144;
spec/41_classify.md R129; spec/90_conflicts.md C1, C2). -/

namespace Sys2Proof.Proofs

open Sys2Proof Sys2Proof.Machine

theorem bias_of_eb_eq_one {F : Format} (h : F.eb = 1) : F.bias = 0 := by simp [Format.bias, h]

theorem one_le_bias {F : Format} (h : 2 ≤ F.eb) : 1 ≤ F.bias := by
  have : 2 ^ 1 ≤ 2 ^ (F.eb - 1) := Nat.pow_le_pow_right two_pos (by omega)
  simp only [Format.bias]
  omega

theorem bias_mono {F G : Format} (h : F.eb ≤ G.eb) : F.bias ≤ G.bias :=
  Nat.sub_le_sub_right (Nat.pow_le_pow_right two_pos (by omega)) 1

/-! ### Exactness (R144) -/

/-- Settles O37: the significand has no more bits and the unit is no finer than the wider format takes, and the value
lies below the first value beyond it. -/
theorem widerFormatsEmbedExactly : Obligations.WiderFormatsEmbedExactly := by
  unfold Obligations.WiderFormatsEmbedExactly
  intro v G hv hc hG heb hmb
  obtain ⟨hS, hbits, hunit, -⟩ := Value.sf_bounds hv hc
  have hbias := bias_mono heb
  have hlt : (v.sf.1 : ℚ) * 2 ^ v.sf.2 < 2 ^ ((G.bias : ℤ) + 1) :=
    (Value.sf_lt hv hc).trans_le (zpow_le_zpow_right₀ one_le_two (by omega))
  rw [roundPack_exact hG v.s hS (hbits.trans_le (Nat.pow_le_pow_right two_pos (by omega)))
    (by simp only [Format.emin] at hunit ⊢; omega) hlt, Value.val_eq_sf hc, Value.sign]

/-! ### The thresholds (R142) -/

section Thresholds

variable {F : Format} (hF : F.Legal) (s : Bool) {S : Nat} (hS : 0 < S) (Q : ℤ)
include hF hS

theorem roundPack_eq_zeroOf_iff : roundPack F s S Q = zeroOf F s ↔ roundSig S Q (ulpExp F S Q) = 0 := by
  constructor
  · intro h
    obtain ⟨-, -, -, ⟨-, hval⟩ | ⟨-, hinf⟩⟩ := roundPack_spec hF s hS Q
    · rw [h, Value.val_of_zero (cls_zeroOf F s), Option.some.injEq, ExtRat.fin.injEq] at hval
      have hsign : (if s then -1 else 1 : ℚ) ≠ 0 := by cases s <;> norm_num
      have hunit : (2 : ℚ) ^ ulpExp F S Q ≠ 0 := by positivity
      exact_mod_cast (mul_eq_zero.1 ((mul_eq_zero.1 hval.symm).resolve_left hsign)).resolve_right hunit
    · have hc := cls_infOf hF s
      rw [← hinf, h, cls_zeroOf] at hc
      cases hc
  · intro h
    rw [roundPack, packRounded, if_pos h]

theorem roundPack_eq_infOf_iff : roundPack F s S Q = infOf F s ↔ (2 : ℚ) ^ ((F.bias : ℤ) + 1) ≤ rounded F S Q := by
  obtain ⟨-, -, -, ⟨hlt, hval⟩ | ⟨hge, hinf⟩⟩ := roundPack_spec hF s hS Q
  · refine iff_of_false (fun h => ?_) (not_le.2 hlt)
    rw [h, Value.val_of_infinity (cls_infOf hF s)] at hval
    cases s <;> cases hval
  · exact iff_of_true hinf hge

omit hF in
/-- The significand rounds to 0 exactly up to half the smallest subnormal; the tie goes to the even 0. -/
theorem roundSig_eq_zero_iff :
    roundSig S Q (ulpExp F S Q) = 0 ↔ (S : ℚ) * 2 ^ Q ≤ 2 ^ (F.emin - F.mb - 1) := by
  obtain ⟨hnear, htie⟩ := roundSig_nearest S Q (ulpExp F S Q)
  have hpos := significand_pos hS Q
  have hhalf : (2 : ℚ) ^ (F.emin - F.mb - 1) * 2 = 2 ^ (F.emin - F.mb) := by
    rw [← zpow_add_one₀ two_ne_zero]
    congr 1
    ring
  constructor
  · intro h
    rw [ulpExp_of_lt hS (by rw [h]; positivity)] at hnear h
    rw [h, Nat.cast_zero, zero_mul, sub_zero, abs_of_pos hpos] at hnear
    linarith
  · intro hle
    have hlog : Int.log 2 ((S : ℚ) * 2 ^ Q) < F.emin := by
      refine (Int.lt_zpow_iff_log_lt (by decide) hpos).1 (hle.trans_lt ?_)
      exact_mod_cast zpow_lt_zpow_right₀ (one_lt_two : (1 : ℚ) < 2) (by omega : F.emin - F.mb - 1 < F.emin)
    rw [log_of_significand hS] at hlog
    have hunit : ulpExp F S Q = F.emin - F.mb := by rw [ulpExp, max_eq_right hlog.le]
    rw [hunit] at hnear htie ⊢
    have hu : (0 : ℚ) < 2 ^ (F.emin - F.mb) := by positivity
    by_contra hne
    have hone : (1 : ℚ) ≤ roundSig S Q (F.emin - F.mb) := by exact_mod_cast Nat.one_le_iff_ne_zero.2 hne
    have hneg : (S : ℚ) * 2 ^ Q - roundSig S Q (F.emin - F.mb) * 2 ^ (F.emin - F.mb) < 0 := by nlinarith
    rw [abs_of_neg hneg] at hnear htie
    have heq : roundSig S Q (F.emin - F.mb) = 1 := by
      have : (roundSig S Q (F.emin - F.mb) : ℚ) * 2 ^ (F.emin - F.mb) ≤ 1 * 2 ^ (F.emin - F.mb) := by linarith
      exact_mod_cast le_antisymm (le_of_mul_le_mul_right this hu) hone
    rw [heq] at hnear htie
    refine absurd (htie (le_antisymm hnear ?_)) (by decide)
    push_cast
    linarith

omit hF hS in
/-- A number rounded to `N` units reaches the even bound `K` exactly from half a unit below it on: the tie goes to `K`. -/
theorem even_bound_le_rounded_iff {X U : ℚ} {N K : ℕ} (hU : 0 < U) (hK : Even K)
    (hnear : 2 * |X - N * U| ≤ U) (htie : 2 * |X - N * U| = U → Even N) :
    (K : ℚ) * U ≤ N * U ↔ (K - 1 / 2) * U ≤ X := by
  obtain ⟨hlo, hhi⟩ := abs_le.1 (show |X - N * U| ≤ U / 2 by linarith)
  constructor
  · intro h
    linarith
  · intro h
    by_contra hlt
    have hsucc : N + 1 ≤ K := Nat.lt_of_not_le fun hKN => hlt (by gcongr)
    have hsuccQ : ((N + 1 : ℕ) : ℚ) * U ≤ K * U := by gcongr
    push_cast at hsuccQ
    have hup : |X - N * U| = X - N * U := abs_of_nonneg (by linarith)
    have hKN : K = N + 1 := by
      refine le_antisymm ?_ hsucc
      have : (K : ℚ) * U ≤ ((N + 1 : ℕ) : ℚ) * U := by push_cast; linarith
      exact_mod_cast le_of_mul_le_mul_right this hU
    rw [hKN, Nat.even_add_one] at hK
    exact hK (htie (by rw [hup]; linarith))

omit hF in
theorem ulpExp_eq_log : ulpExp F S Q = max (Int.log 2 ((S : ℚ) * 2 ^ Q)) F.emin - F.mb := by
  rw [log_of_significand hS, ulpExp]

omit hF hS in
/-- The packed multiple is at most the carry out of its binade. -/
theorem rounded_le_carry : rounded F S Q ≤ 2 ^ ((F.mb : ℤ) + 1 + ulpExp F S Q) := by
  calc rounded F S Q ≤ 2 ^ (F.mb + 1) * 2 ^ ulpExp F S Q := by
        rw [rounded]
        gcongr
        exact_mod_cast roundSig_le F S Q
    _ = 2 ^ ((F.mb : ℤ) + 1 + ulpExp F S Q) := by
        rw [← zpow_natCast, ← zpow_add₀ two_ne_zero]
        push_cast
        rfl

omit hF in
/-- A normal number is not rounded below its binade. -/
theorem binade_le_rounded (hnormal : F.emin ≤ Int.log 2 ((S : ℚ) * 2 ^ Q)) :
    (2 : ℚ) ^ Int.log 2 ((S : ℚ) * 2 ^ Q) ≤ rounded F S Q := by
  have hunit := ulpExp_eq_log (F := F) hS Q
  have hN := le_roundSig_of_normal (F := F) hS (Q := Q) (by rwa [← log_of_significand hS])
  calc (2 : ℚ) ^ Int.log 2 ((S : ℚ) * 2 ^ Q) = 2 ^ ((F.mb : ℤ) + ulpExp F S Q) := by congr 1; omega
    _ = 2 ^ F.mb * 2 ^ ulpExp F S Q := by rw [zpow_add₀ two_ne_zero, zpow_natCast]
    _ ≤ rounded F S Q := by
        rw [rounded]
        gcongr
        exact_mod_cast hN

omit hF hS in
/-- The first value beyond the format, in units of the last binade. -/
theorem beyond_eq : (2 : ℚ) ^ ((F.bias : ℤ) + 1) = ((2 ^ (F.mb + 1) : ℕ) : ℚ) * 2 ^ ((F.bias : ℤ) - F.mb) := by
  push_cast
  rw [← zpow_natCast, ← zpow_add₀ two_ne_zero]
  congr 1
  push_cast
  ring

omit hF hS in
/-- The overflow threshold lies half a unit of the last binade below the first value beyond the format. -/
theorem threshold_eq : (2 - 2 ^ (-(F.mb : ℤ) - 1) : ℚ) * 2 ^ F.bias =
    (((2 ^ (F.mb + 1) : ℕ) : ℚ) - 1 / 2) * 2 ^ ((F.bias : ℤ) - F.mb) := by
  rw [sub_mul _ (1 / 2 : ℚ), ← beyond_eq, zpow_sub₀ two_ne_zero, zpow_sub₀ two_ne_zero, zpow_neg,
    zpow_add_one₀ two_ne_zero, zpow_natCast, zpow_natCast, zpow_one]
  ring

omit hF hS in
/-- The overflow threshold lies in the last binade. -/
theorem threshold_bounds : (2 : ℚ) ^ (F.bias : ℤ) ≤ (2 - 2 ^ (-(F.mb : ℤ) - 1)) * 2 ^ F.bias ∧
    (2 - 2 ^ (-(F.mb : ℤ) - 1) : ℚ) * 2 ^ F.bias ≤ 2 ^ ((F.bias : ℤ) + 1) := by
  have hle : (2 : ℚ) ^ (-(F.mb : ℤ) - 1) ≤ 1 := zpow_le_one_of_nonpos₀ one_le_two (by omega)
  have hpos : (0 : ℚ) < 2 ^ (-(F.mb : ℤ) - 1) := by positivity
  have hbias : (0 : ℚ) < 2 ^ F.bias := by positivity
  rw [zpow_add_one₀ two_ne_zero, zpow_natCast]
  constructor <;> nlinarith

omit hF in
/-- From half a unit above the largest finite value on, the packed multiple lies beyond the format. -/
theorem beyond_le_rounded_iff (heb : 2 ≤ F.eb) : (2 : ℚ) ^ ((F.bias : ℤ) + 1) ≤ rounded F S Q ↔
    (2 - 2 ^ (-(F.mb : ℤ) - 1)) * 2 ^ F.bias ≤ (S : ℚ) * 2 ^ Q := by
  have hlo := Int.zpow_log_le_self (b := 2) (by decide) (significand_pos hS Q)
  have hhi := Int.lt_zpow_succ_log_self (b := 2) (by decide) ((S : ℚ) * 2 ^ Q)
  push_cast at hlo hhi
  obtain ⟨hthrLo, hthrHi⟩ := threshold_bounds (F := F)
  have hunit := ulpExp_eq_log (F := F) hS Q
  have hemin : F.emin + 1 ≤ F.bias := by
    have := one_le_bias heb
    simp only [Format.emin]
    omega
  rcases lt_trichotomy (Int.log 2 ((S : ℚ) * 2 ^ Q)) F.bias with hlt | heq | hgt
  · -- Below the last binade both sides fail.
    have hcarry : (2 : ℚ) ^ ((F.mb : ℤ) + 1 + ulpExp F S Q) < 2 ^ ((F.bias : ℤ) + 1) :=
      zpow_lt_zpow_right₀ one_lt_two (by omega)
    have hbinade : (2 : ℚ) ^ (Int.log 2 ((S : ℚ) * 2 ^ Q) + 1) ≤ 2 ^ (F.bias : ℤ) :=
      zpow_le_zpow_right₀ one_le_two (by omega)
    exact iff_of_false (not_le.2 ((rounded_le_carry Q).trans_lt hcarry))
      (not_le.2 (hhi.trans_le (hbinade.trans hthrLo)))
  · -- In the last binade the bound is the even carry `2^(mb+1)`.
    have hq : ulpExp F S Q = F.bias - F.mb := by omega
    obtain ⟨hnear, htie⟩ := roundSig_nearest S Q (ulpExp F S Q)
    rw [rounded, threshold_eq, beyond_eq, ← hq]
    exact even_bound_le_rounded_iff (by positivity) (Nat.even_pow.2 ⟨even_two, by omega⟩) hnear htie
  · -- Above it both sides hold.
    have hbeyond : (2 : ℚ) ^ ((F.bias : ℤ) + 1) ≤ 2 ^ Int.log 2 ((S : ℚ) * 2 ^ Q) :=
      zpow_le_zpow_right₀ one_le_two hgt
    exact iff_of_true (hbeyond.trans (binade_le_rounded hS Q (by omega))) (hthrHi.trans (hbeyond.trans hlo))

end Thresholds

/-- Settles O36: the result is the zero where the rounded significand is 0, and the infinity where the packed multiple
reaches `2^(bias+1)`. -/
theorem underflowAndOverflowThresholds : Obligations.UnderflowAndOverflowThresholds := by
  unfold Obligations.UnderflowAndOverflowThresholds
  intro F s S Q hF hS
  exact ⟨(roundPack_eq_zeroOf_iff hF s hS Q).trans (roundSig_eq_zero_iff hS Q),
    fun heb => (roundPack_eq_infOf_iff hF s hS Q).trans (beyond_le_rounded_iff hS Q heb)⟩

/-! ### The range of the finite values (spec/41 R129) -/

/-- A positive multiple of at most `mb + 1` bits, within the range of the format, is a value of it. -/
theorem exists_value_of_multiple {F : Format} (hF : F.Legal) {S : Nat} {Q : ℤ} (hS : 0 < S) (hbits : S < 2 ^ (F.mb + 1))
    (hunit : F.emin - F.mb ≤ Q) (hlt : (S : ℚ) * 2 ^ Q < 2 ^ ((F.bias : ℤ) + 1)) :
    ∃ v : Value, v.WF ∧ v.fmt = F ∧ v.val = some (.fin (S * 2 ^ Q)) := by
  obtain ⟨hwf, hfmt, -, -⟩ := roundPack_spec hF false hS Q
  exact ⟨_, hwf, hfmt, by simpa using roundPack_exact hF false hS hbits hunit hlt⟩

/-- The largest finite value in units of its last place. -/
theorem largest_eq (F : Format) :
    (2 - 2 ^ (-(F.mb : ℤ)) : ℚ) * 2 ^ F.bias = ((2 ^ (F.mb + 1) - 1 : ℕ) : ℚ) * 2 ^ ((F.bias : ℤ) - F.mb) := by
  rw [Nat.cast_sub Nat.one_le_two_pow, zpow_sub₀ two_ne_zero, zpow_neg, zpow_natCast, zpow_natCast]
  push_cast
  field_simp
  ring

/-- The largest finite value of a format with one exponent bit, in units of its last place. -/
theorem largest_eq_of_eb_eq_one (F : Format) :
    (1 - 2 ^ (-(F.mb : ℤ)) : ℚ) * 2 = ((2 ^ F.mb - 1 : ℕ) : ℚ) * 2 ^ (1 - (F.mb : ℤ)) := by
  rw [Nat.cast_sub Nat.one_le_two_pow, zpow_sub₀ two_ne_zero, zpow_neg, zpow_natCast, zpow_one]
  push_cast
  field_simp

section Range

variable {v : Value} (hv : v.WF) (hc : v.cls = .subnormal ∨ v.cls = .normal)
include hv hc

theorem smallest_le_magnitude : (2 : ℚ) ^ (1 - (v.fmt.bias : ℤ) - v.fmt.mb) ≤ v.sf.1 * 2 ^ v.sf.2 := by
  obtain ⟨hS, -, hunit, -⟩ := Value.sf_bounds hv hc
  calc (2 : ℚ) ^ (1 - (v.fmt.bias : ℤ) - v.fmt.mb) ≤ 2 ^ v.sf.2 := zpow_le_zpow_right₀ one_le_two hunit
    _ ≤ v.sf.1 * 2 ^ v.sf.2 := le_mul_of_one_le_left (by positivity) (by exact_mod_cast hS)

theorem magnitude_le_largest (heb : 2 ≤ v.fmt.eb) :
    (v.sf.1 : ℚ) * 2 ^ v.sf.2 ≤ (2 - 2 ^ (-(v.fmt.mb : ℤ))) * 2 ^ v.fmt.bias := by
  obtain ⟨-, hbits, -, htop⟩ := Value.sf_bounds hv hc
  have hbias := one_le_bias heb
  simp only [Format.emin] at htop
  rw [largest_eq]
  gcongr
  · omega
  · exact one_le_two
  · omega

theorem magnitude_le_largest_of_eb_eq_one (heb : v.fmt.eb = 1) :
    (v.sf.1 : ℚ) * 2 ^ v.sf.2 ≤ (1 - 2 ^ (-(v.fmt.mb : ℤ))) * 2 := by
  have hsub := hc.resolve_right (not_normal_of_eb_eq_one hv heb)
  obtain ⟨-, -, hm⟩ := hv
  rw [largest_eq_of_eb_eq_one, Value.sf_of_subnormal hsub, Format.emin, bias_of_eb_eq_one heb]
  simp only [Nat.cast_zero, sub_zero]
  gcongr
  omega

end Range

/-- Settles O33: the bounds of the significand form, and for each bound RoundPack's exact value. -/
theorem finiteValuesLieInTheRange : Obligations.FiniteValuesLieInTheRange := by
  unfold Obligations.FiniteValuesLieInTheRange
  refine ⟨fun v q hv hval hq => ?_, fun F hF => ⟨fun hwide => ?_, fun heb => ?_, fun heb hmb => ?_⟩⟩
  · obtain ⟨-, rfl⟩ | ⟨hc, rfl⟩ := Value.val_fin_iff.1 hval
    · exact absurd rfl hq
    · rw [abs_mul, Value.abs_sign, one_mul, abs_of_nonneg (by positivity)]
      exact ⟨smallest_le_magnitude hv hc, magnitude_le_largest hv hc, magnitude_le_largest_of_eb_eq_one hv hc⟩
  · have hroom : 1 ≤ 2 * F.bias + F.mb := by
      rcases hwide with heb | hmb
      · have := one_le_bias heb
        omega
      · omega
    obtain ⟨v, hv, hfmt, hval⟩ := exists_value_of_multiple hF (S := 1) (Q := 1 - (F.bias : ℤ) - F.mb) one_pos
      (Nat.one_lt_two_pow (by omega)) le_rfl
      (by simpa using zpow_lt_zpow_right₀ (one_lt_two : (1 : ℚ) < 2) (by omega : 1 - (F.bias : ℤ) - F.mb < F.bias + 1))
    exact ⟨v, hv, hfmt, by simpa using hval⟩
  · have hbias := one_le_bias heb
    have hbits : 1 < 2 ^ (F.mb + 1) := Nat.one_lt_two_pow (by omega)
    have hlt : (2 - 2 ^ (-(F.mb : ℤ)) : ℚ) * 2 ^ F.bias < 2 ^ ((F.bias : ℤ) + 1) := by
      rw [zpow_add_one₀ two_ne_zero, zpow_natCast, mul_comm _ (2 : ℚ)]
      gcongr
      exact sub_lt_self _ (by positivity)
    rw [largest_eq] at hlt ⊢
    exact exists_value_of_multiple hF (by omega) (by omega) (by simp only [Format.emin]; omega) hlt
  · have hbias := bias_of_eb_eq_one heb
    have hbits : 1 < 2 ^ F.mb := Nat.one_lt_two_pow (by omega)
    have hlt : (1 - 2 ^ (-(F.mb : ℤ)) : ℚ) * 2 < 2 ^ ((F.bias : ℤ) + 1) := by
      rw [hbias, Nat.cast_zero, zero_add, zpow_one]
      have : (0 : ℚ) < 2 ^ (-(F.mb : ℤ)) := by positivity
      linarith
    rw [largest_eq_of_eb_eq_one] at hlt ⊢
    exact exists_value_of_multiple hF (by omega) (by rw [pow_succ]; omega) (by simp only [Format.emin]; omega) hlt

end Sys2Proof.Proofs

/-! The FormatConverter: FROMF, TOF, their round trips, and CVT (spec/42_convert.md R145 to R148, spec/30_encoding.md R76,
R85). -/

namespace Sys2Proof.Proofs

open Sys2Proof Sys2Proof.Machine

/-! ### Binary64 patterns (R78) -/

theorem ofBinary64_wf (w : Word64) : (ofBinary64 w).WF := split_wf (by decide) _

theorem ofBinary64_s (w : Word64) : (ofBinary64 w).s = w.getLsbD 63 := rfl

theorem ofBinary64_rawWord {v : Value} (hv : v.WF) (hfmt : v.fmt = F64) : ofBinary64 (rawWord v) = v := by
  rw [ofBinary64, rawWord_toNat hv, ← hfmt, split_pack hv]

theorem rawWord_ofBinary64 (w : Word64) : rawWord (ofBinary64 w) = w := by
  rw [rawWord, ofBinary64, pack_split (F := F64) w.isLt, BitVec.ofNat_toNat, BitVec.setWidth_eq]

theorem ofBinary64_injective {w u : Word64} (h : ofBinary64 w = ofBinary64 u) : w = u := by
  rw [← rawWord_ofBinary64 w, h, rawWord_ofBinary64]

/-- One bit of a word, as a field of one bit. -/
theorem extractLsb'_one_eq_ofBool {n : Nat} (w : BitVec n) (k : Nat) : w.extractLsb' k 1 = BitVec.ofBool (w.getLsbD k) := by
  have hbit : ∀ x : BitVec 1, x = BitVec.ofBool (x == 1) := by decide
  rw [BitVec.getLsbD_eq_extractLsb']
  exact hbit _

/-- A binary64 pattern with the exponent field of all ones and the mantissa field 0 is an infinity (R78, R120). -/
theorem cls_ofBinary64_of_infinity {w : Word64} (he : w.extractLsb' 52 11 = 0x7FF) (hm : w.extractLsb' 0 52 = 0) :
    (ofBinary64 w).cls = .infinity := by
  rw [Value.cls_infinity, ofBinary64_e, ofBinary64_m, he, hm]
  exact ⟨by decide, rfl, rfl⟩

/-- A binary64 pattern with both fields 0 is a zero (R78, R120). -/
theorem cls_ofBinary64_of_zero {w : Word64} (he : w.extractLsb' 52 11 = 0) (hm : w.extractLsb' 0 52 = 0) :
    (ofBinary64 w).cls = .zero := by
  rw [Value.cls_zero, ofBinary64_e, ofBinary64_m, he, hm]
  exact ⟨rfl, rfl⟩

/-! ### Correct rounding of the number a value stands for -/

section OfNumber

variable {x : Value} {q : ℚ} (hval : x.val = some (.fin q)) (hq : q ≠ 0)
include hval hq

/-- A value that stands for a number other than 0 is Subnormal or Normal. -/
theorem finite_of_val_ne_zero : (x.cls = .subnormal ∨ x.cls = .normal) ∧ q = x.sign * (x.sf.1 * 2 ^ x.sf.2) :=
  (Value.val_fin_iff.1 hval).resolve_left fun h => hq h.2

theorem convertTo_of_number (F : Format) : convertTo F x = some (roundPack F x.s x.sf.1 x.sf.2) := by
  rcases (finite_of_val_ne_zero hval hq).1 with hc | hc <;> rw [convertTo, hc]

variable (hx : x.WF)
include hx

theorem roundsTo_roundPack {F : Format} (hF : F.Legal) : RoundsTo F q (roundPack F x.s x.sf.1 x.sf.2) := by
  obtain ⟨hc, rfl⟩ := finite_of_val_ne_zero hval hq
  exact roundPackRoundsToNearestEven F x.s x.sf.1 x.sf.2 hF (Value.sf_bounds hx hc).1

/-- A number that the format holds is its own rounding. -/
theorem roundsTo_self : RoundsTo x.fmt q x := by
  obtain ⟨hc, hnum⟩ := finite_of_val_ne_zero hval hq
  have hpos := significand_pos (Value.sf_bounds hx hc).1 x.sf.2
  refine ⟨hx, rfl, ?_, q, ⟨.inr ⟨x, hx, rfl, hval⟩, fun g _ => ?_, fun g _ hne heq => ?_⟩, .inl ⟨?_, hval⟩⟩
  · rw [hnum]
    exact signed_neg_iff hpos
  · rw [sub_self, abs_zero]
    exact abs_nonneg _
  · rw [sub_self, abs_zero, abs_eq_zero, sub_eq_zero] at heq
    exact absurd heq.symm hne
  · rw [hnum, abs_mul, Value.abs_sign, one_mul, abs_of_pos hpos]
    exact (Value.sf_lt hx hc).ne

end OfNumber

/-! ### FROMF (R145) -/

theorem exec_fromf_of_convertTo {s : State} {teb tmb : Nat} {v : Value} (hF : (Format.mk teb tmb).Legal)
    (hv : convertTo ⟨teb, tmb⟩ (ofBinary64 s.lf) = some v) : exec (.fromf teb tmb) s = .next (s.withR v) := by
  rw [exec_fromf_of_legal hF, hv]
  rfl

/-- Settles O40: FROMF is RoundPack of the significand form of its input. -/
theorem fromfRoundsFiniteInputs : Obligations.FromfRoundsFiniteInputs := by
  unfold Obligations.FromfRoundsFiniteInputs
  intro s teb tmb x heb heb' hmb hval hx
  have hF : (Format.mk teb tmb).Legal := ⟨heb, heb', hmb⟩
  exact ⟨_, roundsTo_roundPack hval hx (ofBinary64_wf _) hF, exec_fromf_of_convertTo hF (convertTo_of_number hval hx _)⟩

theorem canonNaN_of_mb_pos {F : Format} (s : Bool) (h : 1 ≤ F.mb) : canonNaN F s = some ⟨s, F.eall, nanMantissa F.mb, F⟩ :=
  if_neg (by omega)

theorem convertTo_of_nan {F : Format} {x : Value} (hx : x.cls = .nan) (hF : 1 ≤ F.mb) :
    convertTo F x = some ⟨x.s, F.eall, nanMantissa F.mb, F⟩ := by rw [convertTo, hx, canonNaN_of_mb_pos x.s hF]

theorem convertTo_of_infinity {x : Value} (hx : x.cls = .infinity) (F : Format) : convertTo F x = some (infOf F x.s) := by
  rw [convertTo, hx]

theorem convertTo_of_zero {x : Value} (hx : x.cls = .zero) (F : Format) : convertTo F x = some (zeroOf F x.s) := by
  rw [convertTo, hx]

/-- Settles O39: one class of the input per clause, and the value of FROMF field by field. -/
theorem fromfOfSpecialInputs : Obligations.FromfOfSpecialInputs := by
  unfold Obligations.FromfOfSpecialInputs
  intro s teb tmb heb heb' hmb
  have hF : (Format.mk teb tmb).Legal := ⟨heb, heb', hmb⟩
  simp only [extractLsb'_one_eq_ofBool]
  refine ⟨fun he hm hmb' => ?nan, fun he hm => ?infinity, fun he hm => ?zero⟩
  case nan => rw [exec_fromf_of_convertTo hF (convertTo_of_nan (cls_ofBinary64_of_nan he hm) hmb')]; rfl
  case infinity => rw [exec_fromf_of_convertTo hF (convertTo_of_infinity (cls_ofBinary64_of_infinity he hm) _)]; rfl
  case zero => rw [exec_fromf_of_convertTo hF (convertTo_of_zero (cls_ofBinary64_of_zero he hm) _)]; rfl

/-! ### Conversion keeps a number that the target holds (R144, R147) -/

/-- A value that the target format holds is converted to the value of the same sign that stands for the same. -/
theorem convertTo_of_val_eq {x u : Value} (hx : x.WF) (hu : u.WF) (h : u.val = x.val) (hn : x.val ≠ none) :
    ∃ v, convertTo u.fmt x = some v ∧ v.val = x.val := by
  cases hc : x.cls with
  | nan => exact absurd hc (Value.val_ne_none.1 hn)
  | zero => exact ⟨_, convertTo_of_zero hc _, by rw [Value.val_of_zero (cls_zeroOf _ _), Value.val_of_zero hc]⟩
  | infinity =>
    exact ⟨_, convertTo_of_infinity hc _, by
      rw [Value.val_of_infinity (cls_infOf hu.1 _), Value.val_of_infinity hc]; rfl⟩
  | subnormal | normal =>
    have hval := Value.val_eq_sf (v := x) (by simp [hc])
    have hq : x.sign * (x.sf.1 * 2 ^ x.sf.2) ≠ 0 :=
      mul_ne_zero Value.sign_ne_zero (significand_pos (Value.sf_bounds hx (by simp [hc])).1 _).ne'
    have hround : roundPack u.fmt x.s x.sf.1 x.sf.2 = u :=
      roundedValueIsUnique _ _ _ _ hq (roundsTo_roundPack hval hq hx hu.1) (roundsTo_self (h.trans hval) hq hu)
    exact ⟨u, by rw [convertTo_of_number hval hq, hround], h⟩

/-- Conversion to a format at least as wide, with a mantissa for the NaN, keeps what the value stands for. -/
theorem convertTo_of_wider {x : Value} {G : Format} (hx : x.WF) (hG : G.Legal) (heb : x.fmt.eb ≤ G.eb)
    (hmb : x.fmt.mb ≤ G.mb) (hG' : 1 ≤ G.mb) : ∃ v, convertTo G x = some v ∧ v.val = x.val := by
  cases hc : x.cls with
  | nan =>
    have hnan := convertTo_of_nan hc hG'
    obtain ⟨-, -, -, hcls⟩ := canonNaN_some hG (canonNaN_of_mb_pos x.s hG')
    exact ⟨_, hnan, by rw [Value.val_of_nan hcls, Value.val_of_nan hc]⟩
  | zero => exact ⟨_, convertTo_of_zero hc G, by rw [Value.val_of_zero (cls_zeroOf _ _), Value.val_of_zero hc]⟩
  | infinity =>
    exact ⟨_, convertTo_of_infinity hc G, by rw [Value.val_of_infinity (cls_infOf hG _), Value.val_of_infinity hc]; rfl⟩
  | subnormal | normal =>
    exact ⟨roundPack G x.s x.sf.1 x.sf.2, by rw [convertTo, hc],
      widerFormatsEmbedExactly x G hx (by simp [hc]) hG heb hmb⟩

/-! ### TOF (R146) -/

/-- The sign bit put in front of the 63 other bits. -/
theorem signBit64_add_nan (b : Bool) :
    signBit64 b + 0x7FF8000000000000 = BitVec.ofBool b ++ (0x7FF8000000000000 : BitVec 63) := by cases b <;> decide

theorem signBit64_add_infinity (b : Bool) :
    signBit64 b + 0x7FF0000000000000 = BitVec.ofBool b ++ (0x7FF0000000000000 : BitVec 63) := by cases b <;> decide

theorem signBit64_eq (b : Bool) : signBit64 b = BitVec.ofBool b ++ (0 : BitVec 63) := by cases b <;> decide

section Tof

variable {a : Value}

theorem toBinary64_of_nan (hc : a.cls = .nan) :
    toBinary64 a = BitVec.ofBool a.s ++ (0x7FF8000000000000 : BitVec 63) := by rw [toBinary64, hc, ← signBit64_add_nan]

theorem toBinary64_of_infinity (hc : a.cls = .infinity) :
    toBinary64 a = BitVec.ofBool a.s ++ (0x7FF0000000000000 : BitVec 63) := by
  rw [toBinary64, hc, ← signBit64_add_infinity]

theorem toBinary64_of_zero (hc : a.cls = .zero) : toBinary64 a = BitVec.ofBool a.s ++ (0 : BitVec 63) := by
  rw [toBinary64, hc, ← signBit64_eq]

variable (ha : a.WF)
include ha

/-- TOF is conversion to the platform format. -/
theorem convertTo_eq_toBinary64 : convertTo F64 a = some (ofBinary64 (toBinary64 a)) := by
  cases hc : a.cls with
  | nan => rw [convertTo_of_nan hc (by decide), toBinary64_of_nan hc]; cases a.s <;> decide
  | infinity => rw [convertTo_of_infinity hc, toBinary64_of_infinity hc]; cases a.s <;> decide
  | zero => rw [convertTo_of_zero hc, toBinary64_of_zero hc]; cases a.s <;> decide
  | subnormal | normal =>
    obtain ⟨hwf, hfmt, -⟩ :=
      roundPack_spec (F := F64) (by decide) a.s (Value.sf_bounds ha (by simp [hc])).1 a.sf.2
    rw [convertTo, toBinary64, hc, ofBinary64_rawWord hwf hfmt]

/-- The binary64 pattern of TOF has the sign of the operand and stands for the same. -/
theorem toBinary64_keeps_value :
    (ofBinary64 (toBinary64 a)).s = a.s ∧ (ofBinary64 (toBinary64 a)).val = a.val := by
  have hconv := convertTo_eq_toBinary64 ha
  obtain ⟨-, heb, hmb⟩ := ha.1
  obtain ⟨v, hv, hval⟩ := convertTo_of_wider (G := F64) ha (by decide) heb hmb (by decide)
  obtain rfl := Option.some.inj (hv.symm.trans hconv)
  obtain ⟨-, -, hs⟩ := convertTo_wf (by decide) ha hconv
  exact ⟨hs, hval⟩

/-- TOF gives back a pattern whose value it is, unless that is a NaN. -/
theorem toBinary64_eq_of_val {f : Word64} (hs : a.s = (ofBinary64 f).s) (hval : a.val = (ofBinary64 f).val)
    (hn : a.val ≠ none) : toBinary64 a = f := by
  obtain ⟨hs', hval'⟩ := toBinary64_keeps_value ha
  exact ofBinary64_injective (Value.val_inj (ofBinary64_wf _) (ofBinary64_wf _) rfl (hs'.trans hs) (hval' ▸ hn)
    (hval'.trans hval))

end Tof

theorem exec_tof_of_busOK {s : State} (h : BusOK s.la) :
    exec .tof s = .next (s.withFOut (toBinary64 (ofBus s.la))) := by
  rw [exec, execTof, withA_of_busOK h, answerFOut]

/-- Settles O41: one class of the operand per clause. -/
theorem tofOfSpecialValues : Obligations.TofOfSpecialValues := by
  unfold Obligations.TofOfSpecialValues
  intro s hok
  have hwf := busOK_iff_wf.1 hok
  simp only [extractLsb'_one_eq_ofBool]
  rw [exec_tof_of_busOK hok]
  refine ⟨fun he hm => ?nan, fun he hm => ?infinity, fun he hm => ?zero⟩
  case nan => rw [toBinary64_of_nan ((cls_eq_nan_iff_of_wf hwf).2 ⟨he, hm⟩)]; rfl
  case infinity => rw [toBinary64_of_infinity ((cls_eq_infinity_iff_of_wf hwf).2 ⟨he, hm⟩)]; rfl
  case zero => rw [toBinary64_of_zero (Value.cls_zero.2 ⟨he, hm⟩)]; rfl

/-- Settles O42: TOF keeps the number and the sign. -/
theorem tofIsExactOnFiniteValues : Obligations.TofIsExactOnFiniteValues := by
  unfold Obligations.TofIsExactOnFiniteValues
  intro s q hok hnum
  obtain ⟨hs, hval⟩ := toBinary64_keeps_value (busOK_iff_wf.1 hok)
  exact ⟨_, exec_tof_of_busOK hok, hval.trans hnum, hs⟩

/-! ### The round trips (R148) -/

/-- TOF of what FROMF wrote on R. -/
theorem exec_tof_toBus {v : Value} (hv : v.WF) (s : State) :
    exec .tof { s with la := toBus v } = .next ({ s with la := toBus v }.withFOut (toBinary64 v)) := by
  rw [exec_tof_of_busOK (s := { s with la := toBus v }) (busOK_toBus hv), ofBus_toBus hv]

/-- Settles O43: FROMF keeps a number the target holds, and TOF keeps every number; a NaN becomes the canonical one. -/
theorem tofOfFromfGivesTheInputBack : Obligations.TofOfFromfGivesTheInputBack := by
  unfold Obligations.TofOfFromfGivesTheInputBack
  intro s teb tmb heb heb' hmb
  have hF : (Format.mk teb tmb).Legal := ⟨heb, heb', hmb⟩
  have hx := ofBinary64_wf s.lf
  refine ⟨fun ⟨u, hu, hfmt, hn, huval⟩ => ?_, fun hnan hmb' => ?_⟩
  · obtain ⟨v, hv, hval⟩ := convertTo_of_val_eq hx hu huval (huval ▸ hn)
    rw [hfmt] at hv
    obtain ⟨hvWF, -, hs⟩ := convertTo_wf hF hx hv
    refine ⟨_, _, exec_fromf_of_convertTo hF hv, rfl, _, exec_tof_toBus hvWF s, ?_⟩
    rw [State.withFOut_fOut, toBinary64_eq_of_val hvWF hs hval (by rw [hval, ← huval]; exact hn)]
  · have hv := convertTo_of_nan (F := ⟨teb, tmb⟩) hnan hmb'
    obtain ⟨hvWF, -, -, hcls⟩ := canonNaN_some hF (canonNaN_of_mb_pos (ofBinary64 s.lf).s hmb')
    refine ⟨_, _, exec_fromf_of_convertTo hF hv, rfl, _, exec_tof_toBus hvWF s, ?_⟩
    rw [State.withFOut_fOut, toBinary64_of_nan hcls, extractLsb'_one_eq_ofBool, ofBinary64_s]

/-- Settles O44: TOF keeps what the operand stands for, and its own format holds that. -/
theorem fromfOfTofGivesTheOperandBack : Obligations.FromfOfTofGivesTheOperandBack := by
  unfold Obligations.FromfOfTofGivesTheOperandBack
  intro s hok
  have ha := busOK_iff_wf.1 hok
  obtain ⟨hs, hval⟩ := toBinary64_keeps_value ha
  have hy := ofBinary64_wf (toBinary64 (ofBus s.la))
  refine ⟨_, _, exec_tof_of_busOK hok, rfl, ?_⟩
  by_cases hnan : (ofBus s.la).cls = .nan
  · have hynan : (ofBinary64 (toBinary64 (ofBus s.la))).cls = .nan := by
      by_contra h
      exact Value.val_ne_none.2 h (hval.trans (Value.val_of_nan hnan))
    have hv := convertTo_of_nan hynan (Nat.pos_of_ne_zero (Value.mb_pos_of_nan ha hnan))
    refine ⟨_, exec_fromf_of_convertTo ha.1 hv, fun h => absurd hnan h, fun _ => ?_⟩
    rw [extractLsb'_one_eq_ofBool, State.withR_r, hs]
    rfl
  · have hn := Value.val_ne_none.2 hnan
    obtain ⟨v, hv, hvval⟩ := convertTo_of_val_eq hy ha hval.symm (hval ▸ hn)
    obtain ⟨hvWF, hvfmt, hvs⟩ := convertTo_wf ha.1 hy hv
    have hva : v = ofBus s.la :=
      Value.val_inj hvWF ha hvfmt (hvs.trans hs) (by rw [hvval, hval]; exact hn) (hvval.trans hval)
    refine ⟨_, exec_fromf_of_convertTo ha.1 hv, fun _ => ?_, fun h => absurd h hnan⟩
    rw [State.withR_r, hva, toBus_ofBus]

/-! ### The widest format (spec/30 R76) -/

/-- At E11M52 the raw pattern is the low 64 bits of the value bus word. -/
theorem rawWord_ofBus_of_widest {w : BusWord} (heb : busEb w = 11) (hmb : busMb w = 52) :
    rawWord (ofBus w) = w.extractLsb' 0 64 := by
  have hs : (w.getLsbD 63).toNat = w.toNat / 2 ^ 63 % 2 := by
    rw [BitVec.getLsbD, Nat.testBit_eq_decide_div_mod_eq]
    rcases Nat.mod_two_eq_zero_or_one (w.toNat / 2 ^ 63) with h | h <;> rw [h] <;> rfl
  rw [rawWord, pack_ofBus, heb, hmb, hs, busE, busM, BitVec.extractLsb'_toNat, BitVec.extractLsb'_toNat,
    Nat.shiftRight_eq_div_pow, Nat.shiftRight_zero]
  apply BitVec.eq_of_toNat_eq
  rw [BitVec.toNat_ofNat, BitVec.extractLsb'_toNat, Nat.shiftRight_zero]
  omega

/-- Settles O29: the operand is its own binary64 value, so TOF packs it as it is. -/
theorem widestFormatIsBinary64 : Obligations.WidestFormatIsBinary64 := by
  unfold Obligations.WidestFormatIsBinary64
  intro s hok heb hmb
  have ha := busOK_iff_wf.1 hok
  have hfmt : (ofBus s.la).fmt = F64 := by rw [F64, ← heb, ← hmb]; rfl
  rw [← rawWord_ofBus_of_widest heb hmb]
  refine ⟨⟨_, exec_encode_of_busOK hok, rfl⟩, fun hnan => ⟨_, exec_tof_of_busOK hok, ?_⟩⟩
  have hself := ofBinary64_rawWord ha hfmt
  rw [State.withFOut_fOut, toBinary64_eq_of_val ha (by rw [hself]) (by rw [hself]) (Value.val_ne_none.2 hnan)]

/-! ### CVT (spec/30 R85) -/

/-- A line of the host runs the command that its word decodes to, on its inputs, from NONE in every result register. -/
theorem runLine_of_decode (e : HostEdge) {s : State} {i : Instr} (hbusy : s.busy = false) (hi : decode e.cmd = .ok i) :
    runLine e s = exec i
      { busy := true, valid := false, lcmd := e.cmd, la := e.a, lb := e.b, lraw := e.rawIn, lf := e.fIn,
        r := none, rawOut := none, fOut := none, scal := none, err := none, wait := 0, host := [] } := by
  rw [runLine_eq e s hbusy, complete, hi]

/-- The first line of CVT: TOF. -/
theorem runLine_tof {s : State} {w : BusWord} (hbusy : s.busy = false) (hok : BusOK w) :
    ∃ t, runLine { HostEdge.idle with cmd := encode .tof, a := w } s = .next t ∧
      t.busy = false ∧ t.fOut = some (toBinary64 (ofBus w)) := by
  rw [runLine_of_decode { HostEdge.idle with cmd := encode .tof, a := w } hbusy (decodeOfEncodeIsTheCommand .tof rfl)]
  exact ⟨_, exec_tof_of_busOK hok, State.withFOut_busy _ _, State.withFOut_fOut _ _⟩

/-- The second line of CVT: FROMF. -/
theorem runLine_fromf {s : State} {teb tmb : Nat} {f : Word64} {v : Value} (hbusy : s.busy = false)
    (hF : (Format.mk teb tmb).Legal) (hv : convertTo ⟨teb, tmb⟩ (ofBinary64 f) = some v) :
    ∃ t, runLine { HostEdge.idle with cmd := encode (.fromf teb tmb), fIn := f } s = .next t ∧
      t.r = some (toBus v) ∧ t.err = some 0 ∧ t.busy = false ∧ t.valid = true := by
  have ⟨_, heb, hmb⟩ := hF
  simp only [Config.ebMax, Config.mbMax] at heb hmb
  have hwf : (Instr.fromf teb tmb).wellFormed = true :=
    wellFormed_iff_target_fits.2 ⟨by simp only [targetOf]; omega, by simp only [targetOf]; omega⟩
  rw [runLine_of_decode { HostEdge.idle with cmd := encode (.fromf teb tmb), fIn := f } hbusy
    (decodeOfEncodeIsTheCommand _ hwf)]
  exact ⟨_, exec_fromf_of_convertTo hF hv, State.withR_r _ _, State.withR_err _ _, State.withR_busy _ _,
    State.withR_valid _ _⟩

/-- Settles O45: TOF is exact, so FROMF rounds the operand's own number, once. -/
theorem cvtRoundsOnce : Obligations.CvtRoundsOnce := by
  unfold Obligations.CvtRoundsOnce
  intro s w teb tmb q hbusy hok hnum hq heb heb' hmb
  have hF : (Format.mk teb tmb).Legal := ⟨heb, heb', hmb⟩
  obtain ⟨-, hkeep⟩ := toBinary64_keeps_value (busOK_iff_wf.1 hok)
  have hval := hkeep.trans hnum
  obtain ⟨t, ht, htbusy, hfOut⟩ := runLine_tof hbusy hok
  obtain ⟨u, hu, hr, herr, hubusy, hvalid⟩ := runLine_fromf htbusy hF (convertTo_of_number hval hq _)
  refine ⟨u, _, ?_, roundsTo_roundPack hval hq (ofBinary64_wf _) hF, hr, herr, hubusy, hvalid⟩
  simp only [runCvt, ht, hfOut, hu]

end Sys2Proof.Proofs

/-! The ComparisonEngine: its laws, the hardware comparator, and comparing after TOF (spec/43_compare.md R170, R177). -/

namespace Sys2Proof.Proofs

open Sys2Proof Sys2Proof.Machine

/-! ### What a comparison leaves on SCAL -/

section Scal

variable {i : Instr} {p : ExtRat → ExtRat → Bool} (hi : IsComparison i p) {a b : BusWord} (ha : BusOK a) (hb : BusOK b)
  {s : State}
include hi ha hb

theorem IsComparison.scalAfter_eq : scalAfter i s a b = some (boolScal (compareX p (ofBus a) (ofBus b))) := by
  have h := hi.exec_of_busOK (s := { s with la := a, lb := b }) ha hb
  rw [scalAfter, h]
  rfl

end Scal

/-! ### The laws (R177) -/

/-- The operand `w` is well-formed and stands for the extended real `X`, so it is no NaN. -/
def StandsFor (w : BusWord) (X : WithBot (WithTop ℚ)) : Prop := BusOK w ∧ ∃ x, (ofBus w).val = some x ∧ ordered x = X

theorem exists_standsFor {w : BusWord} (hok : BusOK w) (hn : (ofBus w).cls ≠ .nan) : ∃ X, StandsFor w X := by
  obtain ⟨x, hx⟩ := Option.ne_none_iff_exists'.1 (Value.val_ne_none.2 hn)
  exact ⟨ordered x, hok, x, hx, rfl⟩

section Laws

variable {a b : BusWord} {X Y : WithBot (WithTop ℚ)} (s : State) (hX : StandsFor a X) (hY : StandsFor b Y)
include hX hY

/-- A comparison answers 0x01 exactly when its relation holds of what the operands stand for. -/
theorem IsComparison.scalAfter_eq_one_iff {i : Instr} {p : ExtRat → ExtRat → Bool} (hi : IsComparison i p)
    {q : WithBot (WithTop ℚ) → WithBot (WithTop ℚ) → Prop} (hq : ∀ {x y}, p x y = true ↔ q (ordered x) (ordered y)) :
    scalAfter i s a b = some 1 ↔ q X Y := by
  have hone : ∀ c, boolScal c = 1 ↔ c = true := by decide
  obtain ⟨ha, x, hx, rfl⟩ := hX
  obtain ⟨hb, y, hy, rfl⟩ := hY
  rw [hi.scalAfter_eq ha hb, compareX_of_val hx hy, Option.some.injEq, hone, hq]

theorem cmpeq_iff : scalAfter .cmpeq s a b = some 1 ↔ X = Y :=
  isComparison_cmpeq.scalAfter_eq_one_iff s hX hY (q := fun X Y => X = Y) extRat_eq_iff

theorem cmpne_iff : scalAfter .cmpne s a b = some 1 ↔ X ≠ Y :=
  isComparison_cmpne.scalAfter_eq_one_iff s hX hY (q := fun X Y => X ≠ Y) extRat_ne_iff

theorem cmplt_iff : scalAfter .cmplt s a b = some 1 ↔ X < Y :=
  isComparison_cmplt.scalAfter_eq_one_iff s hX hY (q := fun X Y => X < Y) extRat_lt_iff

theorem cmpgt_iff : scalAfter .cmpgt s a b = some 1 ↔ Y < X :=
  isComparison_cmpgt.scalAfter_eq_one_iff s hX hY (q := fun X Y => Y < X) extRat_lt_iff

theorem cmple_iff : scalAfter .cmple s a b = some 1 ↔ X ≤ Y :=
  isComparison_cmple.scalAfter_eq_one_iff s hX hY (q := fun X Y => X ≤ Y) extRat_le_iff

theorem cmpge_iff : scalAfter .cmpge s a b = some 1 ↔ Y ≤ X :=
  isComparison_cmpge.scalAfter_eq_one_iff s hX hY (q := fun X Y => Y ≤ X) extRat_ge_iff

end Laws

/-- Settles O47: the laws are those of the linear order of the extended reals that the operands stand for. -/
theorem comparisonLaws : Obligations.ComparisonLaws := by
  unfold Obligations.ComparisonLaws
  intro s a b c ha hb hc hna hnb hnc
  obtain ⟨X, hX⟩ := exists_standsFor ha hna
  obtain ⟨Y, hY⟩ := exists_standsFor hb hnb
  obtain ⟨Z, hZ⟩ := exists_standsFor hc hnc
  simp only [cmpeq_iff s hX hX, cmpeq_iff s hX hY, cmpeq_iff s hY hX, cmpeq_iff s hY hZ, cmpeq_iff s hX hZ,
    cmplt_iff s hX hX, cmplt_iff s hX hY, cmplt_iff s hY hX, cmplt_iff s hY hZ, cmplt_iff s hX hZ, cmpgt_iff s hX hY,
    cmpgt_iff s hY hX, cmple_iff s hX hY, cmpge_iff s hX hY, cmpne_iff s hX hY]
  exact ⟨trivial, Eq.symm, Eq.trans, lt_irrefl X, lt_trans, lt_trichotomy X Y, trivial, le_iff_lt_or_eq,
    le_iff_lt_or_eq.trans (or_congr_right eq_comm), trivial, fun h => ⟨h.not_lt, h.not_gt⟩⟩

/-! ### The aligned comparator (R170) -/

/-- A significand brought to a smaller exponent stands for the same number. -/
theorem aligned_significand (S : Nat) {Q Q0 : ℤ} (h : Q0 ≤ Q) :
    ((S * 2 ^ (Q - Q0).toNat : ℕ) : ℚ) * 2 ^ Q0 = S * 2 ^ Q := by
  push_cast
  rw [mul_assoc, ← zpow_natCast, ← zpow_add₀ two_ne_zero]
  congr 2
  omega

/-- The aligned significands are ordered as the magnitudes. -/
theorem aligned_lt_iff (S T : Nat) {Q R Q0 : ℤ} (hQ : Q0 ≤ Q) (hR : Q0 ≤ R) :
    S * 2 ^ (Q - Q0).toNat < T * 2 ^ (R - Q0).toNat ↔ (S : ℚ) * 2 ^ Q < T * 2 ^ R := by
  rw [← aligned_significand S hQ, ← aligned_significand T hR, mul_lt_mul_iff_left₀ (by positivity), Nat.cast_lt]

/-- Settles O48: one case per pair of signs. -/
theorem alignedComparatorDecidesTheOrder : Obligations.AlignedComparatorDecidesTheOrder := by
  unfold Obligations.AlignedComparatorDecidesTheOrder
  intro a b p q ha hb hp hq hp0 hq0
  obtain ⟨hca, rfl⟩ := finite_of_val_ne_zero hp hp0
  obtain ⟨hcb, rfl⟩ := finite_of_val_ne_zero hq hq0
  have hposA := significand_pos (Value.sf_bounds ha hca).1 a.sf.2
  have hposB := significand_pos (Value.sf_bounds hb hcb).1 b.sf.2
  have hlt := aligned_lt_iff a.sf.1 b.sf.1 (min_le_left a.sf.2 b.sf.2) (min_le_right a.sf.2 b.sf.2)
  have hgt := aligned_lt_iff b.sf.1 a.sf.1 (min_le_right a.sf.2 b.sf.2) (min_le_left a.sf.2 b.sf.2)
  cases hsa : a.s <;> cases hsb : b.s <;>
    simp only [comparatorLt, Value.sign, hsa, hsb, decide_eq_true_eq, hlt, hgt, Bool.false_eq_true, if_true, if_false,
      one_mul, neg_one_mul, neg_lt_neg_iff, false_iff, true_iff, not_lt]
  · linarith
  · linarith

/-! ### Comparing after TOF (R170) -/

theorem compareX_congr {a a' b b' : Value} (ha : a'.val = a.val) (hb : b'.val = b.val) (p : ExtRat → ExtRat → Bool) :
    compareX p a' b' = compareX p a b := by rw [compareX, ha, hb, compareX]

theorem exists_isComparison {i : Instr} (hi : i ∈ [Instr.cmpeq, .cmpne, .cmplt, .cmpgt, .cmple, .cmpge]) :
    ∃ p, IsComparison i p := by
  simp only [List.mem_cons, List.not_mem_nil, or_false] at hi
  rcases hi with rfl | rfl | rfl | rfl | rfl | rfl
  · exact ⟨_, isComparison_cmpeq⟩
  · exact ⟨_, isComparison_cmpne⟩
  · exact ⟨_, isComparison_cmplt⟩
  · exact ⟨_, isComparison_cmpgt⟩
  · exact ⟨_, isComparison_cmple⟩
  · exact ⟨_, isComparison_cmpge⟩

/-- What TOF writes on F_OUT, when it answers. -/
theorem eq_toBinary64_of_exec_tof {s t : State} {f : Word64} (hok : BusOK s.la) (h : exec .tof s = .next t)
    (hf : t.fOut = some f) : f = toBinary64 (ofBus s.la) := by
  obtain rfl := Host.Outcome.next.inj ((exec_tof_of_busOK hok).symm.trans h)
  exact (Option.some.inj hf).symm

/-- Settles O49: a comparison looks at what the operands stand for, and TOF keeps that. -/
theorem comparisonAgreesWithBinary64 : Obligations.ComparisonAgreesWithBinary64 := by
  unfold Obligations.ComparisonAgreesWithBinary64
  intro s ta tb fa fb i ha hb hi htofA hfa htofB hfb
  obtain ⟨p, hp⟩ := exists_isComparison hi
  obtain rfl := eq_toBinary64_of_exec_tof ha htofA hfa
  obtain rfl := eq_toBinary64_of_exec_tof (s := { s with la := s.lb }) hb htofB hfb
  have hkeep : ∀ w, BusOK w → (ofBus (toBus (ofBinary64 (toBinary64 (ofBus w))))).val = (ofBus w).val := fun w hw => by
    obtain ⟨-, hval⟩ := toBinary64_keeps_value (busOK_iff_wf.1 hw)
    rw [ofBus_toBus (ofBinary64_wf _), hval]
  rw [hp.scalAfter_eq (busOK_toBus (ofBinary64_wf _)) (busOK_toBus (ofBinary64_wf _)), hp.scalAfter_eq ha hb,
    compareX_congr (hkeep _ ha) (hkeep _ hb)]

end Sys2Proof.Proofs

/-! The ArithmeticEngine: the laws of NEG and ABS, and ADD, SUB and MUL on numbers and on special values
(spec/44_arith.md R190 to R197). -/

namespace Sys2Proof.Proofs

open Sys2Proof Sys2Proof.Machine

/-! ### NEG and ABS (R192, R193) -/

theorem flipSign_flipSign (v : Value) : v.flipSign.flipSign = v := by simp [Value.flipSign]

theorem clearSign_flipSign (v : Value) : v.flipSign.clearSign = v.clearSign := rfl

section SignOnR

variable {w : BusWord} (hw : BusOK w) (s : State) (b : BusWord)
include hw

theorem rAfter_neg : rAfter .neg s w b = some (toBus (ofBus w).flipSign) := by
  rw [rAfter, exec_neg_of_busOK (s := { s with la := w, lb := b }) hw]
  rfl

theorem rAfter_abs : rAfter .abs s w b = some (toBus (ofBus w).clearSign) := by
  rw [rAfter, exec_abs_of_busOK (s := { s with la := w, lb := b }) hw]
  rfl

end SignOnR

/-- Settles O51: flipping the sign twice changes nothing, and clearing it forgets that it was flipped. -/
theorem negationLaws : Obligations.NegationLaws := by
  unfold Obligations.NegationLaws
  intro s t hok h
  have hwf := Value.flipSign_wf (busOK_iff_wf.1 hok)
  obtain rfl := Host.Outcome.next.inj ((exec_neg_of_busOK hok).symm.trans h)
  refine ⟨_, rfl, ?_, ?_, ?_⟩
  · rw [rAfter_neg (busOK_toBus hwf), ofBus_toBus hwf, flipSign_flipSign, toBus_ofBus]
  · rw [rAfter_abs (busOK_toBus hwf), rAfter_abs hok, ofBus_toBus hwf, clearSign_flipSign]
  · rw [rAfter_abs hok]
    exact Option.some_ne_none _

/-! ### The exact sum (R194) -/

theorem answerOrNoNaN_of_eq_some {o : Option Value} {v : Value} (h : o = some v) (s : State) :
    answerOrNoNaN o s = .next (s.withR v) := by
  subst h
  rfl

theorem eq_zero_iff_cls_zero {v : Value} {q : ℚ} (hv : v.WF) (hval : v.val = some (.fin q)) : q = 0 ↔ v.cls = .zero := by
  constructor
  · rintro rfl
    rcases Value.val_fin_iff.1 hval with ⟨hc, -⟩ | ⟨hc, h⟩
    · exact hc
    · exact absurd h.symm (mul_ne_zero Value.sign_ne_zero (significand_pos (Value.sf_bounds hv hc).1 _).ne')
  · intro hc
    rw [Value.val_of_zero hc] at hval
    exact (ExtRat.fin.inj (Option.some.inj hval)).symm

/-- A value that stands for a number is neither an infinity nor a NaN. -/
theorem cls_of_number {v : Value} {q : ℚ} (hval : v.val = some (.fin q)) : v.cls ≠ .infinity ∧ v.cls ≠ .nan := by
  rcases Value.val_fin_iff.1 hval with ⟨hc, -⟩ | ⟨hc | hc, -⟩ <;> simp [hc]

theorem alignExp_le_left {a b : Value} (h : a.cls ≠ .zero) : alignExp a b ≤ a.sf.2 := by
  rw [alignExp, if_neg h]
  split
  · exact le_rfl
  · exact min_le_left _ _

theorem alignExp_le_right {a b : Value} (h : b.cls ≠ .zero) : alignExp a b ≤ b.sf.2 := by
  rw [alignExp, if_neg h]
  split
  · exact le_rfl
  · exact min_le_right _ _

/-- An operand as a multiple of the common unit. -/
theorem alignedSig_mul {v : Value} {q : ℚ} {Q0 : ℤ} (hval : v.val = some (.fin q)) (hQ0 : v.cls ≠ .zero → Q0 ≤ v.sf.2) :
    (alignedSig Q0 v : ℚ) * 2 ^ Q0 = q := by
  rcases Value.val_fin_iff.1 hval with ⟨hc, rfl⟩ | ⟨hc, rfl⟩
  · rw [alignedSig, if_pos hc, Int.cast_zero, zero_mul]
  · have hne : v.cls ≠ .zero := by rcases hc with hc | hc <;> simp [hc]
    rw [alignedSig, if_neg hne, ← aligned_significand v.sf.1 (hQ0 hne), Value.sign]
    push_cast
    ring

/-- The sum in units of `2^Q0`: `T` of R194. -/
def alignedSum (a b : Value) : ℤ := alignedSig (alignExp a b) a + alignedSig (alignExp a b) b

theorem addFinite_of_cancel {a b : Value} (h : alignedSum a b = 0) : addFinite a b = zeroOf (promote a b) false := if_pos h

theorem addFinite_of_sum {a b : Value} (h : alignedSum a b ≠ 0) :
    addFinite a b =
      roundPack (promote a b) (decide (alignedSum a b < 0)) (alignedSum a b).natAbs (alignExp a b) := if_neg h

theorem signed_natAbs (T : ℤ) : ((if decide (T < 0) then -1 else 1 : ℚ)) * T.natAbs = T := by
  rw [Nat.cast_natAbs]
  rcases lt_or_ge T 0 with h | h
  · simp [h, abs_of_neg h]
  · simp [not_lt.2 h, abs_of_nonneg h]

/-- Two finite values that are not both zeros are added (the last row of R194). -/
theorem addValue_of_finite {a b : Value} (ha : a.cls ≠ .infinity ∧ a.cls ≠ .nan) (hb : b.cls ≠ .infinity ∧ b.cls ≠ .nan)
    (h : a.cls ≠ .zero ∨ b.cls ≠ .zero) : addValue a b = some (addFinite a b) := by
  simp only [addValue]
  split
  · rename_i hc
    exact absurd hc ha.2
  · rename_i hc _
    exact absurd hc hb.2
  · rename_i hc _
    exact absurd hc ha.1
  · rename_i hc _ _
    exact absurd hc ha.1
  · rename_i hc _ _
    exact absurd hc hb.1
  · rename_i hca hcb
    exact absurd h (by simp [hca, hcb])
  · rfl

section Numbers

variable {a b : Value} {p q : ℚ} (hp : a.val = some (.fin p)) (hq : b.val = some (.fin q))
include hp hq

theorem alignedSum_mul : (alignedSum a b : ℚ) * 2 ^ alignExp a b = p + q := by
  rw [alignedSum, Int.cast_add, add_mul, alignedSig_mul hp alignExp_le_left, alignedSig_mul hq alignExp_le_right]

theorem alignedSum_eq_zero_iff : alignedSum a b = 0 ↔ p + q = 0 := by
  have hunit : (2 : ℚ) ^ alignExp a b ≠ 0 := by positivity
  rw [← alignedSum_mul hp hq, mul_eq_zero, or_iff_left hunit, Int.cast_eq_zero]

theorem addValue_of_numbers (h : a.cls ≠ .zero ∨ b.cls ≠ .zero) : addValue a b = some (addFinite a b) :=
  addValue_of_finite (cls_of_number hp) (cls_of_number hq) h

variable (ha : a.WF) (hb : b.WF)
include ha hb

theorem addValue_of_zeros (hp0 : p = 0) (hq0 : q = 0) : addValue a b = some (zeroOf (promote a b) (a.s && b.s)) := by
  have hca := (eq_zero_iff_cls_zero ha hp).1 hp0
  have hcb := (eq_zero_iff_cls_zero hb hq).1 hq0
  simp only [addValue, hca, hcb]

omit hb in
theorem addValue_of_cancel (hp0 : p ≠ 0) (hsum : p + q = 0) : addValue a b = some (zeroOf (promote a b) false) := by
  rw [addValue_of_numbers hp hq (.inl (mt (eq_zero_iff_cls_zero ha hp).2 hp0)),
    addFinite_of_cancel ((alignedSum_eq_zero_iff hp hq).2 hsum)]

/-- A sum other than 0 has an operand other than a zero. -/
theorem cls_ne_zero_of_sum (hsum : p + q ≠ 0) : a.cls ≠ .zero ∨ b.cls ≠ .zero := by
  by_contra h
  rw [not_or, not_not, not_not] at h
  exact hsum (by rw [(eq_zero_iff_cls_zero ha hp).2 h.1, (eq_zero_iff_cls_zero hb hq).2 h.2, add_zero])

theorem roundsTo_addFinite (hsum : p + q ≠ 0) : RoundsTo (promote a b) (p + q) (addFinite a b) := by
  have hT := mt (alignedSum_eq_zero_iff hp hq).1 hsum
  have hround := roundPackRoundsToNearestEven (promote a b) (decide (alignedSum a b < 0)) (alignedSum a b).natAbs
    (alignExp a b) (promote_legal ha hb) (Int.natAbs_pos.2 hT)
  rwa [← mul_assoc, signed_natAbs, alignedSum_mul hp hq, ← addFinite_of_sum hT] at hround

/-- ADD of two numbers, at the level of values (R194). -/
theorem addValue_spec :
    (p = 0 → q = 0 → addValue a b = some (zeroOf (promote a b) (a.s && b.s))) ∧
    (p ≠ 0 → p + q = 0 → addValue a b = some (zeroOf (promote a b) false)) ∧
    (p + q ≠ 0 → ∃ v, RoundsTo (promote a b) (p + q) v ∧ addValue a b = some v) :=
  ⟨addValue_of_zeros hp hq ha hb, addValue_of_cancel hp hq ha, fun hsum =>
    ⟨_, roundsTo_addFinite hp hq ha hb hsum, addValue_of_numbers hp hq (cls_ne_zero_of_sum hp hq ha hb hsum)⟩⟩

end Numbers

/-- Settles O53: ADD answers the sum of the aligned significands, which is `p + q` in units of `2^Q0`. -/
theorem addRoundsTheExactSumOnce : Obligations.AddRoundsTheExactSumOnce := by
  unfold Obligations.AddRoundsTheExactSumOnce
  intro s p q ha hb hp hq
  obtain ⟨zeros, cancel, rounds⟩ := addValue_spec hp hq (busOK_iff_wf.1 ha) (busOK_iff_wf.1 hb)
  have ends : ∀ {v}, addValue (ofBus s.la) (ofBus s.lb) = some v → exec .add s = .next (s.withR v) := fun h =>
    (exec_add_of_busOK ha hb).trans (answerOrNoNaN_of_eq_some h s)
  refine ⟨fun hp0 hq0 => ends (zeros hp0 hq0), fun hp0 hsum => ends (cancel hp0 hsum), fun hsum => ?_⟩
  obtain ⟨v, hv, heq⟩ := rounds hsum
  exact ⟨v, hv, ends heq⟩

/-- The number of a value with its sign flipped. -/
theorem val_flipSign {v : Value} {q : ℚ} (h : v.val = some (.fin q)) : v.flipSign.val = some (.fin (-q)) := by
  rcases Value.val_fin_iff.1 h with ⟨hc, rfl⟩ | ⟨hc, rfl⟩
  · exact Value.val_fin_iff.2 (.inl ⟨hc, neg_zero⟩)
  · refine Value.val_fin_iff.2 (.inr ⟨hc, ?_⟩)
    rw [Value.flipSign_sf, Value.sign, Value.sign, Value.flipSign_s]
    cases v.s <;> simp

/-- Settles O56: SUB adds the negated operand, whose number is `-q`. -/
theorem subRoundsTheExactDifferenceOnce : Obligations.SubRoundsTheExactDifferenceOnce := by
  unfold Obligations.SubRoundsTheExactDifferenceOnce
  intro s p q ha hb hp hq
  obtain ⟨zeros, cancel, rounds⟩ :=
    addValue_spec hp (val_flipSign hq) (busOK_iff_wf.1 ha) (Value.flipSign_wf (busOK_iff_wf.1 hb))
  simp only [promote_flipSign, ← sub_eq_add_neg] at zeros cancel rounds
  have ends : ∀ {v}, addValue (ofBus s.la) (ofBus s.lb).flipSign = some v → exec .sub s = .next (s.withR v) := fun h =>
    (exec_sub_of_busOK ha hb).trans (answerOrNoNaN_of_eq_some h s)
  refine ⟨fun hp0 hq0 => ends (zeros hp0 (by rw [hq0, neg_zero])), fun hp0 hdiff => ends (cancel hp0 hdiff),
    fun hdiff => ?_⟩
  obtain ⟨v, hv, heq⟩ := rounds hdiff
  exact ⟨v, hv, ends heq⟩

/-! ### No underflow in a sum (R194) -/

/-- The smallest subnormal of a wider format is no larger. -/
theorem unit_anti {F G : Format} (heb : F.eb ≤ G.eb) (hmb : F.mb ≤ G.mb) : G.emin - G.mb ≤ F.emin - F.mb := by
  have := bias_mono heb
  simp only [Format.emin]
  omega

/-- The unit of a number other than 0 is no finer than the smallest subnormal of its format (spec/41 R123). -/
theorem unit_le_of_number {v : Value} {q : ℚ} (hv : v.WF) (hval : v.val = some (.fin q)) (hne : v.cls ≠ .zero) :
    v.fmt.emin - v.fmt.mb ≤ v.sf.2 := by
  obtain ⟨hc, -⟩ := finite_of_val_ne_zero hval (mt (eq_zero_iff_cls_zero hv hval).1 hne)
  obtain ⟨-, -, hunit, -⟩ := Value.sf_bounds hv hc
  exact hunit

/-- The common unit of two operands is no finer than the smallest subnormal of the promoted format. -/
theorem unit_le_alignExp {a b : Value} {p q : ℚ} (ha : a.WF) (hb : b.WF) (hp : a.val = some (.fin p))
    (hq : b.val = some (.fin q)) (h : a.cls ≠ .zero ∨ b.cls ≠ .zero) :
    (promote a b).emin - (promote a b).mb ≤ alignExp a b := by
  have hleft : a.cls ≠ .zero → (promote a b).emin - (promote a b).mb ≤ a.sf.2 := fun hne =>
    (unit_anti (le_max_left _ _) (le_max_left _ _)).trans (unit_le_of_number ha hp hne)
  have hright : b.cls ≠ .zero → (promote a b).emin - (promote a b).mb ≤ b.sf.2 := fun hne =>
    (unit_anti (le_max_right _ _) (le_max_right _ _)).trans (unit_le_of_number hb hq hne)
  rw [alignExp]
  split_ifs with hca hcb
  · exact hright (h.resolve_left (not_not.2 hca))
  · exact hleft hca
  · exact le_min (hleft hca) (hright hcb)

theorem eq_zeroOf_of_cls_zero {v : Value} (h : v.cls = .zero) : v = zeroOf v.fmt v.s := by
  obtain ⟨s, e, m, F⟩ := v
  obtain ⟨rfl, rfl⟩ : e = 0 ∧ m = 0 := Value.cls_zero.1 h
  rfl

/-- A multiple of at least the smallest subnormal does not round to zero. -/
theorem roundPack_cls_ne_zero {F : Format} (hF : F.Legal) (s : Bool) {S : Nat} {Q : ℤ} (hS : 0 < S)
    (hQ : F.emin - F.mb ≤ Q) : (roundPack F s S Q).cls ≠ .zero := by
  intro hc
  obtain ⟨-, hfmt, hs, -⟩ := roundPack_spec hF s hS Q
  have hzero := eq_zeroOf_of_cls_zero hc
  rw [hfmt, hs, roundPack_eq_zeroOf_iff hF s hS, roundSig_eq_zero_iff hS] at hzero
  have hlt : (2 : ℚ) ^ (F.emin - F.mb - 1) < 2 ^ Q := zpow_lt_zpow_right₀ one_lt_two (by omega)
  have hle : (2 : ℚ) ^ Q ≤ S * 2 ^ Q := le_mul_of_one_le_left (by positivity) (by exact_mod_cast hS)
  linarith

/-- Settles O54: the sum is a multiple of a unit no finer than the smallest subnormal of the promoted format. -/
theorem nonzeroSumsNeverUnderflow : Obligations.NonzeroSumsNeverUnderflow := by
  unfold Obligations.NonzeroSumsNeverUnderflow
  intro s t p q ha hb hp hq hsum h
  have hA := busOK_iff_wf.1 ha
  have hB := busOK_iff_wf.1 hb
  have hne := cls_ne_zero_of_sum hp hq hA hB hsum
  have hT := mt (alignedSum_eq_zero_iff hp hq).1 hsum
  rw [exec_add_of_busOK ha hb, answerOrNoNaN_of_eq_some (addValue_of_numbers hp hq hne)] at h
  obtain rfl := Host.Outcome.next.inj h
  refine ⟨_, State.withR_r _ _, ?_⟩
  rw [ofBus_toBus (addFinite_wf hA hB).1, addFinite_of_sum hT]
  exact roundPack_cls_ne_zero (promote_legal hA hB) _ (Int.natAbs_pos.2 hT) (unit_le_alignExp hA hB hp hq hne)

/-! ### The exact product (R196) -/

theorem sign_xor (a b : Value) : (if a.s ^^ b.s then -1 else 1 : ℚ) = a.sign * b.sign := by
  rw [Value.sign, Value.sign]
  cases a.s <;> cases b.s <;> simp

theorem mulValue_of_finite {a b : Value} (ha : a.cls = .subnormal ∨ a.cls = .normal)
    (hb : b.cls = .subnormal ∨ b.cls = .normal) :
    mulValue a b = some (roundPack (promote a b) (a.s ^^ b.s) (a.sf.1 * b.sf.1) (a.sf.2 + b.sf.2)) := by
  rcases ha with ha | ha <;> rcases hb with hb | hb <;> simp only [mulValue, ha, hb]

/-- Settles O58: the significands are multiplied, the exponents added and the signs combined, exactly. -/
theorem mulRoundsTheExactProductOnce : Obligations.MulRoundsTheExactProductOnce := by
  unfold Obligations.MulRoundsTheExactProductOnce
  intro s p q ha hb hp hq hpq
  have hA := busOK_iff_wf.1 ha
  have hB := busOK_iff_wf.1 hb
  obtain ⟨hca, rfl⟩ := finite_of_val_ne_zero hp (left_ne_zero_of_mul hpq)
  obtain ⟨hcb, rfl⟩ := finite_of_val_ne_zero hq (right_ne_zero_of_mul hpq)
  have hround := roundPackRoundsToNearestEven (promote (ofBus s.la) (ofBus s.lb)) ((ofBus s.la).s ^^ (ofBus s.lb).s)
    ((ofBus s.la).sf.1 * (ofBus s.lb).sf.1) ((ofBus s.la).sf.2 + (ofBus s.lb).sf.2) (promote_legal hA hB)
    (Nat.mul_pos (Value.sf_bounds hA hca).1 (Value.sf_bounds hB hcb).1)
  rw [sign_xor, Nat.cast_mul, zpow_add₀ two_ne_zero, mul_mul_mul_comm ((ofBus s.la).sf.1 : ℚ), mul_mul_mul_comm]
    at hround
  exact ⟨_, hround, (exec_mul_of_busOK ha hb).trans (answerOrNoNaN_of_eq_some (mulValue_of_finite hca hcb) s)⟩

/-! ### Special values (R194, R196) -/

section Special

variable {a b : Value}

theorem addValue_of_nan (h : a.cls = .nan ∨ b.cls = .nan) : addValue a b = canonNaN (promote a b) false := by
  rcases h with h | h
  · simp only [addValue, h]
  · cases ha : a.cls <;> simp only [addValue, h, ha]

theorem addValue_of_infinities (ha : a.cls = .infinity) (hb : b.cls = .infinity) :
    addValue a b = if a.s = b.s then some (infOf (promote a b) a.s) else canonNaN (promote a b) false := by
  simp only [addValue, ha, hb]

theorem addValue_of_infinity_left (ha : a.cls = .infinity) (hn : b.cls ≠ .nan) (hi : b.cls ≠ .infinity) :
    addValue a b = some (infOf (promote a b) a.s) := by
  cases hb : b.cls with
  | nan => exact absurd hb hn
  | infinity => exact absurd hb hi
  | zero | subnormal | normal => simp only [addValue, ha, hb]

theorem addValue_of_infinity_right (hb : b.cls = .infinity) (hn : a.cls ≠ .nan) (hi : a.cls ≠ .infinity) :
    addValue a b = some (infOf (promote a b) b.s) := by
  cases ha : a.cls with
  | nan => exact absurd ha hn
  | infinity => exact absurd ha hi
  | zero | subnormal | normal => simp only [addValue, ha, hb]

theorem mulValue_of_nan (h : a.cls = .nan ∨ b.cls = .nan) : mulValue a b = canonNaN (promote a b) false := by
  rcases h with h | h
  · simp only [mulValue, h]
  · cases ha : a.cls <;> simp only [mulValue, h, ha]

theorem mulValue_of_infinity_zero (h : a.cls = .infinity ∧ b.cls = .zero ∨ a.cls = .zero ∧ b.cls = .infinity) :
    mulValue a b = canonNaN (promote a b) false := by
  rcases h with ⟨ha, hb⟩ | ⟨ha, hb⟩ <;> simp only [mulValue, ha, hb]

theorem mulValue_of_infinity_left (ha : a.cls = .infinity) (hn : b.cls ≠ .nan) (hz : b.cls ≠ .zero) :
    mulValue a b = some (infOf (promote a b) (a.s ^^ b.s)) := by
  cases hb : b.cls with
  | nan => exact absurd hb hn
  | zero => exact absurd hb hz
  | infinity | subnormal | normal => simp only [mulValue, ha, hb]

theorem mulValue_of_infinity_right (hb : b.cls = .infinity) (hn : a.cls ≠ .nan) (hz : a.cls ≠ .zero) :
    mulValue a b = some (infOf (promote a b) (a.s ^^ b.s)) := by
  cases ha : a.cls with
  | nan => exact absurd ha hn
  | zero => exact absurd ha hz
  | infinity | subnormal | normal => simp only [mulValue, ha, hb]

theorem mulValue_of_zero_left (ha : a.cls = .zero) (hn : b.cls ≠ .nan) (hi : b.cls ≠ .infinity) :
    mulValue a b = some (zeroOf (promote a b) (a.s ^^ b.s)) := by
  cases hb : b.cls with
  | nan => exact absurd hb hn
  | infinity => exact absurd hb hi
  | zero | subnormal | normal => simp only [mulValue, ha, hb]

theorem mulValue_of_zero_right (hb : b.cls = .zero) (hn : a.cls ≠ .nan) (hi : a.cls ≠ .infinity) :
    mulValue a b = some (zeroOf (promote a b) (a.s ^^ b.s)) := by
  cases ha : a.cls with
  | nan => exact absurd ha hn
  | infinity => exact absurd ha hi
  | zero | subnormal | normal => simp only [mulValue, ha, hb]

/-- The format of a result with a NaN operand has a mantissa. -/
theorem one_le_promote_mb_of_nan (ha : a.WF) (hb : b.WF) (h : a.cls = .nan ∨ b.cls = .nan) : 1 ≤ (promote a b).mb := by
  rcases h with h | h
  · exact (Nat.pos_of_ne_zero (Value.mb_pos_of_nan ha h)).trans_le (le_max_left _ _)
  · exact (Nat.pos_of_ne_zero (Value.mb_pos_of_nan hb h)).trans_le (le_max_right _ _)

end Special

/-- The end of a command whose value has these fields. -/
theorem exec_of_fields {i : Instr} {o : Option Value} {s : State} {F : Format} {sgn : Bool} {e m : Nat}
    (hi : exec i s = answerOrNoNaN o s) (ho : o = some ⟨sgn, e, m, F⟩) :
    exec i s = .next { s with
      busy := false, valid := true, err := some 0
      r := some (BitVec.ofNat 4 F.eb ++ BitVec.ofNat 6 F.mb ++ BitVec.ofBool sgn ++ BitVec.ofNat 11 e ++
        BitVec.ofNat 52 m) } := by
  rw [hi, answerOrNoNaN_of_eq_some ho]
  rfl

/-- Settles O52: one case of R194 per clause. -/
theorem addOfSpecialValues : Obligations.AddOfSpecialValues := by
  unfold Obligations.AddOfSpecialValues
  intro s ha hb
  have ends := fun sgn e m => exec_of_fields (F := promote (ofBus s.la) (ofBus s.lb)) (sgn := sgn) (e := e) (m := m)
    (exec_add_of_busOK ha hb)
  refine ⟨fun hnan => ?nan, fun hai hbi hs => ?sameSign, fun hai hbi hs hmb => ?oppositeSign,
    fun hai hbn hbi => ?left, fun hbi han hai => ?right⟩
  case nan =>
    have hmb := one_le_promote_mb_of_nan (busOK_iff_wf.1 ha) (busOK_iff_wf.1 hb) hnan
    exact ends _ _ _ ((addValue_of_nan hnan).trans (canonNaN_of_mb_pos _ hmb))
  case sameSign => exact ends _ _ _ ((addValue_of_infinities hai hbi).trans (if_pos hs))
  case oppositeSign =>
    exact ends _ _ _ ((addValue_of_infinities hai hbi).trans ((if_neg hs).trans (canonNaN_of_mb_pos _ hmb)))
  case left => exact ends _ _ _ (addValue_of_infinity_left hai (Value.val_ne_none.1 hbn) hbi)
  case right => exact ends _ _ _ (addValue_of_infinity_right hbi (Value.val_ne_none.1 han) hai)

/-- Settles O57: one case of R196 per clause. -/
theorem mulOfSpecialValues : Obligations.MulOfSpecialValues := by
  unfold Obligations.MulOfSpecialValues
  intro s ha hb
  have ends := fun sgn e m => exec_of_fields (F := promote (ofBus s.la) (ofBus s.lb)) (sgn := sgn) (e := e) (m := m)
    (exec_mul_of_busOK ha hb)
  refine ⟨fun hnan => ?nan, fun hai hbz hmb => ?infinityZero, fun haz hbi hmb => ?zeroInfinity,
    fun hai hbn hbz => ?infinityLeft, fun hbi han haz => ?infinityRight, fun haz hbn hbi => ?zeroLeft,
    fun hbz han hai => ?zeroRight⟩
  case nan =>
    have hmb := one_le_promote_mb_of_nan (busOK_iff_wf.1 ha) (busOK_iff_wf.1 hb) hnan
    exact ends _ _ _ ((mulValue_of_nan hnan).trans (canonNaN_of_mb_pos _ hmb))
  case infinityZero =>
    exact ends _ _ _ ((mulValue_of_infinity_zero (.inl ⟨hai, hbz⟩)).trans (canonNaN_of_mb_pos _ hmb))
  case zeroInfinity =>
    exact ends _ _ _ ((mulValue_of_infinity_zero (.inr ⟨haz, hbi⟩)).trans (canonNaN_of_mb_pos _ hmb))
  case infinityLeft => exact ends _ _ _ (mulValue_of_infinity_left hai hbn hbz)
  case infinityRight => exact ends _ _ _ (mulValue_of_infinity_right hbi han haz)
  case zeroLeft => exact ends _ _ _ (mulValue_of_zero_left haz hbn hbi)
  case zeroRight => exact ends _ _ _ (mulValue_of_zero_right hbz han hai)

/-! ### Commutativity (R197) -/

theorem promote_comm (a b : Value) : promote a b = promote b a := by
  rw [promote, promote, Nat.max_comm, Nat.max_comm a.fmt.mb]

theorem alignExp_comm {a b : Value} (h : a.cls ≠ .zero ∨ b.cls ≠ .zero) : alignExp a b = alignExp b a := by
  unfold alignExp
  split_ifs with ha hb
  · exact absurd h (by simp [ha, hb])
  · rfl
  · rfl
  · exact min_comm _ _

theorem addFinite_comm {a b : Value} (h : a.cls ≠ .zero ∨ b.cls ≠ .zero) : addFinite a b = addFinite b a := by
  simp only [addFinite, alignExp_comm h, promote_comm a b, add_comm (alignedSig (alignExp b a) a)]

theorem addValue_comm (a b : Value) : addValue a b = addValue b a := by
  by_cases hnan : a.cls = .nan ∨ b.cls = .nan
  · rw [addValue_of_nan hnan, addValue_of_nan hnan.symm, promote_comm]
  obtain ⟨han, hbn⟩ := not_or.1 hnan
  by_cases hai : a.cls = .infinity <;> by_cases hbi : b.cls = .infinity
  · rw [addValue_of_infinities hai hbi, addValue_of_infinities hbi hai, promote_comm]
    by_cases hs : a.s = b.s
    · rw [if_pos hs, if_pos hs.symm, hs]
    · rw [if_neg hs, if_neg (Ne.symm hs)]
  · rw [addValue_of_infinity_left hai hbn hbi, addValue_of_infinity_right hai hbn hbi, promote_comm]
  · rw [addValue_of_infinity_right hbi han hai, addValue_of_infinity_left hbi han hai, promote_comm]
  · by_cases hzero : a.cls = .zero ∧ b.cls = .zero
    · simp only [addValue, hzero, promote_comm a b, Bool.and_comm a.s]
    · have hne : a.cls ≠ .zero ∨ b.cls ≠ .zero := not_and_or.1 hzero
      rw [addValue_of_finite ⟨hai, han⟩ ⟨hbi, hbn⟩ hne, addValue_of_finite ⟨hbi, hbn⟩ ⟨hai, han⟩ hne.symm,
        addFinite_comm hne]

theorem mulValue_comm (a b : Value) : mulValue a b = mulValue b a := by
  unfold mulValue
  rw [promote_comm b a, Bool.xor_comm b.s, Nat.mul_comm b.sf.1, add_comm b.sf.2]
  cases a.cls <;> cases b.cls <;> rfl

/-- An ending leaves the latches of A and B as they stand and does not depend on them. -/
theorem apply_with_operands (t : Ending) (s : State) (a b : BusWord) :
    t.apply { s with la := a, lb := b } = { t.apply s with la := a, lb := b } := by cases t <;> rfl

/-- A command that answers a commutative function of A and B ends alike when they are swapped. -/
theorem exec_swap {i : Instr} {f : Value → Value → Option Value} (hcomm : ∀ a b, f a b = f b a)
    (hi : ∀ s : State, BusOK s.la → BusOK s.lb → exec i s = answerOrNoNaN (f (ofBus s.la) (ofBus s.lb)) s) {s : State}
    (ha : BusOK s.la) (hb : BusOK s.lb) : ∃ t, exec i s = .next t ∧
      exec i { s with la := s.lb, lb := s.la } = .next { t with la := s.lb, lb := s.la } := by
  refine ⟨_, (hi s ha hb).trans (answerOrNoNaN_eq _ _), ?_⟩
  have hswapped : exec i { s with la := s.lb, lb := s.la } = answerOrNoNaN (f (ofBus s.lb) (ofBus s.la)) _ :=
    hi { s with la := s.lb, lb := s.la } hb ha
  rw [hswapped, answerOrNoNaN_eq, hcomm, apply_with_operands]

/-- Settles O59: the values of ADD and MUL are commutative. -/
theorem addAndMulCommute : Obligations.AddAndMulCommute := by
  unfold Obligations.AddAndMulCommute
  rintro s i (rfl | rfl) ha hb
  · exact exec_swap addValue_comm (fun _ => exec_add_of_busOK) ha hb
  · exact exec_swap mulValue_comm (fun _ => exec_mul_of_busOK) ha hb

end Sys2Proof.Proofs
